-- ==== Sys2Proof/Word.lean ====
section
/-! DEFINITION. The word types of the PCVR control engine (spec/00_scope.md R12, spec/10_state.md R20,
spec/30_encoding.md R80). -/

namespace Sys2Proof

/-- An operation word: "The operation word `W` is 32 bits" (R80). -/
abbrev Word := BitVec 32

/-- A sample code: an unsigned integer in `0 .. CODE_MAX`, 12 bits (R9 `CODE_BITS`, R18). -/
abbrev Code := BitVec 12

/-- A stored word of the step memory, or a pipeline sample: 16 bits, "stored widened" (R20, R21). -/
abbrev Sample := BitVec 16

/-- A byte of the DAC frame (R87). -/
abbrev Byte := BitVec 8

end Sys2Proof
end

