-- ==== Sys2Proof/Machine/Arith.lean ====
section
/-! DEFINITION. The division primitives of spec/00_scope.md R13, on unbounded integers, and the distance of two
natural numbers. -/

namespace Sys2Proof.Machine

/-- `fdiv(a, b)`, `b > 0`: "floor division: the largest integer `q` with `q × b ≤ a`".  Lean's `/` on `Int`
rounds down for a positive divisor. -/
def fdiv (a b : Int) : Int := a / b

/-- `fmod(a, b) = a − b × fdiv(a, b)`. -/
def fmod (a b : Int) : Int := a - b * fdiv a b

/-- `rdiv(n, d)`, `d > 0`: round-to-nearest division, halves away from zero. -/
def rdiv (n : Int) (d : Nat) : Int :=
  if 0 ≤ n then fdiv (n + (d / 2 : Nat)) d else -fdiv (-n + (d / 2 : Nat)) d

/-- `abs(m − n)` of two natural numbers. -/
def distance (m n : Nat) : Nat := (m - n) + (n - m)

end Sys2Proof.Machine
end

