-- ==== Sys2Proof/Config.lean ====
section
/-! DEFINITION. The configuration record `Cfg` of spec/00_scope.md R9, its well-formedness (R10,
spec/44_quantizer.md R221), the test configuration TC0, and the free values. -/

namespace Sys2Proof

/-- One scale table: 12 entries, "one entry per chromatic semitone, each mapping to the nearest scale
member" (R214, R220). -/
abbrev ScaleTable := List Nat

/-- The configuration record of R9, one field per row of its table.  The fields that R9 marks `OPEN` are
`fastMs`, `slowMs`, `muxSettleUs`, `dacCmd` and `dacAddr`; every statement about all states holds for
every well-formed value of them. -/
structure Cfg where
  /-- `MEM_LEN`: entries of `memory`. -/
  memLen : Nat
  /-- `CODE_BITS`: bits of a sample code. -/
  codeBits : Nat
  /-- `CODE_MAX`: largest sample code. -/
  codeMax : Nat
  /-- `MID`: the code of zero deviation. -/
  mid : Nat
  /-- `SPO`: raw codes spanning one octave. -/
  spo : Nat
  /-- `DEBOUNCE_MS`. -/
  debounceMs : Nat
  /-- `BOUNCE_MS`: shortest hold that counts as a press. -/
  bounceMs : Nat
  /-- `LONG_PRESS_MS`: hold above which a press is long. -/
  longPressMs : Nat
  /-- `TEMPO_READ_MS`: period of the tempo-read callback. -/
  tempoReadMs : Nat
  /-- `TEMPO_HYST_MS`: hysteresis band of `tempo_delay_ms`. -/
  tempoHystMs : Nat
  /-- `TRIG_PULSE_MS`: width of the trigger pulse. -/
  trigPulseMs : Nat
  /-- `FAST_MS`: shortest beat period before halving (OPEN). -/
  fastMs : Nat
  /-- `SLOW_MS`: longest beat period before halving (OPEN). -/
  slowMs : Nat
  /-- `ADC_MAX`: full-scale raw code of the tempo potentiometer. -/
  adcMax : Nat
  /-- `MUX_SETTLE_US`: settle time after a multiplexer address change (OPEN). -/
  muxSettleUs : Nat
  /-- `SCALE_TABLE`: one table for each scale. -/
  scaleTable : List ScaleTable
  /-- `RANGE_OCT`: octave span of each `pot_range` value. -/
  rangeOct : List Nat
  /-- `FULL_SPAN`: denominator of the rescale ratio. -/
  fullSpan : Nat
  /-- `DAC_CMD`: byte 0 of the DAC frame (OPEN). -/
  dacCmd : Byte
  /-- `DAC_ADDR`: bus address of the DAC (OPEN). -/
  dacAddr : BitVec 7
deriving DecidableEq, Repr

/-- `N_SCALES`, the number of scales (R9). -/
abbrev Cfg.nScales (c : Cfg) : Nat := c.scaleTable.length

/-- Entry `n` of a scale table.  A well-formed table has an entry for every note `0 .. 11`; outside that
range no rule reads it. -/
def ScaleTable.entry (t : ScaleTable) (n : Nat) : Nat := t.getD n 0

/-- The distance between two notes of one octave. -/
def noteDistance (m n : Nat) : Nat := (m - n) + (n - m)

/-- The distance of note `n` to the member its entry names: the entry 0 at note 11 stands for the root of
the next octave, one semitone away (R221 (d)). -/
def ScaleTable.snapDistance (t : ScaleTable) (n : Nat) : Nat :=
  if n = 11 ∧ t.entry 11 = 0 then 1 else noteDistance n (t.entry n)

/-- R221: a well-formed scale table.  The conjuncts are its (a), (b), (c), (d) and, last, the rest of (d):
at note 11 the root of the next octave is also a candidate, at distance 1. -/
def ScaleTable.wf (t : ScaleTable) : Bool :=
  t.length == 12 && t.all (· < 12) && t.entry 0 == 0 &&
  (List.range 12).all (fun n => t.entry (t.entry n) == t.entry n) &&
  (List.range 12).all (fun n => t.all fun m => t.snapDistance n ≤ noteDistance n m) &&
  decide (t.snapDistance 11 ≤ 1)

/-- R10: "A configuration is well-formed when every constraint of rule R9 holds and `SCALE_TABLE` meets
R221".  `fullSpan = 4096` is R9's value, which R232 counts among the consequences of well-formedness
(assumption 7, DEDUCED); at most 16 scales is what the 4-bit `active_scale` can name (assumption 8, DEDUCED). -/
def Cfg.wf (c : Cfg) : Bool :=
  c.memLen == 16 && c.codeBits == 12 && c.codeMax == 2 ^ c.codeBits - 1 &&
  decide (c.mid ≤ c.codeMax) && decide (12 ≤ c.spo) &&
  c.debounceMs == 20 && c.bounceMs == 20 && c.longPressMs == 600 &&
  c.tempoReadMs == 100 && c.tempoHystMs == 20 && c.trigPulseMs == 10 &&
  decide (2 ≤ c.fastMs) && decide (c.fastMs ≤ c.slowMs) && decide (c.slowMs ≤ 131071) &&
  c.adcMax == c.codeMax && decide (10 ≤ c.muxSettleUs) && decide (c.muxSettleUs ≤ 99) &&
  decide (1 ≤ c.nScales) && decide (c.nScales ≤ 16) && c.scaleTable.all ScaleTable.wf &&
  c.rangeOct == [1, 2, 5] && c.fullSpan == 4096 && decide (5 * c.spo ≤ c.fullSpan)

/-- R222, scale 0: the major scale. -/
def majorTable : ScaleTable := [0, 0, 2, 2, 4, 5, 5, 7, 7, 9, 9, 11]

/-- R222, scale 1: the major pentatonic scale, the one default table with the wrap of R223. -/
def pentaTable : ScaleTable := [0, 0, 2, 2, 4, 4, 7, 7, 7, 9, 9, 0]

/-- R222, scale 2: the natural minor scale. -/
def minorTable : ScaleTable := [0, 0, 2, 3, 3, 5, 5, 7, 8, 8, 10, 10]

/-- The test configuration TC0 of R9.  The values of the OPEN fields are TC0's, not the hardware's
(assumption 1, DESIGN CHOICE). -/
def Cfg.tc0 : Cfg where
  memLen := 16
  codeBits := 12
  codeMax := 4095
  mid := 2048
  spo := 205
  debounceMs := 20
  bounceMs := 20
  longPressMs := 600
  tempoReadMs := 100
  tempoHystMs := 20
  trigPulseMs := 10
  fastMs := 100
  slowMs := 2100
  adcMax := 4095
  muxSettleUs := 50
  scaleTable := [majorTable, pentaTable, minorTable]
  rangeOct := [1, 2, 5]
  fullSpan := 4096
  dacCmd := 0x40#8
  dacAddr := 0x60#7

/-- The free values: the n-th draw of a value the spec leaves open ("any value", spec/93 U3, U7, U19, U20,
U21).  It has no body, so nothing can be proved of a drawn value (assumption 3). -/
opaque Config.freeValue : Nat → BitVec 32

end Sys2Proof
end

