-- ==== Sys2Proof/Syntax.lean ====
section
/-! DEFINITION. The 43 operations of the engine (spec/30_encoding.md R86), one constructor for each row of
spec/opcode_table.json, with the operand types of R82 and the enumerations of R83 to R85. -/

namespace Sys2Proof

/-- The seven input pins, in the numbering of R84. -/
inductive Pin where
  | trigBtn | modeBtn | extTrig | extMode | extClkEn | potModeSw | qmodeSel
deriving DecidableEq, Repr

/-- The values of `quantize_mode` (R83: 0, 1, 2; 3 is reserved and no operation writes it). -/
inductive QMode where
  | unquantized | chromatic | scaleSnapped
deriving DecidableEq, Repr

/-- The values of `pot_range` (R83: 0, 1, 2 for 1, 2 and 5 octaves; 3 is reserved). -/
inductive PotRange where
  | oct1 | oct2 | oct5
deriving DecidableEq, Repr

/-- The agents of R8, and `function` for the pure functions, which belong to no agent. -/
inductive Agent where
  | env | int | main | function
deriving DecidableEq, Repr

/-- The operations of R86.  Operand fields have the widths of R82; a field whose legal values are an
enumeration has that enumeration's type. -/
inductive Instr where
  -- class 0: environment stimuli
  | reset
  | adv (tUs : BitVec 24)
  | pin (p : Pin) (level : BitVec 2)
  | ain (chan : Fin 17) (code : Code)
  | loop
  -- class 1: input debounce and edge decoder
  | tbRise
  | tbRecheck
  | mbRise
  | mbFall
  | xtRise
  | xmRise
  -- class 2: tempo clock scheduler
  | clkTrig
  | clkAnt
  | clkReset
  | clkCancel
  | tempoRead
  | tempoMap (code : Code)
  -- class 3: multiplexer address controller
  | muxSet (idx : BitVec 4)
  | muxSettle
  -- class 4: step execution pipeline
  | stepS1
  | stepS2
  | stepS3
  | stepS4
  | stepS5
  | stepS6
  | stepS7
  | stepS8
  | stepS9
  | trigOff
  | dacFrame (code : Code)
  -- class 5: quantizer
  | qD2S (val : BitVec 16)
  | qS2D (val : BitVec 16)
  | qChrom (code : Code)
  | qSnap (scale : BitVec 4) (code : Code)
  | qApply (mode : QMode) (scale : BitVec 4) (code : Code)
  -- class 6: pot-range rescaler
  | rScale (range : PotRange) (code : Code)
  -- class 7: main loop
  | lPollsw
  | lMode
  | lScale
  | lRange
  | lStep
  | extclkEnter
  | extclkLeave
deriving DecidableEq, Repr

/-- The number of a pin in format `P` (R84). -/
def Pin.number : Pin → BitVec 8
  | .trigBtn => 0
  | .modeBtn => 1
  | .extTrig => 2
  | .extMode => 3
  | .extClkEn => 4
  | .potModeSw => 5
  | .qmodeSel => 6

/-- The number of a quantize mode (R83). -/
def QMode.number : QMode → BitVec 2
  | .unquantized => 0
  | .chromatic => 1
  | .scaleSnapped => 2

/-- The number of a pot range (R83). -/
def PotRange.number : PotRange → BitVec 2
  | .oct1 => 0
  | .oct2 => 1
  | .oct5 => 2

/-- R86, column "agent".  `CLK.RESET`, `CLK.CANCEL` and `MUX.SET` are performed by MAIN or by boot. -/
def Instr.agent : Instr → Agent
  | .reset | .adv _ | .pin _ _ | .ain _ _ | .loop => .env
  | .tbRise | .tbRecheck | .mbRise | .mbFall | .xtRise | .xmRise => .int
  | .clkTrig | .clkAnt | .tempoRead | .trigOff => .int
  | .clkReset | .clkCancel | .muxSet _ | .muxSettle => .main
  | .stepS1 | .stepS2 | .stepS3 | .stepS4 | .stepS5 | .stepS6 | .stepS7 | .stepS8 | .stepS9 => .main
  | .lPollsw | .lMode | .lScale | .lRange | .lStep | .extclkEnter | .extclkLeave => .main
  | .tempoMap _ | .dacFrame _ | .qD2S _ | .qS2D _ | .qChrom _ | .qSnap _ _ | .qApply _ _ _ | .rScale _ _ =>
      .function

/-- R86, column "Inj"; R91: "the five stimuli and the eight pure functions". -/
def Instr.injectable : Instr → Bool
  | .reset | .adv _ | .pin _ _ | .ain _ _ | .loop => true
  | .tempoMap _ | .dacFrame _ | .qD2S _ | .qS2D _ | .qChrom _ | .qSnap _ _ | .qApply _ _ _ | .rScale _ _ => true
  | .tbRise | .tbRecheck | .mbRise | .mbFall | .xtRise | .xmRise => false
  | .clkTrig | .clkAnt | .clkReset | .clkCancel | .tempoRead | .muxSet _ | .muxSettle => false
  | .stepS1 | .stepS2 | .stepS3 | .stepS4 | .stepS5 | .stepS6 | .stepS7 | .stepS8 | .stepS9 => false
  | .trigOff | .lPollsw | .lMode | .lScale | .lRange | .lStep | .extclkEnter | .extclkLeave => false

/-- The mnemonics of spec/opcode_table.json, which are also those of a script's text (R92). -/
def Instr.mnemonic : Instr → String
  | .reset => "RESET"
  | .adv _ => "ADV"
  | .pin _ _ => "PIN"
  | .ain _ _ => "AIN"
  | .loop => "LOOP"
  | .tbRise => "TB.RISE"
  | .tbRecheck => "TB.RECHECK"
  | .mbRise => "MB.RISE"
  | .mbFall => "MB.FALL"
  | .xtRise => "XT.RISE"
  | .xmRise => "XM.RISE"
  | .clkTrig => "CLK.TRIG"
  | .clkAnt => "CLK.ANT"
  | .clkReset => "CLK.RESET"
  | .clkCancel => "CLK.CANCEL"
  | .tempoRead => "TEMPO.READ"
  | .tempoMap _ => "TEMPO.MAP"
  | .muxSet _ => "MUX.SET"
  | .muxSettle => "MUX.SETTLE"
  | .stepS1 => "STEP.S1"
  | .stepS2 => "STEP.S2"
  | .stepS3 => "STEP.S3"
  | .stepS4 => "STEP.S4"
  | .stepS5 => "STEP.S5"
  | .stepS6 => "STEP.S6"
  | .stepS7 => "STEP.S7"
  | .stepS8 => "STEP.S8"
  | .stepS9 => "STEP.S9"
  | .trigOff => "TRIG.OFF"
  | .dacFrame _ => "DAC.FRAME"
  | .qD2S _ => "Q.D2S"
  | .qS2D _ => "Q.S2D"
  | .qChrom _ => "Q.CHROM"
  | .qSnap _ _ => "Q.SNAP"
  | .qApply _ _ _ => "Q.APPLY"
  | .rScale _ _ => "R.SCALE"
  | .lPollsw => "L.POLLSW"
  | .lMode => "L.MODE"
  | .lScale => "L.SCALE"
  | .lRange => "L.RANGE"
  | .lStep => "L.STEP"
  | .extclkEnter => "EXTCLK.ENTER"
  | .extclkLeave => "EXTCLK.LEAVE"

end Sys2Proof
end

