-- ==== Sys2Proof/WellFormed.lean ====
section
/-! DEFINITION. Which operation terms are well-formed: the operand checks of spec/30_encoding.md R90 that
the operand types of `Instr` do not already make. -/

namespace Sys2Proof

/-- R84, R90 (c): the legal levels of a pin are 0 and 1, and 0, 1 and 2 for `QMODE_SEL`. -/
def legalLevel (p : Pin) (level : BitVec 2) : Bool :=
  match p with
  | .qmodeSel => decide (level.toNat ≤ 2)
  | .trigBtn | .modeBtn | .extTrig | .extMode | .extClkEn | .potModeSw => decide (level.toNat ≤ 1)

/-- R90 (e): a scale operand is below `N_SCALES`. -/
def legalScale (nScales : Nat) (scale : BitVec 4) : Bool := decide (scale.toNat < nScales)

/-- An operation is well-formed, for a configuration with `nScales` scales, when its operands are legal
(R90 (c) and (e)).  Pin numbers, analog sources, modes and ranges are legal by their types. -/
def wellFormed (nScales : Nat) : Instr → Bool
  | .pin p level => legalLevel p level
  | .qSnap scale _ => legalScale nScales scale
  | .qApply _ scale _ => legalScale nScales scale
  | .reset | .adv _ | .ain _ _ | .loop => true
  | .tbRise | .tbRecheck | .mbRise | .mbFall | .xtRise | .xmRise => true
  | .clkTrig | .clkAnt | .clkReset | .clkCancel | .tempoRead | .tempoMap _ | .muxSet _ | .muxSettle => true
  | .stepS1 | .stepS2 | .stepS3 | .stepS4 | .stepS5 | .stepS6 | .stepS7 | .stepS8 | .stepS9 => true
  | .trigOff | .dacFrame _ | .qD2S _ | .qS2D _ | .qChrom _ | .rScale _ _ => true
  | .lPollsw | .lMode | .lScale | .lRange | .lStep | .extclkEnter | .extclkLeave => true

end Sys2Proof
end

