-- ==== Sys2Proof/Decode.lean ====
section
/-! DEFINITION. The operation word: decoder and encoder, from spec/30_encoding.md R80 to R94. -/

namespace Sys2Proof

/-- Why a word is `invalid` (R90).  A word that breaks several of R90 (a) to (f) gets one reason; which one is the
model's choice (assumption 20, DESIGN CHOICE). -/
inductive Invalid where
  /-- R90 (a): the opcode is not in the map of R86. -/
  | opcode
  /-- R90 (b): a non-zero bit in an operand position the format does not name. -/
  | operandBits
  /-- R90 (c): `PIN` with `pin > 6`. -/
  | pin
  /-- R90 (c): `PIN` with a level the pin cannot have. -/
  | level
  /-- R90 (d): `AIN` with `chan > 16`. -/
  | chan
  /-- R90 (e): `Q.SNAP` or `Q.APPLY` with `scale ≥ N_SCALES`. -/
  | scale
  /-- R90 (e): `Q.APPLY` with `mode = 3`. -/
  | mode
  /-- R90 (e): `R.SCALE` with `range = 3`. -/
  | range
  /-- R90 (f), R91: a word marked `no` in R86, in a script. -/
  | internal
deriving DecidableEq, Repr

/-- The pin a number names (R84); 7 to 255 are reserved. -/
def Pin.ofNumber? (n : BitVec 8) : Option Pin :=
  match n.toNat with
  | 0 => some .trigBtn
  | 1 => some .modeBtn
  | 2 => some .extTrig
  | 3 => some .extMode
  | 4 => some .extClkEn
  | 5 => some .potModeSw
  | 6 => some .qmodeSel
  | _ => none

/-- The quantize mode a number names (R83); 3 is reserved. -/
def QMode.ofNumber? (n : BitVec 2) : Option QMode :=
  match n.toNat with
  | 0 => some .unquantized
  | 1 => some .chromatic
  | 2 => some .scaleSnapped
  | _ => none

/-- The pot range a number names (R83); 3 is reserved. -/
def PotRange.ofNumber? (n : BitVec 2) : Option PotRange :=
  match n.toNat with
  | 0 => some .oct1
  | 1 => some .oct2
  | 2 => some .oct5
  | _ => none

/-- The analog source a number names (R85); 17 to 255 are reserved. -/
def sourceOfNumber? (n : BitVec 8) : Option (Fin 17) :=
  if h : n.toNat < 17 then some ⟨n.toNat, h⟩ else none

/-- `W[31:24]`, the opcode (R80). -/
def opcodeField (w : Word) : BitVec 8 := w.extractLsb' 24 8

/-- `W[23:0]`, the operand field (R80). -/
def operandField (w : Word) : BitVec 24 := w.extractLsb' 0 24

/-- Format `Z`: no operand, `W[23:0] = 0`. -/
def formZ (x : BitVec 24) (i : Instr) : Except Invalid Instr :=
  if x = 0 then .ok i else .error .operandBits

/-- Format `P`: `pin = W[23:16]`, `level = W[1:0]`.  Of several reasons the unnamed bits go first, then the pin, then
the level (assumption 20). -/
def formP (x : BitVec 24) : Except Invalid Instr :=
  if x.extractLsb' 2 14 = 0 then
    match Pin.ofNumber? (x.extractLsb' 16 8) with
    | none => .error .pin
    | some p => if legalLevel p (x.extractLsb' 0 2) then .ok (.pin p (x.extractLsb' 0 2)) else .error .level
  else .error .operandBits

/-- Format `A`: `chan = W[23:16]`, `code = W[11:0]`.  The unnamed bits go before the source (assumption 20). -/
def formA (x : BitVec 24) : Except Invalid Instr :=
  if x.extractLsb' 12 4 = 0 then
    match sourceOfNumber? (x.extractLsb' 16 8) with
    | none => .error .chan
    | some c => .ok (.ain c (x.extractLsb' 0 12))
  else .error .operandBits

/-- Format `I`: `idx = W[3:0]`. -/
def formI (x : BitVec 24) (f : BitVec 4 → Instr) : Except Invalid Instr :=
  if x.extractLsb' 4 20 = 0 then .ok (f (x.extractLsb' 0 4)) else .error .operandBits

/-- Format `C`: `code = W[11:0]`. -/
def formC (x : BitVec 24) (f : Code → Instr) : Except Invalid Instr :=
  if x.extractLsb' 12 12 = 0 then .ok (f (x.extractLsb' 0 12)) else .error .operandBits

/-- Format `D`: `val = W[15:0]`, signed. -/
def formD (x : BitVec 24) (f : BitVec 16 → Instr) : Except Invalid Instr :=
  if x.extractLsb' 16 8 = 0 then .ok (f (x.extractLsb' 0 16)) else .error .operandBits

/-- Format `SC`: `scale = W[15:12]`, `code = W[11:0]`.  The unnamed bits go before the scale (assumption 20). -/
def formSC (nScales : Nat) (x : BitVec 24) : Except Invalid Instr :=
  if x.extractLsb' 16 8 = 0 then
    if legalScale nScales (x.extractLsb' 12 4) then
      .ok (.qSnap (x.extractLsb' 12 4) (x.extractLsb' 0 12))
    else .error .scale
  else .error .operandBits

/-- Format `MSC`: `mode = W[17:16]`, `scale = W[15:12]`, `code = W[11:0]`.  Of several reasons the unnamed bits go
first, then the mode, then the scale (assumption 20). -/
def formMSC (nScales : Nat) (x : BitVec 24) : Except Invalid Instr :=
  if x.extractLsb' 18 6 = 0 then
    match QMode.ofNumber? (x.extractLsb' 16 2) with
    | none => .error .mode
    | some m =>
      if legalScale nScales (x.extractLsb' 12 4) then
        .ok (.qApply m (x.extractLsb' 12 4) (x.extractLsb' 0 12))
      else .error .scale
  else .error .operandBits

/-- Format `RC`: `range = W[13:12]`, `code = W[11:0]`.  The unnamed bits go before the range (assumption 20). -/
def formRC (x : BitVec 24) : Except Invalid Instr :=
  if x.extractLsb' 14 10 = 0 then
    match PotRange.ofNumber? (x.extractLsb' 12 2) with
    | none => .error .range
    | some r => .ok (.rScale r (x.extractLsb' 0 12))
  else .error .operandBits

/-- The map of R86: the operation an opcode and an operand field stand for. -/
def decodeFields (nScales : Nat) (op : BitVec 8) (x : BitVec 24) : Except Invalid Instr :=
  match op.toNat with
  | 0x01 => formZ x .reset
  | 0x02 => .ok (.adv x)
  | 0x03 => formP x
  | 0x04 => formA x
  | 0x05 => formZ x .loop
  | 0x10 => formZ x .tbRise
  | 0x11 => formZ x .tbRecheck
  | 0x12 => formZ x .mbRise
  | 0x13 => formZ x .mbFall
  | 0x14 => formZ x .xtRise
  | 0x15 => formZ x .xmRise
  | 0x20 => formZ x .clkTrig
  | 0x21 => formZ x .clkAnt
  | 0x22 => formZ x .clkReset
  | 0x23 => formZ x .clkCancel
  | 0x24 => formZ x .tempoRead
  | 0x25 => formC x .tempoMap
  | 0x30 => formI x .muxSet
  | 0x31 => formZ x .muxSettle
  | 0x41 => formZ x .stepS1
  | 0x42 => formZ x .stepS2
  | 0x43 => formZ x .stepS3
  | 0x44 => formZ x .stepS4
  | 0x45 => formZ x .stepS5
  | 0x46 => formZ x .stepS6
  | 0x47 => formZ x .stepS7
  | 0x48 => formZ x .stepS8
  | 0x49 => formZ x .stepS9
  | 0x4A => formZ x .trigOff
  | 0x4B => formC x .dacFrame
  | 0x50 => formD x .qD2S
  | 0x51 => formD x .qS2D
  | 0x52 => formC x .qChrom
  | 0x53 => formSC nScales x
  | 0x54 => formMSC nScales x
  | 0x60 => formRC x
  | 0x70 => formZ x .lPollsw
  | 0x71 => formZ x .lMode
  | 0x72 => formZ x .lScale
  | 0x73 => formZ x .lRange
  | 0x74 => formZ x .lStep
  | 0x75 => formZ x .extclkEnter
  | 0x76 => formZ x .extclkLeave
  | _ => .error .opcode

/-- The decoder of `optrace` words (R90 (a) to (e)): total on 32-bit words.  The number of scales comes from
the configuration (R90 (e)). -/
def decode (nScales : Nat) (w : Word) : Except Invalid Instr :=
  decodeFields nScales (opcodeField w) (operandField w)

/-- The decoder of a script's words (R90 (a) to (f), R91): a word marked `no` in R86 is refused, with
the decoder's own reason where it has another (assumption 20). -/
def decodeScript (nScales : Nat) (w : Word) : Except Invalid Instr :=
  match decode nScales w with
  | .error e => .error e
  | .ok i => if i.injectable then .ok i else .error .internal

/-- `W[31:24]` of each operation (R86). -/
def Instr.opcode : Instr → BitVec 8
  | .reset => 0x01
  | .adv _ => 0x02
  | .pin _ _ => 0x03
  | .ain _ _ => 0x04
  | .loop => 0x05
  | .tbRise => 0x10
  | .tbRecheck => 0x11
  | .mbRise => 0x12
  | .mbFall => 0x13
  | .xtRise => 0x14
  | .xmRise => 0x15
  | .clkTrig => 0x20
  | .clkAnt => 0x21
  | .clkReset => 0x22
  | .clkCancel => 0x23
  | .tempoRead => 0x24
  | .tempoMap _ => 0x25
  | .muxSet _ => 0x30
  | .muxSettle => 0x31
  | .stepS1 => 0x41
  | .stepS2 => 0x42
  | .stepS3 => 0x43
  | .stepS4 => 0x44
  | .stepS5 => 0x45
  | .stepS6 => 0x46
  | .stepS7 => 0x47
  | .stepS8 => 0x48
  | .stepS9 => 0x49
  | .trigOff => 0x4A
  | .dacFrame _ => 0x4B
  | .qD2S _ => 0x50
  | .qS2D _ => 0x51
  | .qChrom _ => 0x52
  | .qSnap _ _ => 0x53
  | .qApply _ _ _ => 0x54
  | .rScale _ _ => 0x60
  | .lPollsw => 0x70
  | .lMode => 0x71
  | .lScale => 0x72
  | .lRange => 0x73
  | .lStep => 0x74
  | .extclkEnter => 0x75
  | .extclkLeave => 0x76

/-- `W[23:0]` of each operation: the fields of its format (R82), zero elsewhere. -/
def Instr.operands : Instr → BitVec 24
  | .adv t => t
  | .pin p level => p.number ++ 0#14 ++ level
  | .ain c code => BitVec.ofNat 8 c.val ++ 0#4 ++ code
  | .tempoMap code | .dacFrame code | .qChrom code => 0#12 ++ code
  | .muxSet idx => 0#20 ++ idx
  | .qD2S v | .qS2D v => 0#8 ++ v
  | .qSnap scale code => 0#8 ++ scale ++ code
  | .qApply m scale code => 0#6 ++ m.number ++ scale ++ code
  | .rScale r code => 0#10 ++ r.number ++ code
  | .reset | .loop | .tbRise | .tbRecheck | .mbRise | .mbFall | .xtRise | .xmRise => 0
  | .clkTrig | .clkAnt | .clkReset | .clkCancel | .tempoRead | .muxSettle => 0
  | .stepS1 | .stepS2 | .stepS3 | .stepS4 | .stepS5 | .stepS6 | .stepS7 | .stepS8 | .stepS9 => 0
  | .trigOff | .lPollsw | .lMode | .lScale | .lRange | .lStep | .extclkEnter | .extclkLeave => 0

/-- The encoder: the operation word of an operation (R80, R82, R86). -/
def encode (i : Instr) : Word := i.opcode ++ i.operands

/-- The operation the decoder reads from an instruction whose bits are `w`, bit 0 the least significant bit
of the word; every word is 32 bits (R94).  Bits above `nbits` are zero.  The number of scales is the value R9
gives this hardware, `N_SCALES = 3`. -/
def decodeTableWord (nbits w : Nat) : Option Instr :=
  match decode 3 (BitVec.ofNat 32 (w % 2 ^ nbits)) with
  | .ok i => some i
  | .error _ => none

end Sys2Proof
end

