-- ==== Sys2Proof/Machine/State.lean ====
section
/-! DEFINITION. The state of the engine: every field of spec/10_state.md R20, the reset values of R44 as
spec/70_reset_and_hazards.md R334 has them after the whole `RESET`, and the model's own fields (the turns of
the agents, the free-value counter, the value of the last function word). -/

namespace Sys2Proof.Machine

/-- The sequencer position `seq` (R30): `IDLE`, or the micro-step of the pipeline MAIN performs next. -/
inductive Seq where
  | idle | s1 | s2 | s3 | s4 | s5 | s6 | s7 | s8 | s9
deriving DecidableEq, Repr

/-- The encoding of `seq` (R30, R85): `IDLE` = 0, `S1` = 1, ..., `S9` = 9. -/
def Seq.number : Seq → Nat
  | .idle => 0
  | .s1 => 1
  | .s2 => 2
  | .s3 => 3
  | .s4 => 4
  | .s5 => 5
  | .s6 => 6
  | .s7 => 7
  | .s8 => 8
  | .s9 => 9

/-- The loop position `lpos` (R30): which poll operation MAIN performs next at `seq = IDLE`. -/
inductive LPos where
  | pollsw | mode | scale | range | step
deriving DecidableEq, Repr

/-- The encoding of `lpos` (R30): 0 `L.POLLSW`, 1 `L.MODE`, 2 `L.SCALE`, 3 `L.RANGE`, 4 `L.STEP`. -/
def LPos.number : LPos → Nat
  | .pollsw => 0
  | .mode => 1
  | .scale => 2
  | .range => 3
  | .step => 4

/-- The phases of the tempo clock (R83): `TRIGGER` = 0, `ANTICIPATE` = 1. -/
inductive Phase where
  | trigger | anticipate
deriving DecidableEq, Repr

/-- The encoding of a phase (R83). -/
def Phase.number : Phase → Nat
  | .trigger => 0
  | .anticipate => 1

/-- The analog channels (R38, R85): `CV` = 0, `TEMPO` = 1. -/
inductive AdcChannel where
  | cv | tempo
deriving DecidableEq, Repr

/-- The encoding of `adc_sel` (R85). -/
def AdcChannel.number : AdcChannel → Nat
  | .cv => 0
  | .tempo => 1

/-- The alarm slots (R36, R85). -/
inductive Slot where
  | beat | debounce | trigOff | tempo
deriving DecidableEq, Repr

/-- The number of a slot (R85): 0 `BEAT`, 1 `DEBOUNCE`, 2 `TRIG_OFF`, 3 `TEMPO`. -/
def Slot.number : Slot → Nat
  | .beat => 0
  | .debounce => 1
  | .trigOff => 2
  | .tempo => 3

/-- What a scheduled callback runs (R36): the beat slot carries its phase. -/
inductive Event where
  | beat (phase : Phase) | debounce | trigOff | tempo
deriving DecidableEq, Repr

/-- The slot an event is scheduled in (R36: "one slot per purpose"). -/
def Event.slot : Event → Slot
  | .beat _ => .beat
  | .debounce => .debounce
  | .trigOff => .trigOff
  | .tempo => .tempo

/-- `alarm[0]` when it is armed: the phase it will run and its deadline in microseconds (R36, R140). -/
structure BeatAlarm where
  phase : Phase
  deadline : Nat
deriving DecidableEq, Repr

/-- `alarm[0..3]` (R36): each slot is `none` or armed with a deadline in microseconds. -/
structure Alarms where
  beat : Option BeatAlarm
  debounce : Option Nat
  trigOff : Option Nat
  tempo : Option Nat
deriving DecidableEq, Repr

/-- `edge_en` (R35): one enable bit for each edge notification. -/
structure EdgeEnables where
  tbR : Bool
  mbR : Bool
  mbF : Bool
  xtR : Bool
  xmR : Bool
deriving DecidableEq, Repr

/-- The levels of the seven input pins (R34): six of one bit, `QMODE_SEL` with its three positions. -/
structure PinLevels where
  trigBtn : Bool
  modeBtn : Bool
  extTrig : Bool
  extMode : Bool
  extClkEn : Bool
  potModeSw : Bool
  qmodeSel : QMode
deriving DecidableEq, Repr

/-- All pins low, the selector at position 0. -/
def PinLevels.low : PinLevels := ⟨false, false, false, false, false, false, .unquantized⟩

/-- One word of the step memory that does not read as 0: its index and its value. -/
abbrev MemCell := Nat × Sample

/-- The step memory `memory[0..15]` (R21, R61), as the list of its non-zero words in rising order of index;
`Memory.wf` in Ops.lean is the canonical form. -/
structure Memory where
  cells : List MemCell
deriving DecidableEq, Repr

/-- `fault`, two sticky bits (R40): `F_INDEX` (bit 0) and `F_DACRANGE` (bit 1). -/
structure FaultBits where
  index : Bool
  dacRange : Bool
deriving DecidableEq, Repr

/-- Output events of `outtrace` (R39): a DAC frame of three bytes, `DACX`, and the record flash.  The bytes of a
`DACX` are unspecified: they are drawn (R186, U3; assumption 3). -/
inductive OutEvent where
  | dac (b0 b1 b2 : Byte)
  | dacx (b0 b1 b2 : Byte)
  | flash
deriving DecidableEq, Repr

/-- The value of a pure-function word (R91: "its value is what the defining rule gives"). -/
inductive FnValue where
  | int (v : Int)
  | frame (b0 b1 b2 : Byte)
deriving DecidableEq, Repr

/-- Whose move is next (assumption 4): the spec's script is a list of `script` turns; `main` gives MAIN one
operation of the general relation (R277 (c)); `direct` performs one operation by itself. -/
inductive Turn where
  /-- ENV performs the next word of a script (R270). -/
  | script (w : Word)
  /-- MAIN performs the one operation that (`lpos`, `seq`) selects (R277 (c)). -/
  | main
  /-- One operation is performed in isolation, whatever would have selected it.  No rule of the spec gives
  such a turn, and no operation makes one. -/
  | direct (w : Word)
deriving DecidableEq, Repr

/-- The state: the configuration, the fields of R20 in its order, then the model's own fields. -/
structure State where
  /-- The configuration `Cfg` (R9), which no operation writes. -/
  cfg : Cfg
  /-- `memory[0..15]` (R21). -/
  memory : Memory
  /-- `memory_index` (R22). -/
  memoryIndex : BitVec 4
  /-- `recording` (R23). -/
  recording : Bool
  /-- `external_trigger` (R24). -/
  externalTrigger : Bool
  /-- `tempo_delay_ms` (R25). -/
  tempoDelayMs : BitVec 16
  /-- `quantize_mode` (R26). -/
  quantizeMode : QMode
  /-- `active_scale` (R27). -/
  activeScale : BitVec 4
  /-- `pot_mode` (R28). -/
  potMode : Bool
  /-- `pot_range` (R28). -/
  potRange : PotRange
  /-- `trigger_pending` (R29). -/
  triggerPending : Bool
  /-- `mode_toggle_pending` (R29). -/
  modeTogglePending : Bool
  /-- `scale_toggle_pending` (R29). -/
  scaleTogglePending : Bool
  /-- `range_toggle_pending` (R29). -/
  rangeTogglePending : Bool
  /-- `mode_button_press_time`, microseconds (R31). -/
  modeButtonPressTime : Nat
  /-- `seq` (R30). -/
  seq : Seq
  /-- `lpos` (R30). -/
  lpos : LPos
  /-- `s_sample` (R30). -/
  sSample : Sample
  /-- `s_out`, signed 32 bits in two's complement (R20, R30). -/
  sOut : BitVec 32
  /-- `now_us` (R33): "a model may use a natural number". -/
  nowUs : Nat
  /-- `pin_level[0..6]` (R34). -/
  pinLevel : PinLevels
  /-- `edge_en` (R35). -/
  edgeEn : EdgeEnables
  /-- `alarm[0..3]` (R36). -/
  alarm : Alarms
  /-- `adc_sel` (R38). -/
  adcSel : AdcChannel
  /-- `mux_a[2:0]` (R37). -/
  muxA : BitVec 3
  /-- `mux_inh[0]` (R37): 1 inhibits bank 0. -/
  muxInh0 : Bool
  /-- `mux_inh[1]` (R37): 1 inhibits bank 1. -/
  muxInh1 : Bool
  /-- `mux_set_time`, microseconds (R20). -/
  muxSetTime : Nat
  /-- `trig_out` (R37). -/
  trigOut : Bool
  /-- `status_led` (R37). -/
  statusLed : Bool
  /-- `fault` (R40). -/
  fault : FaultBits
  /-- `powered` (R41). -/
  powered : Bool
  /-- `pin_drive[0..6]` (R42), the environment's. -/
  pinDrive : PinLevels
  /-- `ain[0..16]` (R42), the environment's. -/
  ain : Vector Code 17
  /-- `optrace` (R39): the operations performed since `RESET`, oldest first. -/
  optrace : List (Nat × Word)
  /-- `outtrace` (R39): the output events since `RESET`, oldest first. -/
  outtrace : List (Nat × OutEvent)
  /-- The model's own: the turns still to be taken, the next one first (assumption 4). -/
  agenda : List Turn
  /-- The model's own: how many free values have been drawn (assumption 3). -/
  freeCount : Nat
  /-- The model's own: the value of the last pure-function word performed (assumption 5).  No operation
  reads it. -/
  lastValue : Option FnValue
deriving DecidableEq, Repr

/-- The reasons the machine stops.  The engine itself has no halting fault (R291: "This spec does not model a
halt"); its two faults are the sticky bits of `State.fault`. -/
inductive Fault where
  /-- Raised by the dispatch of due callbacks when the beat chain re-arms itself with delay 0 for ever, which
  needs `tempo_delay_ms = 0` (spec/92 D37: "A zero half-period would make `ADV` loop for ever at one
  instant").  No state that the invariant of Safety.lean holds of reaches it.  Safe. -/
  | beatChainStuck
deriving DecidableEq, Repr

/-- The reasons an operation is refused. -/
inductive Refusal where
  /-- Raised by `exec`'s arm for an instruction without a meaning; no arm is left that raises it.  Safe. -/
  | notModelled (mnemonic : String)
  /-- Raised by `step` in an ill-formed configuration: "an ill-formed one is refused before any step" (R10).
  Safe. -/
  | illFormedConfig
  /-- Raised by `step` on a turn whose word does not decode, or is not injectable in a script turn, with the
  decoder's reason (R90, R91).  Safe. -/
  | invalidWord (reason : Invalid)
  /-- Raised by every operation but `RESET`, `PIN`, `AIN` and the pure functions while `powered = 0`: "it has
  no state, no time and no behaviour" (R331; R278 refuses `ADV` and `LOOP` before `RESET`).  Safe. -/
  | unpowered
  /-- Raised by `LOOP` at another position than `seq = IDLE`, `lpos = 0`, where R275 does not let it be
  performed.  Safe. -/
  | loopNotAtBoundary
  /-- Raised by an operation term whose operands are reserved (R90 (c), (e)): a term no word decodes to.
  Safe. -/
  | illFormedOperand
  /-- Raised by the loading of a script that R278 refuses whole.  Safe. -/
  | illFormedScript
deriving DecidableEq, Repr

/-- The outcome of an operation. -/
abbrev Out := Host.Outcome State Fault Refusal

/-- The unpowered engine before the first `RESET` (R41, R331), all pins low and all analog inputs 0: the start
state of every program of spec/95_test_vectors.md section 3.  "It has no state": the engine's fields hold
values that no rule reads while `powered = 0`. -/
def State.powerOff : State where
  cfg := .tc0
  memory := ⟨[]⟩
  memoryIndex := 0
  recording := false
  externalTrigger := false
  tempoDelayMs := 0
  quantizeMode := .unquantized
  activeScale := 0
  potMode := false
  potRange := .oct1
  triggerPending := false
  modeTogglePending := false
  scaleTogglePending := false
  rangeTogglePending := false
  modeButtonPressTime := 0
  seq := .idle
  lpos := .pollsw
  sSample := 0
  sOut := 0
  nowUs := 0
  pinLevel := .low
  edgeEn := ⟨false, false, false, false, false⟩
  alarm := ⟨none, none, none, none⟩
  adcSel := .cv
  muxA := 0
  muxInh0 := false
  muxInh1 := true
  muxSetTime := 0
  trigOut := false
  statusLed := false
  fault := ⟨false, false⟩
  powered := false
  pinDrive := .low
  ain := Vector.replicate 17 0
  optrace := []
  outtrace := []
  agenda := []
  freeCount := 0
  lastValue := none

/-- The machine right after reset: R334's column for `EXT_CLK_EN = 0` (internal clock), all pins low and all
analog inputs 0, in the configuration TC0 (assumption 1).  `sSample` and `sOut`, which R44 leaves
unspecified, hold 0 here (assumption 2). -/
def State.reset : State where
  cfg := .tc0
  memory := ⟨[]⟩
  memoryIndex := 0
  recording := false
  externalTrigger := false
  tempoDelayMs := 1050
  quantizeMode := .unquantized
  activeScale := 0
  potMode := false
  potRange := .oct1
  triggerPending := true
  modeTogglePending := false
  scaleTogglePending := false
  rangeTogglePending := false
  modeButtonPressTime := 0
  seq := .idle
  lpos := .pollsw
  sSample := 0
  sOut := 0
  nowUs := 0
  pinLevel := .low
  edgeEn := ⟨true, true, true, false, true⟩
  alarm := ⟨some ⟨.anticipate, 1050000⟩, none, none, some 100000⟩
  adcSel := .cv
  muxA := 0
  muxInh0 := false
  muxInh1 := true
  muxSetTime := 0
  trigOut := false
  statusLed := true
  fault := ⟨false, false⟩
  powered := true
  pinDrive := .low
  ain := Vector.replicate 17 0
  optrace := [(0, 0x01000000#32), (0, 0x20000000#32)]
  outtrace := []
  agenda := []
  freeCount := 0
  lastValue := none

end Sys2Proof.Machine
end

