-- ==== Sys2Proof/Machine/Ops.lean ====
section
/-! DEFINITION. The named operations over the state: outcomes, traces, free values, faults, alarms and the
entry of a callback, pins, the step memory and the analog read (spec/00_scope.md R14, R15; spec/20_memory.md;
spec/60_exceptions.md). -/

namespace Sys2Proof.Machine

/-- One operation after another: the second runs on the state the first leaves, and a stop of the first is
the stop of both. -/
def andThen (o : Out) (f : State → Out) : Out :=
  match o with
  | .next s => f s
  | .fault r => .fault r
  | .refused r => .refused r

/-! ### Traces (R39) -/

/-- Appends an operation to `optrace` at the present time.  While `powered = 0` there is no trace: it holds
the operations performed since `RESET` (R39, R41). -/
def State.record (s : State) (i : Instr) : State :=
  if s.powered then { s with optrace := s.optrace ++ [(s.nowUs, encode i)] } else s

/-- `Emit(ev)` (R15): appends an output event at the present time. -/
def State.emit (s : State) (ev : OutEvent) : State :=
  { s with outtrace := s.outtrace ++ [(s.nowUs, ev)] }

/-- Performs an operation as an outermost one: it is recorded, then it has its effect (R86: "`optrace` records
only the outermost operation"). -/
def perform (i : Instr) (body : State → State) (s : State) : State := body (s.record i)

/-- An operation of INT or MAIN by itself: an unpowered engine performs none (R331). -/
def engineOp (i : Instr) (body : State → State) (s : State) : Out :=
  if s.powered then .next (perform i body s) else .refused .unpowered

/-- A pure-function word (R91): it "changes no state except appending itself to `optrace`", and its value is
held where ENV reads it (assumption 5).  An operand that R90 (e) reserves is refused. -/
def functionOp (i : Instr) (value : Option FnValue) (s : State) : Out :=
  match value with
  | some v => .next { s.record i with lastValue := some v }
  | none => .refused .illFormedOperand

/-! ### Free values (spec/93_implementation_defined.md, "any value") -/

/-- The next free value. -/
def State.freeValue (s : State) : BitVec 32 := Config.freeValue s.freeCount

/-- The state after one draw. -/
def State.drawn (s : State) : State := { s with freeCount := s.freeCount + 1 }

/-! ### Faults (R291, R292) -/

/-- `raise IndexRange(i)`: sets the sticky bit `F_INDEX`; the operation then continues as its rule says. -/
def State.raiseIndexRange (s : State) : State := { s with fault := { s.fault with index := true } }

/-- `raise DacRange(v)`: sets the sticky bit `F_DACRANGE`. -/
def State.raiseDacRange (s : State) : State := { s with fault := { s.fault with dacRange := true } }

/-! ### Time and alarms (R300 to R303) -/

/-- The deadline a slot is armed with. -/
def Alarms.deadline (a : Alarms) : Slot → Option Nat
  | .beat => a.beat.map BeatAlarm.deadline
  | .debounce => a.debounce
  | .trigOff => a.trigOff
  | .tempo => a.tempo

/-- The alarms after an event is armed at a deadline; what its slot held is overwritten (R300). -/
def Alarms.arm (a : Alarms) (ev : Event) (deadline : Nat) : Alarms :=
  match ev with
  | .beat p => { a with beat := some ⟨p, deadline⟩ }
  | .debounce => { a with debounce := some deadline }
  | .trigOff => { a with trigOff := some deadline }
  | .tempo => { a with tempo := some deadline }

/-- The alarms after a slot is disarmed; no effect if it is not armed (R301). -/
def Alarms.disarm (a : Alarms) : Slot → Alarms
  | .beat => { a with beat := none }
  | .debounce => { a with debounce := none }
  | .trigOff => { a with trigOff := none }
  | .tempo => { a with tempo := none }

/-- `Schedule(slot, ms, ev)`: `alarm[slot] <- (ev, Now() + 1000 × ms)` (R300). -/
def State.schedule (s : State) (ev : Event) (ms : Nat) : State :=
  { s with alarm := s.alarm.arm ev (s.nowUs + 1000 * ms) }

/-- `Cancel(slot)`: `alarm[slot] <- none` (R301). -/
def State.cancel (s : State) (slot : Slot) : State := { s with alarm := s.alarm.disarm slot }

/-- An armed callback: its event and its deadline. -/
abbrev Armed := Event × Nat

/-- The callback that goes first: the smaller deadline, and the lower slot (the first argument) among equal
ones (R276, R297). -/
def Armed.first : Option Armed → Option Armed → Option Armed
  | none, b => b
  | some a, none => some a
  | some a, some b => if b.2 < a.2 then some b else some a

/-- The armed alarm with the smallest deadline, ties by smallest slot number (R276, R297). -/
def Alarms.next (a : Alarms) : Option Armed :=
  Armed.first (a.beat.map fun b => (.beat b.phase, b.deadline))
    (Armed.first (a.debounce.map fun d => (.debounce, d))
      (Armed.first (a.trigOff.map fun d => (.trigOff, d)) (a.tempo.map fun d => (.tempo, d))))

/-- The alarm to fire next among those with `deadline ≤ target` (R272, R276). -/
def State.due (s : State) (target : Nat) : Option Armed :=
  match s.alarm.next with
  | some c => if c.2 ≤ target then some c else none
  | none => none

/-- The entry of a callback (R298, R302, R303), the engine's one way of taking an interrupt: the clock stands
at the deadline (R272; it never runs backwards, R33), a one-shot slot is disarmed, and the periodic slot is
re-armed at its old deadline plus its period.  Nothing is saved, and there is no return operation (R294). -/
def State.enterCallback (s : State) (c : Armed) : State :=
  match c.1 with
  | .tempo =>
    { s with nowUs := max s.nowUs c.2, alarm := s.alarm.arm .tempo (c.2 + 1000 * s.cfg.tempoReadMs) }
  | ev => { s with nowUs := max s.nowUs c.2, alarm := s.alarm.disarm ev.slot }

/-! ### Pins (R34) -/

/-- The level of a pin as a number (R84). -/
def PinLevels.level (l : PinLevels) : Pin → BitVec 2
  | .trigBtn => if l.trigBtn then 1 else 0
  | .modeBtn => if l.modeBtn then 1 else 0
  | .extTrig => if l.extTrig then 1 else 0
  | .extMode => if l.extMode then 1 else 0
  | .extClkEn => if l.extClkEn then 1 else 0
  | .potModeSw => if l.potModeSw then 1 else 0
  | .qmodeSel => l.qmodeSel.number

/-- `PinRead(id)` (R15, R34). -/
def State.pinRead (s : State) (p : Pin) : BitVec 2 := s.pinLevel.level p

/-! ### The step memory (R60 to R62) -/

/-- The canonical form: indices strictly rising and below 16, and no cell that holds 0, which is what an
unlisted index reads as (R44, R61). -/
def cellsWf : List MemCell → Bool
  | [] => true
  | (a, v) :: rest => decide (a < 16) && v != 0 && rest.all (fun c => decide (a < c.1)) && cellsWf rest

/-- The step memory is in canonical form. -/
def Memory.wf (m : Memory) : Bool := cellsWf m.cells

/-- The word at an index of a cell list; an unlisted index reads as 0, the reset contents (R44). -/
def readCells : List MemCell → Nat → Sample
  | [], _ => 0
  | (b, v) :: rest, a => if a = b then v else readCells rest a

/-- A cell in front of a list, unless it holds what an unlisted index reads as. -/
def consCell (a : Nat) (v : Sample) (rest : List MemCell) : List MemCell :=
  if v = 0 then rest else (a, v) :: rest

/-- A cell list after a word is stored, kept in canonical form. -/
def writeCells : List MemCell → Nat → Sample → List MemCell
  | [], a, v => consCell a v []
  | (b, w) :: rest, a, v =>
    if a < b then consCell a v ((b, w) :: rest)
    else if a = b then consCell a v rest
    else (b, w) :: writeCells rest a v

/-- `memory[i]`. -/
def Memory.read (m : Memory) (i : Nat) : Sample := readCells m.cells i

/-- `memory[i] <- v`. -/
def Memory.write (m : Memory) (i : Nat) (v : Sample) : Memory := ⟨writeCells m.cells i v⟩

/-- `MemRead(i)` (R61, R62): outside the memory nothing is accessed, `IndexRange` is raised and the value is
unspecified, a free value (R292, U21). -/
def memRead (s : State) (i : Nat) : Sample × State :=
  if i < s.cfg.memLen then (s.memory.read i, s)
  else (s.freeValue.setWidth 16, s.raiseIndexRange.drawn)

/-- `MemWrite(i, v)` (R61, R62): outside the memory nothing is written and `IndexRange` is raised. -/
def memWrite (s : State) (i : Nat) (v : Sample) : State :=
  if i < s.cfg.memLen then { s with memory := s.memory.write i v } else s.raiseIndexRange

/-! ### The analog read (R63, R66) -/

/-- The analog source the multiplexer lines select: `ch = 8 × b + mux_a`, `b = 0` if `mux_inh[0] = 0` and
1 otherwise (R66, R172). -/
def State.selectedSource (s : State) : Nat := 8 * (if s.muxInh0 then 1 else 0) + s.muxA.toNat

/-- The code ENV presents on a source. -/
def State.analogIn (s : State) (c : Nat) : Code := s.ain.toList.getD c 0

/-- The settle time has passed since the lines were last set (R66, R171). -/
def State.settled (s : State) : Bool := decide (s.muxSetTime + s.cfg.muxSettleUs ≤ s.nowUs)

/-- `AdcRead(ch)` (R66): selects the channel and converts, atomically.  A `CV` read before the settle time has
passed returns any value in `0 .. CODE_MAX`, a free value (U7). -/
def adcRead (s : State) (ch : AdcChannel) : Code × State :=
  let sel := { s with adcSel := ch }
  match ch with
  | .tempo => (s.analogIn 16, sel)
  | .cv => if s.settled then (s.analogIn s.selectedSource, sel) else (s.freeValue.setWidth 12, sel.drawn)

end Sys2Proof.Machine
end

