-- ==== Sys2Proof/Machine/Operands.lean ====
section
/-! DEFINITION. The operand forms of the operations (spec/30_encoding.md R82, R84, R85, R89): what the machine
makes of each operand field. -/

namespace Sys2Proof.Machine

/-- `zext` of a code operand (R89). -/
def codeOperand (c : Code) : Nat := c.toNat

/-- `val` of format `D`: `sext_32(W[15:0])`, the only signed operand (R82, R89). -/
def signedOperand (v : BitVec 16) : Int := (v.signExtend 32).toInt

/-- `scale` of formats `SC` and `MSC`: legal below `N_SCALES` (R90 (e)). -/
def scaleOperand? (c : Cfg) (scale : BitVec 4) : Option Nat :=
  if legalScale c.nScales scale then some scale.toNat else none

/-- The octave span of a `pot_range` value, `RANGE_OCT[r]` (R9, R83). -/
def rangeOctaves (c : Cfg) (r : PotRange) : Nat := c.rangeOct.getD r.number.toNat 0

/-- The address lines of an index: `idx[2:0]` (R88, R170). -/
def muxAddress (idx : BitVec 4) : BitVec 3 := idx.extractLsb' 0 3

/-- The bank bit of an index: `idx[3]` (R88, R170). -/
def muxBank (idx : BitVec 4) : Bool := idx.getLsbD 3

/-- A legal level of one pin: what a `PIN` stimulus drives. -/
inductive PinSetting where
  | trigBtn (high : Bool)
  | modeBtn (high : Bool)
  | extTrig (high : Bool)
  | extMode (high : Bool)
  | extClkEn (high : Bool)
  | potModeSw (high : Bool)
  | qmodeSel (mode : QMode)
deriving DecidableEq, Repr

/-- `level` of a one-bit pin: 0 or 1 (R84). -/
def bitLevel? (level : BitVec 2) : Option Bool :=
  match level.toNat with
  | 0 => some false
  | 1 => some true
  | _ => none

/-- `pin` and `level` of format `P`: a level the pin cannot have is reserved (R84, R90 (c)). -/
def pinSetting? (p : Pin) (level : BitVec 2) : Option PinSetting :=
  match p with
  | .trigBtn => (bitLevel? level).map .trigBtn
  | .modeBtn => (bitLevel? level).map .modeBtn
  | .extTrig => (bitLevel? level).map .extTrig
  | .extMode => (bitLevel? level).map .extMode
  | .extClkEn => (bitLevel? level).map .extClkEn
  | .potModeSw => (bitLevel? level).map .potModeSw
  | .qmodeSel => (QMode.ofNumber? level).map .qmodeSel

/-- The pin levels after one pin takes a level. -/
def PinLevels.put (l : PinLevels) : PinSetting → PinLevels
  | .trigBtn b => { l with trigBtn := b }
  | .modeBtn b => { l with modeBtn := b }
  | .extTrig b => { l with extTrig := b }
  | .extMode b => { l with extMode := b }
  | .extClkEn b => { l with extClkEn := b }
  | .potModeSw b => { l with potModeSw := b }
  | .qmodeSel m => { l with qmodeSel := m }

end Sys2Proof.Machine
end

