-- ==== Sys2Proof/Machine/Flags.lean ====
section
/-! DEFINITION. The pending flags and the edge enables: every flag write of the spec (spec/10_state.md R29,
R35; spec/20_memory.md R73: "the set is a plain write of 1; the clear is a plain write of 0"). -/

namespace Sys2Proof.Machine

def State.setTriggerPending (s : State) : State := { s with triggerPending := true }
def State.clearTriggerPending (s : State) : State := { s with triggerPending := false }
def State.setModeTogglePending (s : State) : State := { s with modeTogglePending := true }
def State.clearModeTogglePending (s : State) : State := { s with modeTogglePending := false }
def State.setScaleTogglePending (s : State) : State := { s with scaleTogglePending := true }
def State.clearScaleTogglePending (s : State) : State := { s with scaleTogglePending := false }
def State.setRangeTogglePending (s : State) : State := { s with rangeTogglePending := true }
def State.clearRangeTogglePending (s : State) : State := { s with rangeTogglePending := false }

/-- `edge_en.TB_R <- b` (R112, R113). -/
def State.enableTbR (s : State) (b : Bool) : State := { s with edgeEn := { s.edgeEn with tbR := b } }

/-- `edge_en.XT_R <- b` (R252, R253). -/
def State.enableXtR (s : State) (b : Bool) : State := { s with edgeEn := { s.edgeEn with xtR := b } }

/-- How the mode button's hold is classified (R115). -/
inductive Hold where
  | bounce | short | long
deriving DecidableEq, Repr

/-- R115: `d > 1000 × LONG_PRESS_MS` is long, `d ≥ 1000 × BOUNCE_MS` short, a smaller `d` bounce; compared in
microseconds. -/
def classifyHold (c : Cfg) (d : Nat) : Hold :=
  if 1000 * c.longPressMs < d then .long else if 1000 * c.bounceMs ≤ d then .short else .bounce

/-- The flag a hold sets: a long press `scale_toggle_pending`, a short press `mode_toggle_pending`, a bounce
none (R115). -/
def State.setHoldFlag (s : State) : Hold → State
  | .long => s.setScaleTogglePending
  | .short => s.setModeTogglePending
  | .bounce => s

end Sys2Proof.Machine
end

