-- ==== Sys2Proof/Machine/TempoClock.lean ====
section
/-! DEFINITION. The tempo clock scheduler, class 2 (spec/41_tempo_clock.md): `CLK.TRIG`, `CLK.ANT`,
`CLK.RESET`, `CLK.CANCEL`, `TEMPO.READ`, `TEMPO.MAP`. -/

namespace Sys2Proof.Machine

/-- R141, the Trigger phase. -/
def clkTrig (s : State) : State :=
  let t := { s.setTriggerPending with statusLed := true }
  if t.externalTrigger then t else t.schedule (.beat .anticipate) t.tempoDelayMs.toNat

/-- R142, the Anticipate phase. -/
def clkAnt (s : State) : State :=
  { s with statusLed := false }.schedule (.beat .trigger) s.tempoDelayMs.toNat

/-- R144: cancels the beat alarm. -/
def clkCancel (s : State) : State := s.cancel .beat

/-- R143: cancels the beat alarm, then schedules the Trigger phase with zero delay. -/
def clkReset (s : State) : State := (clkCancel s).schedule (.beat .trigger) 0

/-- R145: `TEMPO.MAP`, a raw code to a half-period in milliseconds. -/
def tempoMap (c : Cfg) (code : Nat) : Nat :=
  (c.slowMs - (code * (c.slowMs - c.fastMs)) / c.adcMax) / 2

/-- R146: `tempo_delay_ms` after a read that maps to `new`: it changes only by more than the hysteresis
band. -/
def hysteresis (c : Cfg) (old : BitVec 16) (new : Nat) : BitVec 16 :=
  if c.tempoHystMs < distance new old.toNat then BitVec.ofNat 16 new else old

/-- R146, the periodic read of the tempo potentiometer. -/
def tempoRead (s : State) : State :=
  let (code, t) := adcRead s .tempo
  { t with tempoDelayMs := hysteresis t.cfg t.tempoDelayMs (tempoMap t.cfg code.toNat) }

def execClkTrig (s : State) : Out := engineOp .clkTrig clkTrig s
def execClkAnt (s : State) : Out := engineOp .clkAnt clkAnt s
def execClkReset (s : State) : Out := engineOp .clkReset clkReset s
def execClkCancel (s : State) : Out := engineOp .clkCancel clkCancel s
def execTempoRead (s : State) : Out := engineOp .tempoRead tempoRead s

/-- R145 as a word: the function on its operand. -/
def execTempoMap (code : Code) (s : State) : Out :=
  functionOp (.tempoMap code) (some (.int (tempoMap s.cfg (codeOperand code)))) s

end Sys2Proof.Machine
end

