-- ==== Sys2Proof/Machine/MainLoop.lean ====
section
/-! DEFINITION. The main loop, class 7 (spec/46_main_loop.md): `L.POLLSW`, `L.MODE`, `L.SCALE`, `L.RANGE`,
`L.STEP`, `EXTCLK.ENTER`, `EXTCLK.LEAVE`. -/

namespace Sys2Proof.Machine

/-- R252: enter external-trigger mode; the three writes are one. -/
def extclkEnter (s : State) : State := { (clkCancel s).enableXtR true with externalTrigger := true }

/-- R253: leave external-trigger mode and reset the clock. -/
def extclkLeave (s : State) : State := clkReset { s.enableXtR false with externalTrigger := false }

/-- R251: the clock-source transition that the switch asks for, if any. -/
def pollClockSource (s : State) : State :=
  if s.pinLevel.extClkEn then
    if s.externalTrigger then s else extclkEnter s
  else
    if s.externalTrigger then extclkLeave s else s

/-- R251: the three switches are polled. -/
def lPollsw (s : State) : State :=
  let t := pollClockSource s
  { t with potMode := t.pinLevel.potModeSw, quantizeMode := t.pinLevel.qmodeSel, lpos := .mode }

/-- R254: `recording` toggles if `mode_toggle_pending`. -/
def lMode (s : State) : State :=
  let t := if s.modeTogglePending then { s.clearModeTogglePending with recording := !s.recording } else s
  { t with lpos := .scale }

/-- R255: the next scale in the cycle. -/
def nextScale (c : Cfg) (scale : BitVec 4) : BitVec 4 := BitVec.ofNat 4 ((scale.toNat + 1) % c.nScales)

/-- R255: the scale advances if `scale_toggle_pending`. -/
def lScale (s : State) : State :=
  let t :=
    if s.scaleTogglePending then
      { s.clearScaleTogglePending with activeScale := nextScale s.cfg s.activeScale }
    else s
  { t with lpos := .range }

/-- R256: `(pot_range + 1) mod 3`. -/
def nextRange : PotRange → PotRange
  | .oct1 => .oct2
  | .oct2 => .oct5
  | .oct5 => .oct1

/-- R256: the range advances if `range_toggle_pending`. -/
def lRange (s : State) : State :=
  let t := if s.rangeTogglePending then { s.clearRangeTogglePending with potRange := nextRange s.potRange } else s
  { t with lpos := .step }

/-- R257: a pending trigger starts the pipeline; the flag stays set. -/
def lStep (s : State) : State :=
  { s with seq := if s.triggerPending then .s1 else s.seq, lpos := .pollsw }

def execLPollsw (s : State) : Out := engineOp .lPollsw lPollsw s
def execLMode (s : State) : Out := engineOp .lMode lMode s
def execLScale (s : State) : Out := engineOp .lScale lScale s
def execLRange (s : State) : Out := engineOp .lRange lRange s
def execLStep (s : State) : Out := engineOp .lStep lStep s
def execExtclkEnter (s : State) : Out := engineOp .extclkEnter extclkEnter s
def execExtclkLeave (s : State) : Out := engineOp .extclkLeave extclkLeave s

end Sys2Proof.Machine
end

