-- ==== Sys2Proof/Machine/InputDecoder.lean ====
section
/-! DEFINITION. The input debounce and edge decoder, class 1 (spec/40_input_decoder.md): `TB.RISE`,
`TB.RECHECK`, `MB.RISE`, `MB.FALL`, `XT.RISE`, `XM.RISE`. -/

namespace Sys2Proof.Machine

/-- R112: the trigger button rose; its edge is masked and the re-check armed. -/
def tbRise (s : State) : State := (s.enableTbR false).schedule .debounce s.cfg.debounceMs

/-- R113: the re-check reads the level once; a high level is one event, for the flag that `pot_mode` selects. -/
def tbRecheck (s : State) : State :=
  let t :=
    if s.pinRead .trigBtn = 1 then
      if s.potMode then s.setRangeTogglePending else s.setTriggerPending
    else s
  t.enableTbR true

/-- R114: the mode button rose; the time is recorded. -/
def mbRise (s : State) : State := { s with modeButtonPressTime := s.nowUs }

/-- R115: the mode button fell; the hold is classified. -/
def mbFall (s : State) : State := s.setHoldFlag (classifyHold s.cfg (s.nowUs - s.modeButtonPressTime))

/-- R116: an external trigger pulse runs the Trigger phase (nested, so not recorded by itself). -/
def xtRise (s : State) : State := clkTrig s

/-- R117: an external mode pulse requests a mode toggle. -/
def xmRise (s : State) : State := s.setModeTogglePending

def execTbRise (s : State) : Out := engineOp .tbRise tbRise s
def execTbRecheck (s : State) : Out := engineOp .tbRecheck tbRecheck s
def execMbRise (s : State) : Out := engineOp .mbRise mbRise s
def execMbFall (s : State) : Out := engineOp .mbFall mbFall s
def execXtRise (s : State) : Out := engineOp .xtRise xtRise s
def execXmRise (s : State) : Out := engineOp .xmRise xmRise s

end Sys2Proof.Machine
end

