-- ==== Sys2Proof/Machine/Mux.lean ====
section
/-! DEFINITION. The multiplexer address controller, class 3 (spec/42_mux_controller.md): `MUX.SET`.  The settle
wait `MUX.SETTLE`, which lets time pass, is in Settle.lean. -/

namespace Sys2Proof.Machine

/-- R170, R88: all five lines change together and the settle time restarts.  An index above 15, which no
4-bit operand holds, raises `IndexRange` and sets no line (R292). -/
def muxSetIndex (i : Nat) (s : State) : State :=
  if 15 < i then s.raiseIndexRange
  else
    { s with
      muxA := muxAddress (BitVec.ofNat 4 i)
      muxInh0 := muxBank (BitVec.ofNat 4 i)
      muxInh1 := !muxBank (BitVec.ofNat 4 i)
      muxSetTime := s.nowUs }

/-- R170: `MUX.SET idx`. -/
def muxSet (idx : BitVec 4) (s : State) : State := muxSetIndex idx.toNat s

def execMuxSet (idx : BitVec 4) (s : State) : Out := engineOp (.muxSet idx) (muxSet idx) s

end Sys2Proof.Machine
end

