-- ==== Sys2Proof/Machine/Quantizer.lean ====
section
/-! DEFINITION. The quantizer, class 5 (spec/44_quantizer.md): `Q.D2S`, `Q.S2D`, `Q.CHROM`, `Q.SNAP`,
`Q.APPLY`.  Pure functions of the configuration and the operands. -/

namespace Sys2Proof.Machine

/-- R211: `Q.D2S(dev) = rdiv(dev × 12, SPO)`. -/
def qD2S (c : Cfg) (dev : Int) : Int := rdiv (dev * 12) c.spo

/-- R212: `Q.S2D(semis) = rdiv(semis × SPO, 12)`. -/
def qS2D (c : Cfg) (semis : Int) : Int := rdiv (semis * c.spo) 12

/-- The deviation of a code (R210). -/
def deviation (c : Cfg) (x : Nat) : Int := (x : Int) - c.mid

/-- R213: chromatic quantize; the result is not clamped (R217). -/
def qChrom (c : Cfg) (x : Nat) : Int := c.mid + qS2D c (qD2S c (deviation c x))

/-- The note of a semitone count within its octave, `0 .. 11` (R18, R214). -/
def noteOf (semis : Int) : Nat := (fmod semis 12).toNat

/-- R214: the semitone count a table snaps a count to; the top chromatic step that snaps to 0 is the root of the
next octave. -/
def snapSemis (t : ScaleTable) (semis : Int) : Int :=
  let oct := fdiv semis 12
  let sn := t.entry (noteOf semis)
  if noteOf semis = 11 ∧ sn = 0 then 12 * (oct + 1) + sn else 12 * oct + sn

/-- R214: scale-snap quantize with one table. -/
def qSnap (c : Cfg) (t : ScaleTable) (x : Nat) : Int :=
  c.mid + qS2D c (snapSemis t (qD2S c (deviation c x)))

/-- R215: quantize by mode; `none` where a snap names no table of `SCALE_TABLE` (reserved, R83). -/
def quantize (c : Cfg) (mode : QMode) (scale : Nat) (x : Nat) : Option Int :=
  match mode with
  | .unquantized => some x
  | .chromatic => some (qChrom c x)
  | .scaleSnapped => (c.scaleTable[scale]?).map fun t => qSnap c t x

def execQD2S (val : BitVec 16) (s : State) : Out :=
  functionOp (.qD2S val) (some (.int (qD2S s.cfg (signedOperand val)))) s

def execQS2D (val : BitVec 16) (s : State) : Out :=
  functionOp (.qS2D val) (some (.int (qS2D s.cfg (signedOperand val)))) s

def execQChrom (code : Code) (s : State) : Out :=
  functionOp (.qChrom code) (some (.int (qChrom s.cfg (codeOperand code)))) s

/-- R214 as a word; a scale that is reserved in this configuration is refused (R90 (e)). -/
def execQSnap (scale : BitVec 4) (code : Code) (s : State) : Out :=
  functionOp (.qSnap scale code)
    ((scaleOperand? s.cfg scale).bind fun sc =>
      (quantize s.cfg .scaleSnapped sc (codeOperand code)).map .int) s

/-- R215 as a word; a scale that is reserved in this configuration is refused in every mode (R90 (e)). -/
def execQApply (mode : QMode) (scale : BitVec 4) (code : Code) (s : State) : Out :=
  functionOp (.qApply mode scale code)
    ((scaleOperand? s.cfg scale).bind fun sc => (quantize s.cfg mode sc (codeOperand code)).map .int) s

end Sys2Proof.Machine
end

