-- ==== Sys2Proof/Machine/Rescaler.lean ====
section
/-! DEFINITION. The pot-range rescaler, class 6 (spec/45_pot_rescaler.md): `R.SCALE`. -/

namespace Sys2Proof.Machine

/-- R240: the raw steps a range spans, `target = RANGE_OCT[r] × SPO`. -/
def targetSpan (c : Cfg) (r : PotRange) : Nat := rangeOctaves c r * c.spo

/-- R240: the deviation is scaled by `target / FULL_SPAN`, multiplying first; its magnitude is truncated and
its sign kept. -/
def rScale (c : Cfg) (r : PotRange) (x : Nat) : Int :=
  if c.mid ≤ x then (c.mid : Int) + (((x - c.mid) * targetSpan c r / c.fullSpan : Nat) : Int)
  else (c.mid : Int) - (((c.mid - x) * targetSpan c r / c.fullSpan : Nat) : Int)

def execRScale (range : PotRange) (code : Code) (s : State) : Out :=
  functionOp (.rScale range code) (some (.int (rScale s.cfg range (codeOperand code)))) s

end Sys2Proof.Machine
end

