-- ==== Sys2Proof/Machine/Pipeline.lean ====
section
/-! DEFINITION. The step execution pipeline, class 4 (spec/43_step_pipeline.md): `STEP.S1` to `STEP.S9`,
`TRIG.OFF`, `DAC.FRAME`. -/

namespace Sys2Proof.Machine

/-- R191, R87: the three bytes of a code, in sending order. -/
def dacFrame (c : Cfg) (code : Nat) : Byte × Byte × Byte :=
  (c.dacCmd, BitVec.ofNat 8 (code / 16), BitVec.ofNat 8 (code % 16 * 16))

/-- R192, `DacWrite(code)`: the frame is sent to `DAC_ADDR`; success is not observed (R293). -/
def State.dacWrite (s : State) (code : Nat) : State :=
  let f := dacFrame s.cfg code
  s.emit (.dac f.1 f.2.1 f.2.2)

/-- The frame of three unspecified bytes of R186: "a model must treat" its bytes "as a free draw" (assumption 3). -/
def State.dacWriteUnspecified (s : State) : State :=
  let w := s.freeValue
  (s.emit (.dacx (w.extractLsb' 16 8) (w.extractLsb' 8 8) (w.extractLsb' 0 8))).drawn

/-- The transfer on the two-wire bus that an output event stands for: the device address `DAC_ADDR` and the three
bytes in sending order (R60, R64, R186). -/
def OutEvent.busTransfer (c : Cfg) : OutEvent → Option (BitVec 7 × Byte × Byte × Byte)
  | .dac b0 b1 b2 | .dacx b0 b1 b2 => some (c.dacAddr, b0, b1, b2)
  | .flash => none

/-- R181: the multiplexer is addressed. -/
def stepS1 (s : State) : State := { muxSet s.memoryIndex s with seq := .s2 }

/-- R182: the analog input is sampled. -/
def stepS2 (s : State) : State :=
  let (code, t) := adcRead s .cv
  { t with sSample := code.setWidth 16, seq := .s3 }

/-- R183: in pot mode the sample is rescaled. -/
def stepS3 (s : State) : State :=
  { s with
    sSample := if s.potMode then BitVec.ofInt 16 (rScale s.cfg s.potRange s.sSample.toNat) else s.sSample
    seq := .s4 }

/-- R184: when recording, the sample is stored and the flash emitted. -/
def stepS4 (s : State) : State :=
  let t := if s.recording then (memWrite s s.memoryIndex.toNat s.sSample).emit .flash else s
  { t with seq := .s5 }

/-- The value `STEP.S5` latches for a word (R185), and the state after a draw where there is one: with a reserved
`active_scale`, which no run reaches (R90), the value is free (assumption 3). -/
def quantizeOut (s : State) (v : Sample) : BitVec 32 × State :=
  match quantize s.cfg s.quantizeMode s.activeScale.toNat v.toNat with
  | some q => (BitVec.ofInt 32 q, s)
  | none => (s.freeValue, s.drawn)

/-- R185: the step's word is read and quantized; memory is not modified. -/
def stepS5 (s : State) : State :=
  let (v, t) := memRead s s.memoryIndex.toNat
  let (q, u) := quantizeOut t v
  { u with sOut := q, seq := .s6 }

/-- R186: a code in range is written to the DAC; outside it the fault is recorded and a frame of unspecified
bytes sent. -/
def stepS6 (s : State) : State :=
  let t :=
    if 0 ≤ s.sOut.toInt ∧ s.sOut.toInt ≤ s.cfg.codeMax then s.dacWrite s.sOut.toInt.toNat
    else s.raiseDacRange.dacWriteUnspecified
  { t with seq := .s7 }

/-- R187: the trigger pulse is asserted, and its end armed anew. -/
def stepS7 (s : State) : State :=
  { ({ s with trigOut := true }.cancel .trigOff).schedule .trigOff s.cfg.trigPulseMs with seq := .s8 }

/-- R188: the index advances modulo 16. -/
def stepS8 (s : State) : State := { s with memoryIndex := s.memoryIndex + 1, seq := .s9 }

/-- R189: `trigger_pending` is cleared, whoever set it.  The run's `s_sample` and `s_out` stay at `IDLE`, where R30
leaves their values open ("a model may leave the last value or forget it"; assumption 22, DESIGN CHOICE). -/
def stepS9 (s : State) : State := { s.clearTriggerPending with seq := .idle }

/-- R190: the end of the trigger pulse. -/
def trigOff (s : State) : State := { s with trigOut := false }

def execStepS1 (s : State) : Out := engineOp .stepS1 stepS1 s
def execStepS2 (s : State) : Out := engineOp .stepS2 stepS2 s
def execStepS3 (s : State) : Out := engineOp .stepS3 stepS3 s
def execStepS4 (s : State) : Out := engineOp .stepS4 stepS4 s
def execStepS5 (s : State) : Out := engineOp .stepS5 stepS5 s
def execStepS6 (s : State) : Out := engineOp .stepS6 stepS6 s
def execStepS7 (s : State) : Out := engineOp .stepS7 stepS7 s
def execStepS8 (s : State) : Out := engineOp .stepS8 stepS8 s
def execStepS9 (s : State) : Out := engineOp .stepS9 stepS9 s
def execTrigOff (s : State) : Out := engineOp .trigOff trigOff s

/-- R191 as a word. -/
def execDacFrame (code : Code) (s : State) : Out :=
  let f := dacFrame s.cfg (codeOperand code)
  functionOp (.dacFrame code) (some (.frame f.1 f.2.1 f.2.2)) s

end Sys2Proof.Machine
end

