-- ==== Sys2Proof/Machine/Interrupts.lean ====
section
/-! DEFINITION. Firing callbacks, their dispatch, and the passage of time (spec/60_exceptions.md R302, R303;
spec/47_environment.md R272, R276). -/

namespace Sys2Proof.Machine

/-- The operation a callback runs (R36), as it is recorded. -/
def Event.handlerOp : Event → Instr
  | .beat .trigger => .clkTrig
  | .beat .anticipate => .clkAnt
  | .debounce => .tbRecheck
  | .trigOff => .trigOff
  | .tempo => .tempoRead

/-- What the callback does. -/
def Event.handler : Event → State → State
  | .beat .trigger => clkTrig
  | .beat .anticipate => clkAnt
  | .debounce => tbRecheck
  | .trigOff => Sys2Proof.Machine.trigOff
  | .tempo => tempoRead

/-- Firing an alarm (R302, R303): the entry, then the handler as one recorded operation. -/
def State.fire (s : State) (c : Armed) : State := perform c.1.handlerOp c.1.handler (s.enterCallback c)

/-- Fires the alarms that are due at `target`, one after another in the order of R276, at most `fuel` of them;
`none` if one is still due then. -/
def runDue (target : Nat) : Nat → State → Option State
  | 0, s => if (s.due target).isSome then none else some s
  | fuel + 1, s =>
    match s.due target with
    | none => some s
    | some c => runDue target fuel (s.fire c)

/-- How many callbacks can fall due up to a time while `tempo_delay_ms` is not 0: fewer than one a microsecond,
and one for each slot. -/
def firingBound (target : Nat) : Nat := target + 4

/-- R276: `Dispatch()`.  While `powered = 0` no alarm exists (R41), so there is nothing to dispatch. -/
def dispatch (s : State) : Out :=
  if s.powered then
    match runDue s.nowUs (firingBound s.nowUs) s with
    | some t => .next t
    | none => .fault .beatChainStuck
  else .next s

/-- R272: time passes up to `target`, and every callback due on the way fires at its deadline. -/
def advanceTo (target : Nat) (s : State) : Out :=
  match runDue target (firingBound target) s with
  | some t => .next { t with nowUs := target }
  | none => .fault .beatChainStuck

end Sys2Proof.Machine
end

