-- ==== Sys2Proof/Machine/Settle.lean ====
section
/-! DEFINITION. `MUX.SETTLE`, class 3 (spec/42_mux_controller.md R171): the settle wait. -/

namespace Sys2Proof.Machine

/-- The instant the hold of R171 is lifted: `mux_set_time + MUX_SETTLE_US`, or now if that has passed. -/
def settleEnd (s : State) : Nat := max s.nowUs (s.muxSetTime + s.cfg.muxSettleUs)

/-- R171, R275: time passes until the settle time is over, with the callbacks that fall due on the way, and the
operation is recorded at the time the wait ends.  It changes no state itself.  That a held `MUX.SETTLE` lets
exactly the rest of the settle time pass is the reference schedule's choice (assumption 10). -/
def settleWait (s : State) : Out := andThen (advanceTo (settleEnd s) s) fun t => .next (t.record .muxSettle)

def execMuxSettle (s : State) : Out := if s.powered then settleWait s else .refused .unpowered

end Sys2Proof.Machine
end

