-- ==== Sys2Proof/Machine/Environment.lean ====
section
/-! DEFINITION. The environment stimuli, class 0 (spec/47_environment.md, spec/70_reset_and_hazards.md): `RESET`,
`ADV`, `PIN`, `AIN`, `LOOP`. -/

namespace Sys2Proof.Machine

/-! ### RESET -/

/-- R332 step 1: every field takes its reset value (R44), and the pins are seen at the levels ENV drives.
`pin_drive`, `ain`, the configuration and the agenda stay; `s_sample` and `s_out`, which R44 leaves
unspecified, take free values (U20, assumption 3). -/
def resetValues (s : State) : State where
  cfg := s.cfg
  memory := ⟨[]⟩
  memoryIndex := 0
  recording := false
  externalTrigger := false
  tempoDelayMs := BitVec.ofNat 16 (s.cfg.slowMs / 2)
  quantizeMode := .unquantized
  activeScale := 0
  potMode := false
  potRange := .oct1
  triggerPending := false
  modeTogglePending := false
  scaleTogglePending := false
  rangeTogglePending := false
  modeButtonPressTime := 0
  seq := .idle
  lpos := .pollsw
  sSample := (s.freeValue.setWidth 12).setWidth 16
  sOut := s.drawn.freeValue
  nowUs := 0
  pinLevel := s.pinDrive
  edgeEn := ⟨false, false, false, false, false⟩
  alarm := ⟨none, none, none, none⟩
  adcSel := .cv
  muxA := 0
  muxInh0 := false
  muxInh1 := true
  muxSetTime := 0
  trigOut := false
  statusLed := false
  fault := ⟨false, false⟩
  powered := true
  pinDrive := s.pinDrive
  ain := s.ain
  optrace := []
  outtrace := []
  agenda := s.agenda
  freeCount := s.drawn.drawn.freeCount
  lastValue := none

/-- R332 step 2: the three switches are read at once. -/
def bootSwitches (s : State) : State :=
  { s with
    externalTrigger := s.pinLevel.extClkEn
    potMode := s.pinLevel.potModeSw
    quantizeMode := s.pinLevel.qmodeSel }

/-- R332 step 4: the edge notifications are enabled, the external trigger's only in external-clock mode. -/
def bootEdges (s : State) : State := { s with edgeEn := ⟨true, true, true, s.externalTrigger, true⟩ }

/-- R332 step 5: the first tempo read. -/
def bootTempo (s : State) : State := s.schedule .tempo s.cfg.tempoReadMs

/-- R332 step 6: the internal clock starts, unless the external one is selected. -/
def bootClock (s : State) : State := if s.externalTrigger then s else clkReset s

/-- R332 steps 2 to 6: the boot sequence. -/
def boot (s : State) : State := bootClock (bootTempo (bootEdges (muxSet 0 (bootSwitches s))))

/-- R271: the reset values, the boot sequence, the dispatch.  `RESET` is the first entry of the new
`optrace`. -/
def execReset (s : State) : Out := dispatch (boot ((resetValues s).record .reset))

/-! ### ADV -/

/-- R272: time passes by `t_us`.  It is performed while powered; in the general relation at any position of
MAIN (R277 (b)). -/
def execAdv (tUs : BitVec 24) (s : State) : Out :=
  if s.powered then advanceTo (s.nowUs + tUs.toNat) (s.record (.adv tUs)) else .refused .unpowered

/-! ### PIN -/

/-- R111, R273: the handler of the edge that a pin makes when its level goes from `old` to `new`, if there is
one and its enable bit is 1. -/
def edgeHandler (en : EdgeEnables) (p : Pin) (old new : BitVec 2) : Option (Instr × (State → State)) :=
  match p with
  | .trigBtn => if old = 0 ∧ new = 1 ∧ en.tbR then some (.tbRise, tbRise) else none
  | .modeBtn =>
    if old = 0 ∧ new = 1 ∧ en.mbR then some (.mbRise, mbRise)
    else if old = 1 ∧ new = 0 ∧ en.mbF then some (.mbFall, mbFall)
    else none
  | .extTrig => if old = 0 ∧ new = 1 ∧ en.xtR then some (.xtRise, xtRise) else none
  | .extMode => if old = 0 ∧ new = 1 ∧ en.xmR then some (.xmRise, xmRise) else none
  | .extClkEn | .potModeSw | .qmodeSel => none

/-- Runs the handler of an edge as a recorded operation; a masked edge is dropped (R119). -/
def runEdge (p : Pin) (old new : BitVec 2) (s : State) : State :=
  match edgeHandler s.edgeEn p old new with
  | some (i, body) => perform i body s
  | none => s

/-- R273: the pin is driven; a powered engine sees the new level and runs the handler of an enabled edge. -/
def drivePin (p : Pin) (level : BitVec 2) (v : PinSetting) (s : State) : State :=
  let t := { s.record (.pin p level) with pinDrive := s.pinDrive.put v }
  if s.powered then runEdge p (s.pinRead p) level { t with pinLevel := s.pinLevel.put v } else t

/-- R273; a level the pin cannot have is refused (R90 (c)). -/
def execPin (p : Pin) (level : BitVec 2) (s : State) : Out :=
  match pinSetting? p level with
  | some v => .next (drivePin p level v s)
  | none => .refused .illFormedOperand

/-! ### AIN -/

/-- R274: the code ENV presents on a source. -/
def execAin (chan : Fin 17) (code : Code) (s : State) : Out :=
  .next { s.record (.ain chan code) with ain := s.ain.set chan.val code }

/-! ### LOOP -/

/-- One MAIN operation of an iteration: performed, then `Dispatch()` (R259, R276). -/
def mainOp (i : Instr) (body : State → State) (s : State) : Out := dispatch (perform i body s)

/-- MAIN operations one after another. -/
def mainOps : List (Instr × (State → State)) → State → Out
  | [], s => .next s
  | (i, body) :: rest, s => andThen (mainOp i body s) (mainOps rest)

/-- The five poll operations of an iteration, in the order of R250. -/
def pollOps : List (Instr × (State → State)) :=
  [(.lPollsw, lPollsw), (.lMode, lMode), (.lScale, lScale), (.lRange, lRange), (.lStep, lStep)]

/-- The micro-steps after the settle wait, in the order of R180. -/
def sampleOps : List (Instr × (State → State)) :=
  [(.stepS2, stepS2), (.stepS3, stepS3), (.stepS4, stepS4), (.stepS5, stepS5), (.stepS6, stepS6),
   (.stepS7, stepS7), (.stepS8, stepS8), (.stepS9, stepS9)]

/-- R275: one run of the pipeline, with the settle wait of exactly `MUX_SETTLE_US`. -/
def runPipeline (s : State) : Out :=
  andThen (mainOp .stepS1 stepS1 s) fun t => andThen (settleWait t) (mainOps sampleOps)

/-- R275: one iteration of the main loop in the reference schedule. -/
def iteration (s : State) : Out :=
  andThen (mainOps pollOps s) fun t => if t.seq = .s1 then runPipeline t else .next t

/-- R275: `LOOP` is performed while powered, at `seq = IDLE` and `lpos = 0`. -/
def execLoop (s : State) : Out :=
  if s.powered then
    if s.seq = .idle ∧ s.lpos = .pollsw then iteration (s.record .loop) else .refused .loopNotAtBoundary
  else .refused .unpowered

end Sys2Proof.Machine
end

