-- ==== Sys2Proof/Machine/Dispatch.lean ====
section
/-! DEFINITION. One arm for each operation of spec/30_encoding.md R86: each calls its meaning. -/

namespace Sys2Proof.Machine

/-- The meaning of an operation, performed as an outermost one. -/
def exec (i : Instr) (s : State) : Host.Outcome State Fault Refusal :=
  match i with
  | .reset => Sys2Proof.Machine.execReset s
  | .adv tUs => Sys2Proof.Machine.execAdv tUs s
  | .pin p level => Sys2Proof.Machine.execPin p level s
  | .ain chan code => Sys2Proof.Machine.execAin chan code s
  | .loop => Sys2Proof.Machine.execLoop s
  | .tbRise => Sys2Proof.Machine.execTbRise s
  | .tbRecheck => Sys2Proof.Machine.execTbRecheck s
  | .mbRise => Sys2Proof.Machine.execMbRise s
  | .mbFall => Sys2Proof.Machine.execMbFall s
  | .xtRise => Sys2Proof.Machine.execXtRise s
  | .xmRise => Sys2Proof.Machine.execXmRise s
  | .clkTrig => Sys2Proof.Machine.execClkTrig s
  | .clkAnt => Sys2Proof.Machine.execClkAnt s
  | .clkReset => Sys2Proof.Machine.execClkReset s
  | .clkCancel => Sys2Proof.Machine.execClkCancel s
  | .tempoRead => Sys2Proof.Machine.execTempoRead s
  | .tempoMap code => Sys2Proof.Machine.execTempoMap code s
  | .muxSet idx => Sys2Proof.Machine.execMuxSet idx s
  | .muxSettle => Sys2Proof.Machine.execMuxSettle s
  | .stepS1 => Sys2Proof.Machine.execStepS1 s
  | .stepS2 => Sys2Proof.Machine.execStepS2 s
  | .stepS3 => Sys2Proof.Machine.execStepS3 s
  | .stepS4 => Sys2Proof.Machine.execStepS4 s
  | .stepS5 => Sys2Proof.Machine.execStepS5 s
  | .stepS6 => Sys2Proof.Machine.execStepS6 s
  | .stepS7 => Sys2Proof.Machine.execStepS7 s
  | .stepS8 => Sys2Proof.Machine.execStepS8 s
  | .stepS9 => Sys2Proof.Machine.execStepS9 s
  | .trigOff => Sys2Proof.Machine.execTrigOff s
  | .dacFrame code => Sys2Proof.Machine.execDacFrame code s
  | .qD2S val => Sys2Proof.Machine.execQD2S val s
  | .qS2D val => Sys2Proof.Machine.execQS2D val s
  | .qChrom code => Sys2Proof.Machine.execQChrom code s
  | .qSnap scale code => Sys2Proof.Machine.execQSnap scale code s
  | .qApply mode scale code => Sys2Proof.Machine.execQApply mode scale code s
  | .rScale range code => Sys2Proof.Machine.execRScale range code s
  | .lPollsw => Sys2Proof.Machine.execLPollsw s
  | .lMode => Sys2Proof.Machine.execLMode s
  | .lScale => Sys2Proof.Machine.execLScale s
  | .lRange => Sys2Proof.Machine.execLRange s
  | .lStep => Sys2Proof.Machine.execLStep s
  | .extclkEnter => Sys2Proof.Machine.execExtclkEnter s
  | .extclkLeave => Sys2Proof.Machine.execExtclkLeave s

end Sys2Proof.Machine
end

