-- ==== Sys2Proof/Machine/Schedule.lean ====
section
/-! DEFINITION. Whose move is next: MAIN's one operation (spec/47_environment.md R277 (c)), the turns of the
agenda, and how a script comes to be performed (R270, R278; spec/30_encoding.md R91). -/

namespace Sys2Proof.Machine

/-- The operation that (`lpos`, `seq`) selects (R30, R250, R277 (c)).  At `seq = S2` it is `STEP.S2`, which follows
`MUX.SETTLE`. -/
def mainSelected (s : State) : Instr :=
  match s.seq with
  | .idle =>
    match s.lpos with
    | .pollsw => .lPollsw
    | .mode => .lMode
    | .scale => .lScale
    | .range => .lRange
    | .step => .lStep
  | .s1 => .stepS1
  | .s2 => .stepS2
  | .s3 => .stepS3
  | .s4 => .stepS4
  | .s5 => .stepS5
  | .s6 => .stepS6
  | .s7 => .stepS7
  | .s8 => .stepS8
  | .s9 => .stepS9

/-- R277 (c): MAIN is always enabled, except at `seq = S2` before the settle time has passed. -/
def mainEnabled (s : State) : Bool := s.seq != .s2 || s.settled

/-- R277 (c): one operation of MAIN; at `seq = S2` "it is then `MUX.SETTLE` followed by `STEP.S2`". -/
def mainMove (s : State) : Out :=
  andThen (if s.seq = .s2 then exec .muxSettle s else .next s) (exec (mainSelected s))

/-- R277 (c), (d): MAIN's move and the dispatch after it.  A MAIN that R171 still holds makes no move. -/
def mainStep (s : State) : Out :=
  if mainEnabled s then andThen (mainMove s) dispatch else .next s

/-- An operation of the agenda, followed by the dispatch of R276. -/
def performTurn (r : Except Invalid Instr) (s : State) : Out :=
  match r with
  | .ok i => andThen (exec i s) dispatch
  | .error e => .refused (.invalidWord e)

/-- One turn.  A script's word is one that a script may hold (R91). -/
def takeTurn (t : Turn) (s : State) : Out :=
  match t with
  | .script w => performTurn (decodeScript s.cfg.nScales w) s
  | .main => if s.powered then mainStep s else .refused .unpowered
  | .direct w => performTurn (decode s.cfg.nScales w) s

/-- The next turn, in a well-formed configuration (R10: "The model is defined only for well-formed
configurations; an ill-formed one is refused before any step"). -/
def checkedTurn (t : Turn) (s : State) : Out := if s.cfg.wf then takeTurn t s else .refused .illFormedConfig

/-- A stimulus that needs power: no `ADV` and no `LOOP` before the first `RESET` (R278). -/
def needsPower : Instr → Bool
  | .adv _ | .loop => true
  | _ => false

/-- R278: a script is well-formed when every word decodes as an injectable operation and, until it has performed
a `RESET`, an unpowered engine gets no `ADV` and no `LOOP`.  That a script for a powered engine needs no `RESET` of
its own is the model's reading of "the first `RESET`" (assumption 21, DESIGN CHOICE). -/
def scriptWf (nScales : Nat) : Bool → List Word → Bool
  | _, [] => true
  | powered, w :: rest =>
    match decodeScript nScales w with
    | .error _ => false
    | .ok i => (powered || !needsPower i) && scriptWf nScales (powered || i == .reset) rest

/-- A script is put before the engine: its words become the agenda's next turns.  "An ill-formed script is
refused whole, before any word runs" (R278).  Whether it is well-formed depends on `powered` (assumption 21). -/
def loadScript (ws : List Word) (s : State) : Out :=
  if s.cfg.wf then
    if scriptWf s.cfg.nScales s.powered ws then
      .next { s with agenda := s.agenda ++ ws.map .script }
    else .refused .illFormedScript
  else .refused .illFormedConfig

/-- The turn that performs a word next: a script's turn for a word a script may hold, a turn by itself for an
internal operation. -/
def turnOf (nScales : Nat) (w : Word) : Turn :=
  match decode nScales w with
  | .ok i => if i.injectable then .script w else .direct w
  | .error _ => .script w

/-- The word whose low `nbits` bits are those of `w`. -/
def tableWord (nbits w : Nat) : Word := BitVec.ofNat 32 (w % 2 ^ nbits)

end Sys2Proof.Machine
end

