-- ==== Sys2Proof/Machine/Step.lean ====
section
/-! DEFINITION. One step of the machine: the next turn of the agenda. -/

namespace Sys2Proof.Machine

/-- One step: the agent whose turn is next makes its move, and what falls due is dispatched.  With no turn
left nobody moves: time stands still (a time step of 0, R277 (b)) and the state stays (assumption 4). -/
def step (s : State) : Host.Outcome State Fault Refusal :=
  match s.agenda with
  | [] => .next s
  | t :: rest => checkedTurn t { s with agenda := rest }

/-- The state with an operation word put in front of the agenda, so that the next step performs it. -/
def State.withFetchWord (s : State) (nbits w : Nat) : State :=
  { s with agenda := turnOf s.cfg.nScales (tableWord nbits w) :: s.agenda }

end Sys2Proof.Machine
end

