-- ==== Sys2Proof/Safety.lean ====
section
/-! DEFINITION. The terms of the claims: no fault recorded (spec/60_exceptions.md R291), the invariants of the
reachable states (spec/10_state.md R32 and the rules named below), the reference schedule's boundary (R278) and
the general relation (spec/47_environment.md R277). -/

namespace Sys2Proof.Machine

/-- The state with one more operation word in its history, at the present time (R39). -/
abbrev State.noted (s : State) (w : Word) : State := { s with optrace := s.optrace ++ [(s.nowUs, w)] }

/-- "Every property of this spec takes `S.fault = 00` as a premise" (R291). -/
abbrev NoFault (s : State) : Prop := s.fault = ⟨false, false⟩

/-- No alarm is overdue: "when any operation begins no alarm is overdue" (R276). -/
abbrev NothingDue (s : State) : Prop := s.due s.nowUs = none

/-- The beat chain advances: a well-formed configuration and a half-period of at least 1 ms (spec/92 D37), so
that the dispatch of callbacks comes to an end. -/
abbrev ChainLive (s : State) : Prop := s.cfg.wf = true ∧ 1 ≤ s.tempoDelayMs.toNat

/-- The turns that the spec's relation has: no operation is performed in isolation. -/
def Turn.ofSpec : Turn → Bool
  | .script _ | .main => true
  | .direct _ => false

/-- The invariant of the powered engine, between two moves.  It says something of states with `powered = 1`
only: an unpowered engine has no state (R331). -/
structure EngineInv (s : State) : Prop where
  /-- The step memory is in canonical form. -/
  memoryWf : s.memory.wf = true
  /-- "Every value ever stored is in `0 .. 4095`" (R21). -/
  codes : s.memory.cells.all (fun c => decide (c.2.toNat ≤ s.cfg.codeMax)) = true
  /-- R32 (b): "`tempo_delay_ms` bounded by the configured fast/slow limits". -/
  tempo : s.cfg.fastMs / 2 ≤ s.tempoDelayMs.toNat ∧ s.tempoDelayMs.toNat ≤ s.cfg.slowMs / 2
  /-- R90: `active_scale ≥ N_SCALES` is unreachable. -/
  scale : s.activeScale.toNat < s.cfg.nScales
  /-- R32 (e): exactly one bank is inhibited. -/
  bank : s.muxInh1 = !s.muxInh0
  /-- R148: the beat alarm is armed exactly in internal-clock mode. -/
  chain : s.alarm.beat.isSome = !s.externalTrigger
  /-- R295: `XT_R` is `external_trigger`. -/
  externalEdge : s.edgeEn.xtR = s.externalTrigger
  /-- R35: `MB_R`, `MB_F` and `XM_R` are set at boot and never cleared. -/
  fixedEdges : s.edgeEn.mbR = true ∧ s.edgeEn.mbF = true ∧ s.edgeEn.xmR = true
  /-- R112, R113: the trigger button's edge is masked exactly while the re-check is armed. -/
  debounce : s.edgeEn.tbR = s.alarm.debounce.isNone
  /-- R187, R190: the trigger output is high exactly while its end is armed. -/
  pulse : s.trigOut = s.alarm.trigOff.isSome
  /-- R303: the periodic alarm is always armed, at a multiple of its period. -/
  periodic : s.alarm.tempo.any (fun d => d % (1000 * s.cfg.tempoReadMs) == 0) = true
  /-- R42: "While powered, `pin_level[p] = pin_drive[p]` at all times". -/
  pins : s.pinLevel = s.pinDrive
  /-- R33: the timestamps are of the past. -/
  past : s.modeButtonPressTime ≤ s.nowUs ∧ s.muxSetTime ≤ s.nowUs
  /-- R292: `F_INDEX` is unreachable. -/
  noIndexFault : s.fault.index = false
  /-- R20: `s_sample` is a code. -/
  sample : s.sSample.toNat ≤ s.cfg.codeMax
  /-- R193, R257: a run is in progress only with its trigger still pending and the loop at its start. -/
  running : s.seq ≠ .idle → s.triggerPending = true ∧ s.lpos = .pollsw
  /-- R170, R181, R188: from `STEP.S1` to `STEP.S8` the lines select the step's own channel. -/
  addressed : s.seq = .idle ∨ s.seq = .s1 ∨ s.seq = .s9 ∨ s.selectedSource = s.memoryIndex.toNat
  /-- R276: no alarm is overdue. -/
  nothingDue : NothingDue s

/-- The invariant of the machine: a well-formed configuration (R10), an agenda of the spec's own turns, and the
engine's invariant while it is powered. -/
structure Inv (s : State) : Prop where
  configWf : s.cfg.wf = true
  agenda : s.agenda.all Turn.ofSpec = true
  engine : s.powered = true → EngineInv s

/-- A word boundary of the reference schedule: "`seq = IDLE` and `lpos = 0` hold at every word boundary" of a
script (R278), whose turns are script turns. -/
abbrev AtBoundary (s : State) : Prop :=
  s.seq = .idle ∧ s.lpos = .pollsw ∧ s.agenda.all (fun t => match t with | .script _ => true | _ => false) = true

/-- The reference schedule's two script notes: `LOOP` and `ADV` are recorded, and what they let happen is moves
of MAIN and of time. -/
def isScheduleWord : Instr → Bool
  | .adv _ | .loop => true
  | _ => false

/-- The general relation (R277): one move of the transition system, with the dispatch of (d) after it. -/
inductive GenMove : State → State → Prop
  /-- (a) ENV drives a pin. -/
  | pin {s t u : State} (p : Pin) (level : BitVec 2) :
      exec (.pin p level) s = .next t → dispatch t = .next u → GenMove s u
  /-- (a) ENV presents an analog code. -/
  | ain {s t u : State} (chan : Fin 17) (code : Code) :
      exec (.ain chan code) s = .next t → dispatch t = .next u → GenMove s u
  /-- (b) Time passes by `d`, with no armed deadline strictly inside the interval. -/
  | time {s u : State} (d : Nat) :
      s.powered = true →
      (∀ slot dl, s.alarm.deadline slot = some dl → ¬ (s.nowUs < dl ∧ dl < s.nowUs + d)) →
      dispatch { s with nowUs := s.nowUs + d } = .next u → GenMove s u
  /-- (c) MAIN performs the operation that (`lpos`, `seq`) selects. -/
  | main {s u : State} : s.powered = true → mainEnabled s = true → mainStep s = .next u → GenMove s u
  /-- The history notes a word of the reference schedule: bookkeeping, no move of the hardware (R39). -/
  | note {s : State} (i : Instr) : isScheduleWord i = true → GenMove s (s.record i)

/-- The runs of the general relation. -/
abbrev GenRun : State → State → Prop := Relation.ReflTransGen GenMove

end Sys2Proof.Machine
end

