-- ==== Sys2Proof/Certificates/Slice0/Obligations.lean ====
section
/-! DEFINITION. The statements for the provers.  Each is a claim about the machine, read from a numbered rule of
spec/; none is proved in this package.  `s.noted w` is `s` with the operation word `w` appended to its trace, which
is the history of R39 (the spec's own decision D33).  A
statement about an internal operation by itself holds in every state, also where nothing selects the operation
(assumption 15), and its frame keeps the latches `s_sample` and `s_out` at `seq = IDLE` (assumption 22). -/

open Sys2Proof Sys2Proof.Machine

/-! ### The operation word -/

/-- R80, R82, R86: the word of every well-formed operation decodes to that operation, with every operand at every
value its field admits, whatever the number of scales.  The spec marks as its own decisions: R80 (D1), R82 (D1), R86
(D1, D33). -/
def Obligations.DecodeOfEncode : Prop :=
  ∀ (n : Nat) (i : Instr), wellFormed n i = true → decode n (encode i) = .ok i

/-- R90 (b) to (e): a word that decodes is exactly the word of a well-formed operation, so no operand bit the format
does not name is set and no reserved operand is let through.  The spec marks as its own decisions: R90 (D38). -/
def Obligations.DecodeOnlyEncodings : Prop :=
  ∀ (n : Nat) (w : Word) (i : Instr), decode n w = .ok i → encode i = w ∧ wellFormed n i = true

/-- R90 (a), (f), R91: exactly the words whose opcode is outside the map of R86 are refused for their opcode; a word
that decodes is accepted in a script exactly when its opcode is one of the five stimuli's or of the eight pure
functions', and is else refused as internal.  The spec marks as its own decisions: R90 (D38), R91 (D1), R86 (D1, D33).
-/
def Obligations.ScriptWords : Prop :=
  ∀ (n : Nat) (w : Word),
    (decode n w = .error .opcode ↔
      (w.extractLsb' 24 8).toNat ∉
        [0x01, 0x02, 0x03, 0x04, 0x05, 0x10, 0x11, 0x12, 0x13, 0x14, 0x15, 0x20, 0x21, 0x22, 0x23, 0x24, 0x25,
         0x30, 0x31, 0x41, 0x42, 0x43, 0x44, 0x45, 0x46, 0x47, 0x48, 0x49, 0x4A, 0x4B, 0x50, 0x51, 0x52, 0x53,
         0x54, 0x60, 0x70, 0x71, 0x72, 0x73, 0x74, 0x75, 0x76]) ∧
    ∀ i : Instr, decode n w = .ok i →
      decodeScript n w =
        if (w.extractLsb' 24 8).toNat ∈ [0x01, 0x02, 0x03, 0x04, 0x05, 0x25, 0x4B, 0x50, 0x51, 0x52, 0x53, 0x54, 0x60]
        then .ok i else .error .internal

/-- R92 and the encoding lines of R112 to R257: words written out from the spec, one or more of each class, and the
operations they stand for; and words that R90 refuses.  The spec marks as its own decisions: R92 (D34), R90 (D38). -/
def Obligations.WordsOfTheSpec : Prop :=
  decode 3 0x01000000#32 = .ok .reset ∧
  decode 3 0x02004E20#32 = .ok (.adv 20000) ∧
  decode 3 0x03060002#32 = .ok (.pin .qmodeSel 2) ∧
  decode 3 0x04100E66#32 = .ok (.ain 16 3686) ∧
  decode 3 0x13000000#32 = .ok .mbFall ∧
  decode 3 0x25000E66#32 = .ok (.tempoMap 3686) ∧
  decode 3 0x3000000B#32 = .ok (.muxSet 11) ∧
  decode 3 0x46000000#32 = .ok .stepS6 ∧
  decode 3 0x5000FF99#32 = .ok (.qD2S (BitVec.ofInt 16 (-103))) ∧
  decode 3 0x530018BC#32 = .ok (.qSnap 1 2236) ∧
  decode 3 0x54022833#32 = .ok (.qApply .scaleSnapped 2 2099) ∧
  decode 3 0x60001F57#32 = .ok (.rScale .oct2 3927) ∧
  decode 3 0x74000000#32 = .ok .lStep ∧
  decode 3 0x01000001#32 = .error .operandBits ∧
  decode 3 0x03070001#32 = .error .pin ∧
  decode 3 0x03060003#32 = .error .level ∧
  decode 3 0x04110000#32 = .error .chan ∧
  decode 3 0x53003000#32 = .error .scale ∧
  decode 3 0x54030000#32 = .error .mode ∧
  decode 3 0x60003000#32 = .error .range ∧
  decode 3 0x80000000#32 = .error .opcode

/-! ### Steps, turns and scripts -/

/-- R270, R276: a step performs the operation that the next turn's word decodes to, and what is due then is
dispatched; so does the step after a word is placed in front.  With no turn left the machine stands still: that, and
the turn that performs an internal operation by itself, are the model's (assumption 4).  The spec marks as its own
decisions: R276 (D4). -/
def Obligations.StepRunsDecoded : Prop :=
  ∀ (s : State) (w : Word) (rest : List Turn) (i : Instr), s.cfg.wf = true → decode s.cfg.nScales w = .ok i →
    (s.agenda = .script w :: rest → i.injectable = true →
      step s = andThen (exec i { s with agenda := rest }) dispatch) ∧
    (s.agenda = .direct w :: rest → step s = andThen (exec i { s with agenda := rest }) dispatch) ∧
    (∀ (u : State) (nbits v : Nat), u.cfg = s.cfg → w = BitVec.ofNat 32 (v % 2 ^ nbits) →
      step (u.withFetchWord nbits v) = andThen (exec i u) dispatch) ∧
    (s.agenda = [] → step s = .next s)

/-- R277 (c), (d), R30, R250: a turn of MAIN performs the one operation that `lpos` and `seq` select, whose opcode is
`0x70 + lpos` at `IDLE` and `0x40 + k` at `Sk`; at `S2` it is `MUX.SETTLE` followed by `STEP.S2`, and no move at all
before the settle time has passed.  That such a turn is used up and leaves the rest as it is, is the model's
(assumption 4).  The spec marks as its own decisions: R277 (D3, D5, D31), R30 (D5), R250 (D22). -/
def Obligations.MainTurn : Prop :=
  ∀ (s : State) (rest : List Turn), s.cfg.wf = true → s.powered = true → s.agenda = .main :: rest →
    (s.seq ≠ .s2 → ∃ i : Instr, i.opcode.toNat = (if s.seq = .idle then 0x70 + s.lpos.number else 0x40 + s.seq.number) ∧
      step s = andThen (exec i { s with agenda := rest }) dispatch) ∧
    (s.seq = .s2 → s.muxSetTime + s.cfg.muxSettleUs ≤ s.nowUs →
      step s = andThen (exec .muxSettle { s with agenda := rest }) fun t => andThen (exec .stepS2 t) dispatch) ∧
    (s.seq = .s2 → s.nowUs < s.muxSetTime + s.cfg.muxSettleUs → step s = .next { s with agenda := rest })

/-- R278: a script is accepted, word for word, exactly when every word decodes as an injectable operation and every
`ADV` and `LOOP` of a script for an unpowered engine has a `RESET` before it; any other script is refused whole.  That
a powered engine's script needs no `RESET` of its own before them is the model's reading of "the first `RESET`"
(assumptions 13 and 21), and that an accepted script's words are put at the end of the agenda is the model's too
(assumption 4).  The spec marks as its own decisions: R278 (D34, D38). -/
def Obligations.ScriptAcceptance : Prop :=
  ∀ (s : State) (ws : List Word), s.cfg.wf = true →
    ((∀ (k : Nat) (w : Word), ws[k]? = some w → ∃ i : Instr, decode s.cfg.nScales w = .ok i ∧ i.injectable = true ∧
        (i = .loop ∨ (∃ d, i = .adv d) → s.powered = true ∨ ∃ j < k, ws[j]? = some 0x01000000#32)) →
      loadScript ws s = .next { s with agenda := s.agenda ++ ws.map .script }) ∧
    (¬ (∀ (k : Nat) (w : Word), ws[k]? = some w → ∃ i : Instr, decode s.cfg.nScales w = .ok i ∧ i.injectable = true ∧
        (i = .loop ∨ (∃ d, i = .adv d) → s.powered = true ∨ ∃ j < k, ws[j]? = some 0x01000000#32)) →
      loadScript ws s = .refused .illFormedScript)

/-- R278: "`seq = IDLE` and `lpos = 0` hold at every word boundary" of a script.  What is left of the agenda is still
script words.  The agenda is the model's (assumption 4).  The spec marks as its own decisions: R278 (D34, D38). -/
def Obligations.ScriptKeepsBoundary : Prop :=
  ∀ s t : State, Inv s → AtBoundary s → step s = .next t → AtBoundary t

/-! ### Reset and power -/

/-- R334: the state after `RESET`, from any state and for every position of the pins, in both columns: the internal
clock has begun with a beat at 0, the external one has not.  `s_sample` and `s_out` hold any value, drawn (assumption
3), `s_sample` within the legal values that R20 gives it.  That the agenda stays and no function value is held is the
model's (assumptions 4 and 5).  In internal-clock mode the first `LOOP` runs a step at index 0.  The spec derives:
R334. -/
def Obligations.ResetState : Prop :=
  ∀ s : State, s.cfg.wf = true →
    ∃ (x : Sample) (y : BitVec 32) (k : Nat) (t : State), exec .reset s = .next t ∧ x.toNat ≤ 4095 ∧
      t =
        { cfg := s.cfg, memory := ⟨[]⟩, memoryIndex := 0, recording := false
          externalTrigger := s.pinDrive.extClkEn, tempoDelayMs := BitVec.ofNat 16 (s.cfg.slowMs / 2)
          quantizeMode := s.pinDrive.qmodeSel, activeScale := 0, potMode := s.pinDrive.potModeSw, potRange := .oct1
          triggerPending := !s.pinDrive.extClkEn, modeTogglePending := false, scaleTogglePending := false
          rangeTogglePending := false, modeButtonPressTime := 0, seq := .idle, lpos := .pollsw
          sSample := x, sOut := y, nowUs := 0, pinLevel := s.pinDrive
          edgeEn := ⟨true, true, true, s.pinDrive.extClkEn, true⟩
          alarm :=
            ⟨if s.pinDrive.extClkEn then none else some ⟨.anticipate, 1000 * (s.cfg.slowMs / 2)⟩, none, none,
              some 100000⟩
          adcSel := .cv, muxA := 0, muxInh0 := false, muxInh1 := true, muxSetTime := 0, trigOut := false
          statusLed := !s.pinDrive.extClkEn, fault := ⟨false, false⟩, powered := true
          pinDrive := s.pinDrive, ain := s.ain
          optrace :=
            (0, 0x01000000#32) :: if s.pinDrive.extClkEn then [] else [(0, 0x20000000#32)]
          outtrace := [], agenda := s.agenda, freeCount := k, lastValue := none } ∧
      (s.pinDrive.extClkEn = false →
        ∃ u, exec .loop t = .next u ∧ u.memoryIndex = 1 ∧ (0, 0x41000000#32) ∈ u.optrace)

/-- R271, R44, R334: `RESET` of the unpowered engine of TC0 with all pins low and all inputs 0 leaves `State.reset`,
up to the two latches that hold any value there.  TC0 and the latches' values in `State.reset` are the model's choices
(assumptions 1 and 2), and so are its empty agenda, its draw counter and its absent function value (assumptions 3, 4
and 5).  The spec marks as its own decisions: R44 (D7).  The spec derives: R334. -/
def Obligations.PowerUp : Prop :=
  ∃ (x : Sample) (y : BitVec 32) (k : Nat),
    exec .reset State.powerOff = .next { State.reset with sSample := x, sOut := y, freeCount := k }

/-- R331, R41, R273, R274: before the first `RESET` a `PIN` sets the level ENV drives, an `AIN` the code ENV presents,
and neither changes anything else; every operation of INT and MAIN, `ADV` and `LOOP` are refused.  The rules say that
there is no behaviour; that it is shown as a refusal is the model's reading (assumption 13).  The spec marks as its
own decisions: R331 (D29), R41 (D29), R273 (D19). -/
def Obligations.Unpowered : Prop :=
  ∀ s : State, s.powered = false →
    (∀ (p : Pin) (level : BitVec 2), legalLevel p level = true →
      ∃ d : PinLevels, exec (.pin p level) s = .next { s with pinDrive := d } ∧
        ∀ q, d.level q = if q = p then level else s.pinDrive.level q) ∧
    (∀ (c : Fin 17) (code : Code), exec (.ain c code) s = .next { s with ain := s.ain.set c.val code }) ∧
    (∀ i : Instr, i.agent = .int ∨ i.agent = .main ∨ i = .loop ∨ (∃ d, i = .adv d) → exec i s = .refused .unpowered)

/-! ### The environment's stimuli -/

/-- R273, R42: after a `PIN` with a legal level the pin is driven to that level and, in a powered engine, seen at it;
no other pin changes.  A level that the pin cannot have is refused (R90 (c)).  The spec marks as its own decisions:
R273 (D19), R42 (D29), R90 (D38). -/
def Obligations.PinLevel : Prop :=
  ∀ (s : State) (p : Pin) (level : BitVec 2),
    (legalLevel p level = true →
      ∃ t, exec (.pin p level) s = .next t ∧
        (∀ q, t.pinDrive.level q = if q = p then level else s.pinDrive.level q) ∧
        (s.powered = true → ∀ q, t.pinLevel.level q = if q = p then level else s.pinLevel.level q) ∧
        (s.powered = false → t.pinLevel = s.pinLevel)) ∧
    (legalLevel p level = false → exec (.pin p level) s = .refused .illFormedOperand)

/-- R111, R119, R273, R295: a `PIN` of a powered engine is the change of the two levels (the state `t`) and then, at
once, the handler of the edge it makes, if the edge has one and its enable bit is 1; any other edge, and a level
repeated, changes nothing else.  The spec marks as its own decisions: R111 (D3, D19), R119 (D19), R273 (D19), R295
(D19). -/
def Obligations.PinEdges : Prop :=
  ∀ (s t : State) (p : Pin) (level : BitVec 2) (v : PinSetting), s.powered = true → pinSetting? p level = some v →
    t = { s.noted (encode (.pin p level)) with pinDrive := s.pinDrive.put v, pinLevel := s.pinLevel.put v } →
    exec (.pin p level) s =
      if p = .trigBtn ∧ s.pinRead p = 0 ∧ level = 1 ∧ s.edgeEn.tbR = true then exec .tbRise t
      else if p = .modeBtn ∧ s.pinRead p = 0 ∧ level = 1 ∧ s.edgeEn.mbR = true then exec .mbRise t
      else if p = .modeBtn ∧ s.pinRead p = 1 ∧ level = 0 ∧ s.edgeEn.mbF = true then exec .mbFall t
      else if p = .extTrig ∧ s.pinRead p = 0 ∧ level = 1 ∧ s.edgeEn.xtR = true then exec .xtRise t
      else if p = .extMode ∧ s.pinRead p = 0 ∧ level = 1 ∧ s.edgeEn.xmR = true then exec .xmRise t
      else .next t

/-- R274: an `AIN`, powered or not, changes the code presented on its own source and nothing else but the trace of R39
and R270; the code is what a later `AdcRead` of that source returns (R63, R66), of `CV` once the lines have settled.
That an unpowered engine records nothing is read from R39 and R41 (assumption 13).  The spec marks as its own
decisions: R39 (D33), R41 (D29), R66 (D24, D30).  The spec derives: R63. -/
def Obligations.AinWord : Prop :=
  ∀ (s : State) (c : Fin 17) (code : Code),
    ∃ t, exec (.ain c code) s = .next t ∧
      t = { s with
        ain := t.ain
        optrace :=
          if s.powered then s.optrace ++ [(s.nowUs, 0x04#8 ++ BitVec.ofNat 8 c.val ++ 0#4 ++ code)]
          else s.optrace } ∧
      (∀ d : Fin 17, t.ain[d.val] = if d = c then code else s.ain[d.val]) ∧
      (c.val = 16 → (adcRead t .tempo).1 = code) ∧
      (t.settled = true → t.selectedSource = c.val → (adcRead t .cv).1 = code)

/-- R272, R276, R299, R258: while the beat chain advances, `ADV` completes: the clock stands `t_us` later, nothing is
due, and of the callbacks on the way none has touched the memory, the index, MAIN's position and latches, the modes,
the multiplexer lines, the pins, the output events, the faults or the mode button's time.  The spec marks as its own
decisions: R272 (D3), R276 (D4), R299 (D24). -/
def Obligations.AdvPassesTime : Prop :=
  ∀ (s : State) (d : BitVec 24), s.powered = true → ChainLive s →
    ∃ t, exec (.adv d) s = .next t ∧ t.nowUs = s.nowUs + d.toNat ∧ NothingDue t ∧
      t = { s with
        triggerPending := t.triggerPending, rangeTogglePending := t.rangeTogglePending
        tempoDelayMs := t.tempoDelayMs, nowUs := t.nowUs, edgeEn := { s.edgeEn with tbR := t.edgeEn.tbR }
        alarm := t.alarm, adcSel := t.adcSel, trigOut := t.trigOut, statusLed := t.statusLed
        optrace := t.optrace }

/-- R275: at a boundary of the reference schedule `LOOP` completes one iteration and comes back to the boundary.  It
runs a step exactly when a trigger is pending or the internal clock is taken up again, and only then time passes, by
`MUX_SETTLE_US`; the three toggles take effect (R254 to R256) and the switches are copied (R251).  The environment's
fields and the button's time stay, and where no step runs nothing else changes but the beat alarm.  At any other
position it is refused.  R275 says only when `LOOP` is performed; the refusal is the model's (assumption 14).  The
spec marks as its own decisions: R254 (D22), R255 (D22), R256 (D22, D23), R251 (D19). -/
def Obligations.LoopIteration : Prop :=
  ∀ s : State, s.powered = true → s.cfg.wf = true → EngineInv s →
    (¬ (s.seq = .idle ∧ s.lpos = .pollsw) → exec .loop s = .refused .loopNotAtBoundary) ∧
    (s.seq = .idle → s.lpos = .pollsw → ∃ t, exec .loop s = .next t ∧ t.seq = .idle ∧ t.lpos = .pollsw ∧
      (let ran := s.triggerPending || (s.externalTrigger && !s.pinLevel.extClkEn)
       t.nowUs = s.nowUs + (if ran then s.cfg.muxSettleUs else 0) ∧
       t.memoryIndex = s.memoryIndex + (if ran then 1 else 0) ∧
       (t.memory ≠ s.memory → ran = true ∧ t.recording = true) ∧
       (∀ a : Nat, a ≠ s.memoryIndex.toNat → t.memory.read a = s.memory.read a) ∧
       (ran = false →
         t = { s with
           recording := t.recording, externalTrigger := t.externalTrigger, quantizeMode := t.quantizeMode
           activeScale := t.activeScale, potMode := t.potMode, potRange := t.potRange
           modeTogglePending := false, scaleTogglePending := false, rangeTogglePending := false
           edgeEn := { s.edgeEn with xtR := t.externalTrigger }
           alarm := { s.alarm with beat := t.alarm.beat }, optrace := t.optrace })) ∧
      t.externalTrigger = s.pinLevel.extClkEn ∧ t.potMode = s.pinLevel.potModeSw ∧
      t.quantizeMode = s.pinLevel.qmodeSel ∧
      t.recording = (s.recording ^^ s.modeTogglePending) ∧ t.modeTogglePending = false ∧
      t.activeScale.toNat =
        (if s.scaleTogglePending then (s.activeScale.toNat + 1) % s.cfg.nScales else s.activeScale.toNat) ∧
      t.scaleTogglePending = false ∧
      t.potRange.number.toNat =
        (if s.rangeTogglePending then (s.potRange.number.toNat + 1) % 3 else s.potRange.number.toNat) ∧
      t.cfg = s.cfg ∧ t.modeButtonPressTime = s.modeButtonPressTime ∧ t.pinLevel = s.pinLevel ∧
      t.pinDrive = s.pinDrive ∧ t.ain = s.ain ∧ t.powered = s.powered ∧ t.agenda = s.agenda ∧
      t.lastValue = s.lastValue ∧
      t.edgeEn = { s.edgeEn with tbR := t.edgeEn.tbR, xtR := t.externalTrigger })

/-! ### Callbacks -/

/-- R276, R299: while the beat chain advances, `Dispatch()` of a powered engine comes to an end with nothing due, at
the same instant, with nothing changed but what callbacks write; where nothing was due it does nothing.  That a
dispatch without an end would be a fault is the model's (assumption 12).  The spec marks as its own decisions: R276
(D4), R299 (D24). -/
def Obligations.DispatchSettles : Prop :=
  ∀ s : State, s.powered = true → ChainLive s →
    (∃ t, dispatch s = .next t ∧ NothingDue t ∧
      t = { s with
        triggerPending := t.triggerPending, rangeTogglePending := t.rangeTogglePending
        tempoDelayMs := t.tempoDelayMs, edgeEn := { s.edgeEn with tbR := t.edgeEn.tbR }
        alarm := t.alarm, adcSel := t.adcSel, trigOut := t.trigOut, statusLed := t.statusLed
        optrace := t.optrace }) ∧
    (NothingDue s → dispatch s = .next s)

/-- R276, R297: the callback taken next has the smallest deadline, and the smallest slot number among equal deadlines;
none is taken exactly when every deadline lies beyond the target.  The spec marks as its own decisions: R276 (D4),
R297 (D4). -/
def Obligations.CallbackOrder : Prop :=
  ∀ (s : State) (target : Nat),
    (∀ (ev : Event) (d : Nat), s.due target = some (ev, d) →
      s.alarm.deadline ev.slot = some d ∧ d ≤ target ∧
        ∀ (slot : Slot) (d' : Nat), s.alarm.deadline slot = some d' →
          d < d' ∨ (d = d' ∧ ev.slot.number ≤ slot.number)) ∧
    (s.due target = none ↔ ∀ (slot : Slot) (d' : Nat), s.alarm.deadline slot = some d' → target < d')

/-- R298, R302, R303, R294: a callback that fires at its deadline `d` is its handler operation, performed in the state
in which the clock stands at `d` and a one-shot slot is disarmed, or the periodic slot re-armed 100 ms after `d`;
nothing is saved.  The handlers are those of R36.  The spec marks as its own decisions: R303 (D16), R36 (D4, D26).
The spec derives: R294. -/
def Obligations.CallbackEntry : Prop :=
  ∀ (s : State) (d : Nat), s.powered = true → s.cfg.wf = true → s.nowUs ≤ d →
    .next (s.fire (.beat .trigger, d)) =
      exec .clkTrig { s with nowUs := d, alarm := { s.alarm with beat := none } } ∧
    .next (s.fire (.beat .anticipate, d)) =
      exec .clkAnt { s with nowUs := d, alarm := { s.alarm with beat := none } } ∧
    .next (s.fire (.debounce, d)) =
      exec .tbRecheck { s with nowUs := d, alarm := { s.alarm with debounce := none } } ∧
    .next (s.fire (.trigOff, d)) =
      exec .trigOff { s with nowUs := d, alarm := { s.alarm with trigOff := none } } ∧
    .next (s.fire (.tempo, d)) =
      exec .tempoRead { s with nowUs := d, alarm := { s.alarm with tempo := some (d + 100000) } }

/-- R301: `Cancel(slot)` disarms its slot and changes nothing else; where the slot is not armed it changes nothing.  The
callback it disarms is not selected to run at any time, its own deadline included. -/
def Obligations.CancelDisarms : Prop :=
  ∀ (s : State) (slot : Slot),
    s.cancel slot = { s with alarm := (s.cancel slot).alarm } ∧
    (s.cancel slot).alarm.deadline slot = none ∧
    (∀ other : Slot, other ≠ slot → (s.cancel slot).alarm.deadline other = s.alarm.deadline other) ∧
    (slot ≠ .beat → (s.cancel slot).alarm.beat = s.alarm.beat) ∧
    (s.alarm.deadline slot = none → s.cancel slot = s) ∧
    ∀ (target : Nat) (ev : Event) (d : Nat), (s.cancel slot).due target = some (ev, d) → ev.slot ≠ slot

/-! ### Input decoder -/

/-- R112, R113: the rise of the trigger button masks its edge and arms the re-check 20 ms later; the re-check accepts
a button that is high, for the flag that `pot_mode` selects, and enables the edge again.  The spec marks as its own
decisions: R113 (D35).  The spec derives: R112. -/
def Obligations.TriggerButton : Prop :=
  ∀ s : State, s.powered = true → s.cfg.wf = true →
    exec .tbRise s = .next { s.noted 0x10000000#32 with
      edgeEn := { s.edgeEn with tbR := false }
      alarm := { s.alarm with debounce := some (s.nowUs + 20000) } } ∧
    exec .tbRecheck s = .next { s.noted 0x11000000#32 with
      rangeTogglePending := s.rangeTogglePending || (s.pinLevel.trigBtn && s.potMode)
      triggerPending := s.triggerPending || (s.pinLevel.trigBtn && !s.potMode)
      edgeEn := { s.edgeEn with tbR := true } }

/-- R114, R115: the rise of the mode button records the time; its fall is a long press after more than 600 ms, a short
press from 20 ms to 600 ms, both ends included, and nothing below 20 ms.  The spec marks as its own decisions: R115
(D32). -/
def Obligations.ModeButton : Prop :=
  ∀ s : State, s.powered = true → s.cfg.wf = true →
    exec .mbRise s = .next { s.noted 0x12000000#32 with modeButtonPressTime := s.nowUs } ∧
    (s.modeButtonPressTime + 600000 < s.nowUs →
      exec .mbFall s = .next { s.noted 0x13000000#32 with scaleTogglePending := true }) ∧
    (s.modeButtonPressTime + 20000 ≤ s.nowUs → s.nowUs ≤ s.modeButtonPressTime + 600000 →
      exec .mbFall s = .next { s.noted 0x13000000#32 with modeTogglePending := true }) ∧
    (s.modeButtonPressTime ≤ s.nowUs → s.nowUs < s.modeButtonPressTime + 20000 →
      exec .mbFall s = .next (s.noted 0x13000000#32))

/-- R116, R117, R141: an external trigger pulse has the effect of the Trigger phase, which arms nothing in
external-trigger mode; an external mode pulse requests a mode toggle.  R116 performs `XT.RISE` in external-trigger
mode only; the clause for internal-clock mode, where it arms alarm 0, is the model's (assumption 15).  The spec marks
as its own decisions: R116 (D21), R117 (D21). -/
def Obligations.PulseInputs : Prop :=
  ∀ s : State, s.powered = true →
    (s.externalTrigger = true →
      exec .xtRise s = .next { s.noted 0x14000000#32 with triggerPending := true, statusLed := true }) ∧
    (s.externalTrigger = false →
      exec .xtRise s = .next { s.noted 0x14000000#32 with
        triggerPending := true, statusLed := true
        alarm := { s.alarm with beat := some ⟨.anticipate, s.nowUs + 1000 * s.tempoDelayMs.toNat⟩ } }) ∧
    exec .xmRise s = .next { s.noted 0x15000000#32 with modeTogglePending := true }

/-- R120: what the operations of class 1 write: the four pending flags (which they only set), `edge_en.TB_R`,
`alarm[1]`, `mode_button_press_time` and `status_led`, and nothing else but the trace.  `XT.RISE` is performed in
external-trigger mode only (R116).  The spec marks as its own decisions: R116 (D21). -/
def Obligations.InputDecoderWrites : Prop :=
  ∀ (i : Instr) (s t : State),
    i = .tbRise ∨ i = .tbRecheck ∨ i = .mbRise ∨ i = .mbFall ∨ i = .xtRise ∧ s.externalTrigger = true ∨ i = .xmRise →
    exec i s = .next t →
      t = { s with
        triggerPending := t.triggerPending, modeTogglePending := t.modeTogglePending
        scaleTogglePending := t.scaleTogglePending, rangeTogglePending := t.rangeTogglePending
        edgeEn := { s.edgeEn with tbR := t.edgeEn.tbR }
        alarm := { s.alarm with debounce := t.alarm.debounce }
        modeButtonPressTime := t.modeButtonPressTime, statusLed := t.statusLed, optrace := t.optrace } ∧
      (s.triggerPending = true → t.triggerPending = true) ∧ (s.modeTogglePending = true → t.modeTogglePending = true) ∧
      (s.scaleTogglePending = true → t.scaleTogglePending = true) ∧
      (s.rangeTogglePending = true → t.rangeTogglePending = true)

/-- R118: in external-clock mode, where no beat interferes, a trigger button that rises with its edge enabled and
stays high for 20 ms sets exactly one of `trigger_pending` and `range_toggle_pending`, and not before the 20 ms are
over; one that has fallen again by then sets neither.  The spec derives: R118. -/
def Obligations.DebouncedPress : Prop :=
  ∀ (s : State) (d : BitVec 24), s.powered = true → s.cfg.wf = true → EngineInv s → s.externalTrigger = true →
    s.edgeEn.tbR = true → s.pinLevel.trigBtn = false → s.triggerPending = false → s.rangeTogglePending = false →
    d.toNat < 20000 →
    ∃ t u v w x : State, exec (.pin .trigBtn 1) s = .next t ∧ exec (.adv d) t = .next u ∧
      u.triggerPending = false ∧ u.rangeTogglePending = false ∧
      exec (.adv (20000 - d)) u = .next v ∧ v.nowUs = s.nowUs + 20000 ∧
      v.triggerPending = !s.potMode ∧ v.rangeTogglePending = s.potMode ∧ v.edgeEn.tbR = true ∧
      exec (.pin .trigBtn 0) u = .next w ∧ exec (.adv (20000 - d)) w = .next x ∧
      x.triggerPending = false ∧ x.rangeTogglePending = false ∧ x.edgeEn.tbR = true

/-! ### Tempo clock -/

/-- R141 to R144: the Trigger phase sets the flag, turns the indicator on and, unless in external-trigger mode, arms
the Anticipate phase; the Anticipate phase turns it off and arms the Trigger phase; both after `tempo_delay_ms`.
`CLK.RESET` leaves one beat alarm, for the Trigger phase and due at once, whatever was armed; `CLK.CANCEL` none, and
both leave the indicator as it is.  That each is performed and recorded by itself, in any state, is the model's
(assumption 15), and so is that the latches stay at `IDLE` (assumption 22).  The spec marks as its own decisions: R143
(D25).  The spec derives: R142. -/
def Obligations.BeatClock : Prop :=
  ∀ s : State, s.powered = true →
    exec .clkTrig s = .next { s.noted 0x20000000#32 with
      triggerPending := true, statusLed := true
      alarm := { s.alarm with
        beat :=
          if s.externalTrigger then s.alarm.beat
          else some ⟨.anticipate, s.nowUs + 1000 * s.tempoDelayMs.toNat⟩ } } ∧
    exec .clkAnt s = .next { s.noted 0x21000000#32 with
      statusLed := false
      alarm := { s.alarm with beat := some ⟨.trigger, s.nowUs + 1000 * s.tempoDelayMs.toNat⟩ } } ∧
    exec .clkReset s = .next { s.noted 0x22000000#32 with
      alarm := { s.alarm with beat := some ⟨.trigger, s.nowUs⟩ } } ∧
    exec .clkCancel s = .next { s.noted 0x23000000#32 with alarm := { s.alarm with beat := none } }

/-- R146, R145: the tempo read selects the `TEMPO` channel, maps the potentiometer's code, and replaces
`tempo_delay_ms` only where the new value differs from it by more than 20 ms.  The spec marks as its own decisions:
R145 (D15). -/
def Obligations.TempoReadHysteresis : Prop :=
  ∀ s : State, s.powered = true → s.cfg.wf = true →
    ∃ t, exec .tempoRead s = .next t ∧
      t = { s.noted 0x24000000#32 with adcSel := .tempo, tempoDelayMs := t.tempoDelayMs } ∧
      (let new := (s.cfg.slowMs - s.ain[16].toNat * (s.cfg.slowMs - s.cfg.fastMs) / 4095) / 2
       t.tempoDelayMs.toNat =
         if s.tempoDelayMs.toNat + 20 < new ∨ new + 20 < s.tempoDelayMs.toNat then new else s.tempoDelayMs.toNat)

/-- R145: `TEMPO.MAP` as a word, and its properties: the slow bound at code 0, the fast bound at full scale (both
halved), non-increasing, and within the bounds.  Where the word's value is held is the model's (assumption 5).  The
spec marks as its own decisions: R145 (D15). -/
def Obligations.TempoMapProperties : Prop :=
  ∀ s : State, s.cfg.wf = true →
    (∀ code : Code, ∃ t, exec (.tempoMap code) s = .next t ∧
      t.lastValue = some (.int ↑((s.cfg.slowMs - code.toNat * (s.cfg.slowMs - s.cfg.fastMs) / 4095) / 2))) ∧
    tempoMap s.cfg 0 = s.cfg.slowMs / 2 ∧ tempoMap s.cfg 4095 = s.cfg.fastMs / 2 ∧
    (∀ a b : Nat, a ≤ b → b ≤ 4095 → tempoMap s.cfg b ≤ tempoMap s.cfg a) ∧
    (∀ a : Nat, a ≤ 4095 → s.cfg.fastMs / 2 ≤ tempoMap s.cfg a ∧ tempoMap s.cfg a ≤ s.cfg.slowMs / 2)

/-- R147: the beat period is `2 × tempo_delay_ms`.  From a Trigger phase at `t0`, with a potentiometer that leaves
`tempo_delay_ms` as it is, `CLK.TRIG` runs at `t0 + 2000 × k × tempo_delay_ms` for every `k`, `CLK.ANT` halfway to the
next one, and the indicator is on in the first half and off in the second.  The spec derives: R147. -/
def Obligations.BeatPeriod : Prop :=
  ∀ (s : State) (k : Nat), s.powered = true → ChainLive s → NothingDue s → s.externalTrigger = false →
    s.alarm.beat = some ⟨.anticipate, s.nowUs + 1000 * s.tempoDelayMs.toNat⟩ →
    distance (tempoMap s.cfg s.ain[16].toNat) s.tempoDelayMs.toNat ≤ 20 →
    ∃ t u : State,
      advanceTo (s.nowUs + 2000 * (k + 1) * s.tempoDelayMs.toNat) s = .next t ∧
      (s.nowUs + 2000 * (k + 1) * s.tempoDelayMs.toNat, 0x20000000#32) ∈ t.optrace ∧
      t.statusLed = true ∧ t.triggerPending = true ∧ t.tempoDelayMs = s.tempoDelayMs ∧
      t.alarm.beat = some ⟨.anticipate, t.nowUs + 1000 * s.tempoDelayMs.toNat⟩ ∧
      advanceTo (t.nowUs + 1000 * s.tempoDelayMs.toNat) t = .next u ∧
      (t.nowUs + 1000 * s.tempoDelayMs.toNat, 0x21000000#32) ∈ u.optrace ∧ u.statusLed = false ∧
      u.alarm.beat = some ⟨.trigger, t.nowUs + 2000 * s.tempoDelayMs.toNat⟩

/-! ### Multiplexer -/

/-- R88, R170, R172: `MUX.SET i` writes `i[2:0]` to the address lines, `i[3]` to the inhibit bit of bank 0 and its
negation to that of bank 1, and restarts the settle time; the selected source is then `i`.  The spec marks as its own
decisions: R88 (D17), R170 (D17).  The spec derives: R172. -/
def Obligations.MuxLines : Prop :=
  ∀ (s : State) (i : BitVec 4), s.powered = true →
    ∃ t, exec (.muxSet i) s = .next t ∧
      t = { s.noted (0x3000000#28 ++ i) with
        muxA := i.extractLsb' 0 3, muxInh0 := i.getLsbD 3, muxInh1 := !i.getLsbD 3, muxSetTime := s.nowUs } ∧
      t.selectedSource = i.toNat ∧ (t.muxInh0 = true ↔ 8 ≤ i.toNat) ∧ (t.muxInh0 ^^ t.muxInh1) = true

/-- R171: `MUX.SETTLE` completes: at once where the settle time has passed and nothing is due, and else when it has,
recorded at that instant; it changes no state itself, so what is changed is what the callbacks on the way write.  That
the wait ends exactly then is the reference schedule's choice (assumption 10). -/
def Obligations.MuxSettleWaits : Prop :=
  ∀ s : State, s.powered = true → ChainLive s →
    (s.settled = true → NothingDue s → exec .muxSettle s = .next (s.noted 0x31000000#32)) ∧
    ∃ t, exec .muxSettle s = .next t ∧ t.nowUs = max s.nowUs (s.muxSetTime + s.cfg.muxSettleUs) ∧
      t.settled = true ∧ t.optrace.getLast? = some (t.nowUs, 0x31000000#32) ∧
      t = { s with
        triggerPending := t.triggerPending, rangeTogglePending := t.rangeTogglePending
        tempoDelayMs := t.tempoDelayMs, nowUs := t.nowUs, edgeEn := { s.edgeEn with tbR := t.edgeEn.tbR }
        alarm := t.alarm, adcSel := t.adcSel, trigOut := t.trigOut, statusLed := t.statusLed
        optrace := t.optrace }

/-! ### Pipeline -/

/-- R181, R182, R66, R63: `STEP.S1` addresses the multiplexer with `memory_index`; `STEP.S2` selects `CV` and latches
the code of the selected source, or any code where the settle time has not passed.  The spec marks as its own
decisions: R66 (D24, D30).  The spec derives: R63. -/
def Obligations.StepSamples : Prop :=
  ∀ s : State, s.powered = true →
    exec .stepS1 s = .next { s.noted 0x41000000#32 with
      muxA := s.memoryIndex.extractLsb' 0 3, muxInh0 := s.memoryIndex.getLsbD 3
      muxInh1 := !s.memoryIndex.getLsbD 3, muxSetTime := s.nowUs, seq := .s2 } ∧
    (∀ c : Fin 17, s.muxSetTime + s.cfg.muxSettleUs ≤ s.nowUs →
      c.val = 8 * (if s.muxInh0 then 1 else 0) + s.muxA.toNat →
      exec .stepS2 s = .next { s.noted 0x42000000#32 with
        adcSel := .cv, sSample := s.ain[c.val].setWidth 16, seq := .s3 }) ∧
    (s.nowUs < s.muxSetTime + s.cfg.muxSettleUs →
      ∃ (x : Sample) (k : Nat), x.toNat ≤ 4095 ∧
        exec .stepS2 s = .next { s.noted 0x42000000#32 with
          adcSel := .cv, sSample := x, seq := .s3, freeCount := k })

/-- R183, R240: in pot mode `STEP.S3` replaces the sample by the rescaled one, its magnitude of deviation times
`RANGE_OCT × SPO` over 4096; else it changes only `seq`.  The spec marks as its own decisions: R240 (D14). -/
def Obligations.StepRescales : Prop :=
  ∀ s : State, s.powered = true → s.cfg.wf = true → s.sSample.toNat ≤ 4095 →
    (s.potMode = false → exec .stepS3 s = .next { s.noted 0x43000000#32 with seq := .s4 }) ∧
    (s.potMode = true →
      ∃ x : Sample, exec .stepS3 s = .next { s.noted 0x43000000#32 with sSample := x, seq := .s4 } ∧
        (let span := (match s.potRange with | .oct1 => 1 | .oct2 => 2 | .oct5 => 5) * s.cfg.spo
         (s.cfg.mid ≤ s.sSample.toNat → x.toNat = s.cfg.mid + (s.sSample.toNat - s.cfg.mid) * span / 4096) ∧
         (s.sSample.toNat < s.cfg.mid → x.toNat = s.cfg.mid - (s.cfg.mid - s.sSample.toNat) * span / 4096)))

/-- R184, R61: when recording, `STEP.S4` stores the sample at `memory_index`, leaves every other word, and emits the
flash; when not, it changes only `seq`.  The spec marks as its own decisions: R184 (D27). -/
def Obligations.StepRecords : Prop :=
  ∀ s : State, s.powered = true → s.cfg.wf = true → s.memory.wf = true →
    (s.recording = false → exec .stepS4 s = .next { s.noted 0x44000000#32 with seq := .s5 }) ∧
    (s.recording = true →
      ∃ m : Memory, exec .stepS4 s = .next { s.noted 0x44000000#32 with
          memory := m, outtrace := s.outtrace ++ [(s.nowUs, .flash)], seq := .s5 } ∧
        m.wf = true ∧ m.read s.memoryIndex.toNat = s.sSample ∧
        ∀ a : Nat, a ≠ s.memoryIndex.toNat → m.read a = s.memory.read a)

/-- R185, R215: `STEP.S5` latches the word at `memory_index`, quantized by the mode, and does not modify the memory.
Scale-snapped with a reserved `active_scale`, which no run reaches, the latch holds any value (assumption 3).  The
spec marks as its own decisions: R215 (D36). -/
def Obligations.StepQuantizes : Prop :=
  ∀ s : State, s.powered = true → s.cfg.wf = true →
    ∃ (y : BitVec 32) (k : Nat),
      exec .stepS5 s = .next { s.noted 0x45000000#32 with sOut := y, seq := .s6, freeCount := k } ∧
      (let v := (s.memory.read s.memoryIndex.toNat).toNat
       (s.quantizeMode = .unquantized → y.toInt = v) ∧
       (s.quantizeMode = .chromatic → y.toInt = qChrom s.cfg v) ∧
       (∀ table, s.quantizeMode = .scaleSnapped → s.cfg.scaleTable[s.activeScale.toNat]? = some table →
         y.toInt = qSnap s.cfg table v))

/-- R186, R87, R292: `STEP.S6` sends the three bytes of a code in `0 .. 4095`; outside it, it sets `F_DACRANGE` and
sends three bytes of any value, and the run goes on.  R87, R191, R65, R64: the word `DAC.FRAME` answers the frame of a
code: `DAC_CMD`, its high 8 bits, its low 4 bits in the top nibble, so that the last two bytes are the code followed
by four zeros; an output event of a frame stands for a transfer to `DAC_ADDR`.  Where the word's value is held is the
model's (assumption 5), and so is the reading of an output event as a transfer (assumption 17).  The spec marks as its
own decisions: R186 (D12, D31), R292 (D12). -/
def Obligations.StepWritesDac : Prop :=
  (∀ s : State, s.powered = true → s.cfg.wf = true →
    (∀ v : Code, s.sOut.toInt = v.toNat →
      exec .stepS6 s = .next { s.noted 0x46000000#32 with
        outtrace := s.outtrace ++ [(s.nowUs, .dac s.cfg.dacCmd (v.extractLsb' 4 8) (v.extractLsb' 0 4 ++ 0#4))]
        seq := .s7 }) ∧
    (s.sOut.toInt < 0 ∨ 4095 < s.sOut.toInt →
      ∃ (b0 b1 b2 : Byte) (k : Nat), exec .stepS6 s = .next { s.noted 0x46000000#32 with
        fault := { s.fault with dacRange := true }
        outtrace := s.outtrace ++ [(s.nowUs, .dacx b0 b1 b2)], seq := .s7, freeCount := k })) ∧
  ∀ (s : State) (v : Code),
    ∃ (t : State) (b1 b2 : Byte), exec (.dacFrame v) s = .next t ∧
      t.lastValue = some (.frame s.cfg.dacCmd b1 b2) ∧ b1.toNat = v.toNat / 16 ∧ b2.toNat = v.toNat % 16 * 16 ∧
      b1 ++ b2 = v ++ 0#4 ∧
      OutEvent.busTransfer s.cfg (.dac s.cfg.dacCmd b1 b2) = some (s.cfg.dacAddr, s.cfg.dacCmd, b1, b2)

/-- R187, R190: `STEP.S7` raises the trigger output and arms its end 10 ms later in place of an end already armed;
`TRIG.OFF` lowers it.  The spec marks as its own decisions: R187 (D26). -/
def Obligations.TriggerPulse : Prop :=
  ∀ s : State, s.powered = true → s.cfg.wf = true →
    exec .stepS7 s = .next { s.noted 0x47000000#32 with
      trigOut := true, alarm := { s.alarm with trigOff := some (s.nowUs + 10000) }, seq := .s8 } ∧
    exec .trigOff s = .next { s.noted 0x4A000000#32 with trigOut := false }

/-- R188, R22, R61, R189: `STEP.S8` advances the index by 1 modulo 16 and changes nothing else but `seq`, so that
sixteen of them lead back to the index they began at.  `STEP.S9` clears `trigger_pending`, whoever set it, and ends
the run (R189); that the two latches keep their values then is the model's (assumption 22). -/
def Obligations.RunEnds : Prop :=
  ∀ s : State, s.powered = true →
    (∃ j : BitVec 4, j.toNat = (s.memoryIndex.toNat + 1) % 16 ∧
      exec .stepS8 s = .next { s.noted 0x48000000#32 with memoryIndex := j, seq := .s9 }) ∧
    (∀ k : Nat, ∃ t, (fun o => andThen o (exec .stepS8))^[k] (.next s) = .next t ∧
      t.memoryIndex.toNat = (s.memoryIndex.toNat + k) % 16) ∧
    exec .stepS9 s = .next { s.noted 0x49000000#32 with triggerPending := false, seq := .idle }

/-- R191: the function `DAC.FRAME`, in sending order: `DAC_CMD`, `code div 16` (the bits 11 to 4, at most 255), and
`(code mod 16) * 16` (the bits 3 to 0 followed by four zeros, at most 240).  Its word is `0x4B000000 | code`; performing
it writes no flag and raises no fault. -/
def Obligations.DacFrameFunction : Prop :=
  ∀ (c : Cfg) (v : Code),
    (∃ b1 b2 : Byte, dacFrame c v.toNat = (c.dacCmd, b1, b2) ∧
      b1.toNat = v.toNat / 16 ∧ b1 = v.extractLsb' 4 8 ∧ b1.toNat ≤ 255 ∧
      b2.toNat = v.toNat % 16 * 16 ∧ b2 = v.extractLsb' 0 4 ++ 0#4 ∧ b2.toNat ≤ 240) ∧
    encode (.dacFrame v) = 0x4B000#20 ++ v ∧
    ∀ s : State, ∃ t, exec (.dacFrame v) s = .next t ∧ t.fault = s.fault ∧ t.triggerPending = s.triggerPending ∧
      t.modeTogglePending = s.modeTogglePending ∧ t.scaleTogglePending = s.scaleTogglePending ∧
      t.rangeTogglePending = s.rangeTogglePending

/-- R194: what one whole run does.  From a boundary with a trigger pending, no toggle pending and the switches where
they were polled, one `LOOP` samples source `i`, rescales in pot mode, stores when recording, quantizes the word at
`i`, sends it, raises the trigger output, advances the index and clears the flag.  The spec derives: R194. -/
def Obligations.WholeRun : Prop :=
  ∀ (s : State) (out : Int) (x x' : Nat), s.powered = true → s.cfg.wf = true → EngineInv s →
    s.seq = .idle → s.lpos = .pollsw → s.triggerPending = true →
    s.modeTogglePending = false → s.scaleTogglePending = false → s.rangeTogglePending = false →
    s.externalTrigger = s.pinLevel.extClkEn → s.potMode = s.pinLevel.potModeSw →
    s.quantizeMode = s.pinLevel.qmodeSel →
    x = s.ain[s.memoryIndex.toNat].toNat →
    (x' : Int) = (if s.potMode then rScale s.cfg s.potRange x else x) →
    quantize s.cfg s.quantizeMode s.activeScale.toNat
      (if s.recording then x' else (s.memory.read s.memoryIndex.toNat).toNat) = some out →
    0 ≤ out → out ≤ 4095 →
    ∃ t, exec .loop s = .next t ∧ t.seq = .idle ∧ t.lpos = .pollsw ∧
      t.nowUs = s.nowUs + s.cfg.muxSettleUs ∧
      (∀ a : Nat, t.memory.read a =
        if s.recording = true ∧ a = s.memoryIndex.toNat then BitVec.ofNat 16 x' else s.memory.read a) ∧
      t.outtrace = s.outtrace ++ (if s.recording then [(t.nowUs, .flash)] else []) ++
        [(t.nowUs, .dac s.cfg.dacCmd (BitVec.ofInt 8 (out / 16)) (BitVec.ofInt 8 (out % 16 * 16)))] ∧
      t.trigOut = true ∧ t.alarm.trigOff = some (t.nowUs + 10000) ∧
      t.memoryIndex = s.memoryIndex + 1 ∧ t.triggerPending = false ∧
      t.muxA = s.memoryIndex.extractLsb' 0 3 ∧ t.muxInh0 = s.memoryIndex.getLsbD 3 ∧
      t.muxInh1 = !s.memoryIndex.getLsbD 3 ∧ t.adcSel = .cv ∧ t.fault = s.fault

/-! ### Quantizer -/

/-- R211: the function `Q.D2S`: half the divisor added before the division of the magnitude, the sign restored, and so
symmetric around zero; with odd `SPO` no tie exists, with even `SPO` a tie rounds away from zero.  The range and the
examples for `SPO = 205`; the word is `0x50000000 | dev[15:0]`; `Q.CHROM` and `Q.SNAP` apply it to the deviation. -/
def Obligations.SemitoneCount : Prop :=
  (∀ (c : Cfg) (dev : Int), 12 ≤ c.spo →
    (0 ≤ dev → qD2S c dev = (dev * 12 + (c.spo / 2 : Nat)) / c.spo) ∧
    (dev < 0 → qD2S c dev = -((-dev * 12 + (c.spo / 2 : Nat)) / c.spo)) ∧
    qD2S c (-dev) = -qD2S c dev ∧
    (∀ k : Int, c.spo % 2 = 1 → 2 * (dev * 12) ≠ c.spo * (2 * k + 1)) ∧
    (∀ k : Int, c.spo % 2 = 0 → 0 ≤ dev → 2 * (dev * 12) = c.spo * (2 * k + 1) →
      qD2S c dev = k + 1 ∧ qD2S c (-dev) = -(k + 1)) ∧
    (c.spo = 205 → -2048 ≤ dev → dev ≤ 2047 → -120 ≤ qD2S c dev ∧ qD2S c dev ≤ 120) ∧
    (c.spo = 205 → qD2S c 102 = 6 ∧ qD2S c 8 = 0 ∧ qD2S c 9 = 1 ∧ qD2S c (-9) = -1 ∧ qD2S c (-103) = -6 ∧
      qD2S c 2047 = 120 ∧ qD2S c (-2048) = -120)) ∧
  (∀ v : BitVec 16, encode (.qD2S v) = 0x5000#16 ++ v) ∧
  ∀ (c : Cfg) (table : ScaleTable) (x : Nat),
    qChrom c x = c.mid + qS2D c (qD2S c (x - c.mid)) ∧
    qSnap c table x = c.mid + qS2D c (snapSemis table (qD2S c (x - c.mid)))

/-- R211 to R215, R90 (e): the value of the quantizer's words.  The two conversions round to nearest with halves away
from zero, the same on both sides of zero.  Scale-snapping looks the note up in the table of the scale and takes the
root of the next octave where note 11 snaps to 0; a reserved scale is refused in every mode.  Where a word's value is
held is the model's (assumption 5).  The spec marks as its own decisions: R212 (D11), R214 (D10), R215 (D36), R90
(D38). -/
def Obligations.QuantizerWords : Prop :=
  ∀ (s : State) (code : Code) (scale : BitVec 4) (mode : QMode),
    let semis := qD2S s.cfg (code.toNat - s.cfg.mid)
    let chrom := (s.cfg.mid : Int) + qS2D s.cfg semis
    (∀ val : BitVec 16,
      (∃ t, exec (.qD2S val) s = .next t ∧
        (0 ≤ val.toInt → t.lastValue = some (.int ((val.toInt * 12 + s.cfg.spo / 2) / s.cfg.spo))) ∧
        (val.toInt < 0 → t.lastValue = some (.int (-((-val.toInt * 12 + s.cfg.spo / 2) / s.cfg.spo))))) ∧
      (∃ t, exec (.qS2D val) s = .next t ∧
        (0 ≤ val.toInt → t.lastValue = some (.int ((val.toInt * s.cfg.spo + 6) / 12))) ∧
        (val.toInt < 0 → t.lastValue = some (.int (-((-val.toInt * s.cfg.spo + 6) / 12)))))) ∧
    (∃ t, exec (.qChrom code) s = .next t ∧ t.lastValue = some (.int chrom)) ∧
    (∀ table note, s.cfg.scaleTable[scale.toNat]? = some table → semis % 12 = (note : Nat) →
      let root := if note = 11 ∧ table.entry 11 = 0 then 12 * (semis / 12 + 1) else 12 * (semis / 12)
      let snap := (s.cfg.mid : Int) + qS2D s.cfg (root + table.entry note)
      (∃ t, exec (.qSnap scale code) s = .next t ∧ t.lastValue = some (.int snap)) ∧
      (∃ t, exec (.qApply mode scale code) s = .next t ∧
        t.lastValue = some (.int (match mode with
          | .unquantized => (code.toNat : Int)
          | .chromatic => chrom
          | .scaleSnapped => snap)))) ∧
    (s.cfg.scaleTable.length ≤ scale.toNat →
      exec (.qSnap scale code) s = .refused .illFormedOperand ∧
      exec (.qApply mode scale code) s = .refused .illFormedOperand)

/-- R216: chromatic quantization is idempotent, in the stronger form on semitone counts too, for every well-formed
configuration.  The spec derives: R216. -/
def Obligations.ChromaticIdempotent : Prop :=
  ∀ c : Cfg, c.wf = true →
    (∀ k : Int, qD2S c (qS2D c k) = k) ∧
    (∀ x y : Nat, qChrom c x = (y : Int) → qChrom c y = (y : Int))

/-- R218: scale-snapping answers a code whose semitone within the octave is a member of the table, for every table of
a well-formed configuration; it is idempotent wherever its first result is a code.  The spec derives: R218. -/
def Obligations.SnapMembership : Prop :=
  ∀ (c : Cfg) (table : ScaleTable) (x : Nat), c.wf = true → table ∈ c.scaleTable →
    (∃ n, n ∈ table ∧ fmod (qD2S c (qSnap c table x - c.mid)) 12 = (n : Int)) ∧
    (∀ y : Nat, qSnap c table x = (y : Int) → qSnap c table y = (y : Int))

/-- R217, R219 (b), (c): under TC0 the quantizers leave `0 .. 4095` exactly for the inputs of the spec's table, where
they answer -2 and 4098, and stay within 9 steps (chromatic) or 26 steps (snap) of the input.  The spec marks as its
own decisions: R217 (D12).  The spec derives: R219. -/
def Obligations.QuantizerRange : Prop :=
  ∀ x : Nat, x ≤ 4095 →
    (qChrom .tc0 x < 0 ↔ x ≤ 6) ∧ (4095 < qChrom .tc0 x ↔ 4090 ≤ x) ∧ |qChrom .tc0 x - x| ≤ 9 ∧
    (qSnap .tc0 majorTable x < 0 ↔ x ≤ 23) ∧ (4095 < qSnap .tc0 majorTable x ↔ 4090 ≤ x) ∧
    (qSnap .tc0 pentaTable x < 0 ↔ x ≤ 23) ∧ (4095 < qSnap .tc0 pentaTable x ↔ 4073 ≤ x) ∧
    (qSnap .tc0 minorTable x < 0 ↔ x ≤ 23) ∧ (4095 < qSnap .tc0 minorTable x ↔ 4090 ≤ x) ∧
    ∀ q : Int, q = qChrom .tc0 x ∨ q = qSnap .tc0 majorTable x ∨ q = qSnap .tc0 pentaTable x ∨
        q = qSnap .tc0 minorTable x →
      |q - x| ≤ 26 ∧ (q < 0 → q = -2) ∧ (4095 < q → q = 4098)

/-- R219 (a): the chromatic quantizer is non-decreasing in every well-formed configuration, and so is scale-snapping
with the three default tables.  The spec derives: R219. -/
def Obligations.QuantizerMonotone : Prop :=
  ∀ (c : Cfg) (x y : Nat), c.wf = true → x ≤ y →
    qChrom c x ≤ qChrom c y ∧ qSnap c majorTable x ≤ qSnap c majorTable y ∧
    qSnap c pentaTable x ≤ qSnap c pentaTable y ∧ qSnap c minorTable x ≤ qSnap c minorTable y

/-- R232: the bounds of every intermediate of classes 5 and 6, for every well-formed configuration and every code;
what the quantizers answer fits in 16 signed bits.  The spec derives: R232. -/
def Obligations.ArithmeticWidths : Prop :=
  ∀ (c : Cfg) (x : Nat) (table : ScaleTable) (r : PotRange), c.wf = true → x ≤ 4095 → table ∈ c.scaleTable →
    12 ≤ c.spo ∧ c.spo ≤ 819 ∧
    (let dev : Int := x - c.mid
     let semis := qD2S c dev
     let snapped := snapSemis table semis
     |dev| ≤ 4095 ∧ |dev * 12| + c.spo / 2 < 2 ^ 16 ∧ |semis| ≤ 4095 ∧ |snapped - semis| ≤ 12 ∧
     |snapped * c.spo| + 6 ≤ 12 * 4095 + c.spo / 2 + 12 * c.spo + 6 ∧
     12 * 4095 + c.spo / 2 + 12 * c.spo + 6 < 2 ^ 16 ∧
     |qS2D c semis| ≤ 4095 + c.spo + c.spo / 24 + 1 ∧ |qS2D c snapped| ≤ 4095 + c.spo + c.spo / 24 + 1 ∧
     4095 + c.spo + c.spo / 24 + 1 < 2 ^ 13 ∧
     |dev| * targetSpan c r ≤ 4095 * 4095 ∧ 4095 * 4095 < 2 ^ 24 ∧
     |qChrom c x| < 2 ^ 15 ∧ |qSnap c table x| < 2 ^ 15)

/-! ### Rescaler -/

/-- R240: `R.SCALE` scales the magnitude of the deviation by `RANGE_OCT × SPO / 4096`, truncated, and keeps its sign;
the midpoint stays, and equal deviations to both sides stay equal.  Where the word's value is held is the model's
(assumption 5).  The spec marks as its own decisions: R240 (D14). -/
def Obligations.RescaleWord : Prop :=
  ∀ (s : State) (r : PotRange) (code : Code), s.cfg.wf = true →
    (let span := (match r with | .oct1 => 1 | .oct2 => 2 | .oct5 => 5) * s.cfg.spo
     ∃ t, exec (.rScale r code) s = .next t ∧
       (s.cfg.mid ≤ code.toNat →
         t.lastValue = some (.int (s.cfg.mid + ((code.toNat - s.cfg.mid) * span / 4096 : Nat)))) ∧
       (code.toNat < s.cfg.mid →
         t.lastValue = some (.int (s.cfg.mid - ((s.cfg.mid - code.toNat) * span / 4096 : Nat))))) ∧
    rScale s.cfg r s.cfg.mid = s.cfg.mid ∧
    (∀ d : Nat, d ≤ s.cfg.mid → rScale s.cfg r (s.cfg.mid + d) - s.cfg.mid = -(rScale s.cfg r (s.cfg.mid - d) - s.cfg.mid))

/-- R241: the rescaled code lies between the code and the midpoint, so in `0 .. 4095`, and does not decrease as the
code grows; and the ends of the image under TC0.  The spec derives: R241. -/
def Obligations.RescaleRange : Prop :=
  (∀ (c : Cfg) (r : PotRange) (x : Nat), c.wf = true → x ≤ 4095 →
    (c.mid ≤ x → (c.mid : Int) ≤ rScale c r x ∧ rScale c r x ≤ x) ∧
    (x ≤ c.mid → (x : Int) ≤ rScale c r x ∧ rScale c r x ≤ c.mid) ∧
    0 ≤ rScale c r x ∧ rScale c r x ≤ 4095 ∧
    ∀ y : Nat, x ≤ y → y ≤ 4095 → rScale c r x ≤ rScale c r y) ∧
  rScale .tc0 .oct1 0 = 1946 ∧ rScale .tc0 .oct1 4095 = 2150 ∧ rScale .tc0 .oct2 0 = 1843 ∧
  rScale .tc0 .oct2 4095 = 2252 ∧ rScale .tc0 .oct5 0 = 1536 ∧ rScale .tc0 .oct5 4095 = 2560

/-! ### Main loop -/

/-- R251, R252, R253: `L.POLLSW` copies the two mode switches, and enters or leaves external-trigger mode where the
clock switch differs from it: entering cancels the beat alarm and enables the pulse edge, leaving masks the edge and
arms the Trigger phase at once.  The two transitions by themselves do the same.  The spec marks as its own decisions:
R251 (D19), R253 (D25). -/
def Obligations.SwitchPoll : Prop :=
  ∀ s : State, s.powered = true →
    (s.pinLevel.extClkEn = s.externalTrigger →
      exec .lPollsw s = .next { s.noted 0x70000000#32 with
        potMode := s.pinLevel.potModeSw, quantizeMode := s.pinLevel.qmodeSel, lpos := .mode }) ∧
    (s.pinLevel.extClkEn = true → s.externalTrigger = false →
      exec .lPollsw s = .next { s.noted 0x70000000#32 with
        alarm := { s.alarm with beat := none }, edgeEn := { s.edgeEn with xtR := true }, externalTrigger := true
        potMode := s.pinLevel.potModeSw, quantizeMode := s.pinLevel.qmodeSel, lpos := .mode }) ∧
    (s.pinLevel.extClkEn = false → s.externalTrigger = true →
      exec .lPollsw s = .next { s.noted 0x70000000#32 with
        alarm := { s.alarm with beat := some ⟨.trigger, s.nowUs⟩ }, edgeEn := { s.edgeEn with xtR := false }
        externalTrigger := false
        potMode := s.pinLevel.potModeSw, quantizeMode := s.pinLevel.qmodeSel, lpos := .mode }) ∧
    exec .extclkEnter s = .next { s.noted 0x75000000#32 with
      alarm := { s.alarm with beat := none }, edgeEn := { s.edgeEn with xtR := true }, externalTrigger := true } ∧
    exec .extclkLeave s = .next { s.noted 0x76000000#32 with
      alarm := { s.alarm with beat := some ⟨.trigger, s.nowUs⟩ }, edgeEn := { s.edgeEn with xtR := false }
      externalTrigger := false }

/-- R254, R255, R256: a toggle acts where its flag is set, clears the flag, and moves `lpos` on; where it is not, only
`lpos` changes.  The scale and the range go round their cycles.  `L.STEP` starts the pipeline where a trigger is
pending, which stays pending (R257).  The spec marks as its own decisions: R254 (D22), R255 (D22), R256 (D22, D23). -/
def Obligations.PollOperations : Prop :=
  ∀ s : State, s.powered = true → s.cfg.wf = true →
    exec .lMode s = .next { s.noted 0x71000000#32 with
      recording := s.recording ^^ s.modeTogglePending, modeTogglePending := false, lpos := .scale } ∧
    (∃ scale : BitVec 4, exec .lScale s = .next { s.noted 0x72000000#32 with
        activeScale := scale, scaleTogglePending := false, lpos := .range } ∧
      scale.toNat =
        if s.scaleTogglePending then (s.activeScale.toNat + 1) % s.cfg.scaleTable.length else s.activeScale.toNat) ∧
    (∃ range : PotRange, exec .lRange s = .next { s.noted 0x73000000#32 with
        potRange := range, rangeTogglePending := false, lpos := .step } ∧
      range.number.toNat =
        if s.rangeTogglePending then (s.potRange.number.toNat + 1) % 3 else s.potRange.number.toNat) ∧
    exec .lStep s = .next { s.noted 0x74000000#32 with
      seq := if s.triggerPending then .s1 else s.seq, lpos := .pollsw }

/-! ### Who writes what -/

/-- R258, R29, R306: no operation of MAIN sets a pending flag or writes `tempo_delay_ms` or `mode_button_press_time`.
`MUX.SETTLE` is left to MuxSettleWaits: it lets the callbacks run.  The spec derives: R29. -/
def Obligations.MainSetsNoFlag : Prop :=
  ∀ (i : Instr) (s t : State), i.agent = .main → i ≠ .muxSettle → exec i s = .next t →
    (t.triggerPending = true → s.triggerPending = true) ∧
    (t.modeTogglePending = true → s.modeTogglePending = true) ∧
    (t.scaleTogglePending = true → s.scaleTogglePending = true) ∧
    (t.rangeTogglePending = true → s.rangeTogglePending = true) ∧
    t.tempoDelayMs = s.tempoDelayMs ∧ t.modeButtonPressTime = s.modeButtonPressTime

/-- R258, R299, R43, R21: only MAIN writes the memory, its index, the mode fields, the multiplexer lines and the bus.
No other operation but `RESET`, and `LOOP`, which lets MAIN run, changes them, or MAIN's position and latches.  Of
MAIN's own operations only `STEP.S4` writes the memory, at `memory_index`.  The spec marks as its own decisions: R299
(D24), R21 (D6). -/
def Obligations.OnlyMainWrites : Prop :=
  ∀ (i : Instr) (s t : State), i ≠ .reset → exec i s = .next t →
    (i.agent ≠ .main → i ≠ .loop →
      t.memory = s.memory ∧ t.memoryIndex = s.memoryIndex ∧
      t.recording = s.recording ∧ t.externalTrigger = s.externalTrigger ∧ t.quantizeMode = s.quantizeMode ∧
      t.activeScale = s.activeScale ∧ t.potMode = s.potMode ∧ t.potRange = s.potRange ∧
      t.muxA = s.muxA ∧ t.muxInh0 = s.muxInh0 ∧ t.muxInh1 = s.muxInh1 ∧ t.muxSetTime = s.muxSetTime ∧
      t.outtrace = s.outtrace ∧ t.seq = s.seq ∧ t.lpos = s.lpos ∧ t.sSample = s.sSample ∧ t.sOut = s.sOut) ∧
    (i ≠ .stepS4 → i ≠ .loop → t.memory = s.memory) ∧
    (s.memory.wf = true → ∀ a : Nat, a ≠ s.memoryIndex.toNat → t.memory.read a = s.memory.read a)

/-- R291, R292: the fault bits are sticky and only `RESET` clears them; with a 4-bit index nothing sets `F_INDEX`;
only `STEP.S6`, by itself or in a `LOOP`, sets `F_DACRANGE`; and "no later operation reads `S.fault`": an operation
runs alike whatever bits are set before it.  The spec marks as its own decisions: R291 (D12), R292 (D12). -/
def Obligations.FaultsSticky : Prop :=
  ∀ (i : Instr) (s t : State), s.cfg.wf = true → exec i s = .next t →
    (i ≠ .reset → t.fault.index = s.fault.index ∧ (s.fault.dacRange = true → t.fault.dacRange = true)) ∧
    (i ≠ .reset → i ≠ .stepS6 → i ≠ .loop → t.fault = s.fault) ∧
    ∀ f : FaultBits, ∃ g : FaultBits, exec i { s with fault := f } = .next { t with fault := g }

/-- R91: a pure-function word changes nothing but the trace, which an unpowered engine does not have (R39, R41).
Where its value is held is the model's (assumption 5).  The spec marks as its own decisions: R91 (D1), R39 (D33), R41
(D29). -/
def Obligations.FunctionWords : Prop :=
  ∀ (i : Instr) (s t : State), i.agent = .function → exec i s = .next t →
    t = { s with
      optrace := if s.powered then s.optrace ++ [(s.nowUs, encode i)] else s.optrace
      lastValue := t.lastValue }

/-- R39, R70: the history only grows, at times that do not run backwards: but for `RESET`, what stood in the traces
stands there, and `now_us` does not decrease (R33).  The spec marks as its own decisions: R39 (D33), R33 (D2, D3). -/
def Obligations.HistoryGrows : Prop :=
  ∀ (i : Instr) (s t : State), i ≠ .reset → exec i s = .next t →
    s.optrace <+: t.optrace ∧ s.outtrace <+: t.outtrace ∧ s.nowUs ≤ t.nowUs

/-! ### Invariants and the general relation -/

/-- The invariant of Safety.lean holds after reset (R334; TC0 and all pins low are the model's choice, assumption 1).
The spec derives: R334. -/
def Obligations.ResetInv : Prop := Inv State.reset

/-- R21, R32, R35, R42, R90, R113, R148, R190, R276, R292: every step keeps the invariant, from every state that has
it, for every well-formed configuration, script word and turn of MAIN.  The turns are the model's (assumption 4).  The
spec marks as its own decisions: R21 (D6), R42 (D29), R90 (D38), R113 (D35), R276 (D4), R292 (D12).  The spec derives:
R148. -/
def Obligations.StepKeepsInv : Prop := ∀ s t : State, Inv s → step s = .next t → Inv t

/-- R276, R291, D37: from a state with the invariant no step ends in a fault of the machine: the dispatch of callbacks
always comes to an end; and a powered engine's turn of MAIN always answers a next state, also where R277 (c) holds
MAIN (MainTurn says which).  The fault and the turns are the model's (assumptions 12 and 4).  The spec marks as its
own decisions: R276 (D4), R291 (D12). -/
def Obligations.StepNeverStuck : Prop :=
  ∀ s : State, Inv s → (∀ r : Fault, step s ≠ .fault r) ∧
    (∀ rest, s.powered = true → s.agenda = .main :: rest → ∃ t, step s = .next t)

/-- R277: the reference schedule is a path through the general relation: what a `LOOP` or an `ADV` of a script does is
a run of single moves of MAIN and of time, after the note of the word in the history.  The note is no move of the
hardware but the model's bookkeeping (assumption 19).  The spec marks as its own decisions: R277 (D3, D5, D31). -/
def Obligations.ScheduleIsGeneralRun : Prop :=
  ∀ (i : Instr) (s t : State), s.powered = true → s.cfg.wf = true → EngineInv s →
    i = .loop ∨ (∃ d, i = .adv d) → exec i s = .next t → GenRun s t
end

