-- ==== Sys2Proof/Laws/Arith.lean ====
section
/-! SUPPORT. The division primitives of spec/00_scope.md R13. -/

namespace Sys2Proof.Machine

/-- `fdiv(a, b)` is "the largest integer `q` with `q × b ≤ a`". -/
theorem fdiv_spec (a b : Int) (hb : 0 < b) : fdiv a b * b ≤ a ∧ ∀ q, q * b ≤ a → q ≤ fdiv a b :=
  ⟨Int.ediv_mul_le a hb.ne', fun _ h => (Int.le_ediv_iff_mul_le hb).2 h⟩

theorem fdiv_lt (a b : Int) (hb : 0 < b) : a < (fdiv a b + 1) * b := Int.lt_ediv_add_one_mul_self a hb

/-- `fmod(a, b)` is "always in `0 .. b−1`". -/
theorem fmod_range (a b : Int) (hb : 0 < b) : 0 ≤ fmod a b ∧ fmod a b < b := by
  have h1 := (fdiv_spec a b hb).1
  have h2 := fdiv_lt a b hb
  have h3 : b * fdiv a b = fdiv a b * b := Int.mul_comm _ _
  have h4 : (fdiv a b + 1) * b = fdiv a b * b + b := by rw [Int.add_mul, Int.one_mul]
  unfold fmod
  omega

theorem fdiv_add_fmod (a b : Int) : b * fdiv a b + fmod a b = a := by unfold fmod; omega

theorem rdiv_of_nonneg (n : Int) (d : Nat) (h : 0 ≤ n) : rdiv n d = fdiv (n + (d / 2 : Nat)) d := by
  simp [rdiv, h]

theorem rdiv_of_neg (n : Int) (d : Nat) (h : n < 0) : rdiv n d = -fdiv (-n + (d / 2 : Nat)) d := by
  simp [rdiv, not_le.2 h]

/-- R13: "`rdiv(−n, d) = −rdiv(n, d)` for every `n`". -/
theorem rdiv_neg (n : Int) (d : Nat) (hd : 0 < d) : rdiv (-n) d = -rdiv n d := by
  rcases lt_trichotomy n 0 with h | rfl | h
  · rw [rdiv_of_nonneg _ _ (by omega), rdiv_of_neg _ _ h, neg_neg]
  · have hz : rdiv 0 d = 0 := by
      rw [rdiv_of_nonneg _ _ le_rfl, zero_add]
      exact Int.ediv_eq_zero_of_lt (by omega) (by omega)
    rw [neg_zero, hz, neg_zero]
  · rw [rdiv_of_neg _ _ (by omega), rdiv_of_nonneg _ _ h.le, neg_neg]

theorem distance_comm (m n : Nat) : distance m n = distance n m := by unfold distance; omega

/-- `distance` is `abs` of the difference. -/
theorem distance_eq_natAbs (m n : Nat) : distance m n = ((m : Int) - n).natAbs := by unfold distance; omega

end Sys2Proof.Machine
end

