-- ==== Sys2Proof/Laws/State.lean ====
section
/-! SUPPORT. What each named update of the state does to each field: one lemma per field per update, so that no
later proof unfolds a record update. -/

namespace Sys2Proof.Machine

variable (s : State)

/-! ### `record` -/

@[simp] theorem record_cfg (i : Instr) : (s.record i).cfg = s.cfg := by unfold State.record; split <;> rfl
@[simp] theorem record_memory (i : Instr) : (s.record i).memory = s.memory := by unfold State.record; split <;> rfl
@[simp] theorem record_memoryIndex (i : Instr) : (s.record i).memoryIndex = s.memoryIndex := by unfold State.record; split <;> rfl
@[simp] theorem record_recording (i : Instr) : (s.record i).recording = s.recording := by unfold State.record; split <;> rfl
@[simp] theorem record_externalTrigger (i : Instr) : (s.record i).externalTrigger = s.externalTrigger := by unfold State.record; split <;> rfl
@[simp] theorem record_tempoDelayMs (i : Instr) : (s.record i).tempoDelayMs = s.tempoDelayMs := by unfold State.record; split <;> rfl
@[simp] theorem record_quantizeMode (i : Instr) : (s.record i).quantizeMode = s.quantizeMode := by unfold State.record; split <;> rfl
@[simp] theorem record_activeScale (i : Instr) : (s.record i).activeScale = s.activeScale := by unfold State.record; split <;> rfl
@[simp] theorem record_potMode (i : Instr) : (s.record i).potMode = s.potMode := by unfold State.record; split <;> rfl
@[simp] theorem record_potRange (i : Instr) : (s.record i).potRange = s.potRange := by unfold State.record; split <;> rfl
@[simp] theorem record_triggerPending (i : Instr) : (s.record i).triggerPending = s.triggerPending := by unfold State.record; split <;> rfl
@[simp] theorem record_modeTogglePending (i : Instr) : (s.record i).modeTogglePending = s.modeTogglePending := by unfold State.record; split <;> rfl
@[simp] theorem record_scaleTogglePending (i : Instr) : (s.record i).scaleTogglePending = s.scaleTogglePending := by unfold State.record; split <;> rfl
@[simp] theorem record_rangeTogglePending (i : Instr) : (s.record i).rangeTogglePending = s.rangeTogglePending := by unfold State.record; split <;> rfl
@[simp] theorem record_modeButtonPressTime (i : Instr) : (s.record i).modeButtonPressTime = s.modeButtonPressTime := by unfold State.record; split <;> rfl
@[simp] theorem record_seq (i : Instr) : (s.record i).seq = s.seq := by unfold State.record; split <;> rfl
@[simp] theorem record_lpos (i : Instr) : (s.record i).lpos = s.lpos := by unfold State.record; split <;> rfl
@[simp] theorem record_sSample (i : Instr) : (s.record i).sSample = s.sSample := by unfold State.record; split <;> rfl
@[simp] theorem record_sOut (i : Instr) : (s.record i).sOut = s.sOut := by unfold State.record; split <;> rfl
@[simp] theorem record_nowUs (i : Instr) : (s.record i).nowUs = s.nowUs := by unfold State.record; split <;> rfl
@[simp] theorem record_pinLevel (i : Instr) : (s.record i).pinLevel = s.pinLevel := by unfold State.record; split <;> rfl
@[simp] theorem record_edgeEn (i : Instr) : (s.record i).edgeEn = s.edgeEn := by unfold State.record; split <;> rfl
@[simp] theorem record_alarm (i : Instr) : (s.record i).alarm = s.alarm := by unfold State.record; split <;> rfl
@[simp] theorem record_adcSel (i : Instr) : (s.record i).adcSel = s.adcSel := by unfold State.record; split <;> rfl
@[simp] theorem record_muxA (i : Instr) : (s.record i).muxA = s.muxA := by unfold State.record; split <;> rfl
@[simp] theorem record_muxInh0 (i : Instr) : (s.record i).muxInh0 = s.muxInh0 := by unfold State.record; split <;> rfl
@[simp] theorem record_muxInh1 (i : Instr) : (s.record i).muxInh1 = s.muxInh1 := by unfold State.record; split <;> rfl
@[simp] theorem record_muxSetTime (i : Instr) : (s.record i).muxSetTime = s.muxSetTime := by unfold State.record; split <;> rfl
@[simp] theorem record_trigOut (i : Instr) : (s.record i).trigOut = s.trigOut := by unfold State.record; split <;> rfl
@[simp] theorem record_statusLed (i : Instr) : (s.record i).statusLed = s.statusLed := by unfold State.record; split <;> rfl
@[simp] theorem record_fault (i : Instr) : (s.record i).fault = s.fault := by unfold State.record; split <;> rfl
@[simp] theorem record_powered (i : Instr) : (s.record i).powered = s.powered := by unfold State.record; split <;> rfl
@[simp] theorem record_pinDrive (i : Instr) : (s.record i).pinDrive = s.pinDrive := by unfold State.record; split <;> rfl
@[simp] theorem record_ain (i : Instr) : (s.record i).ain = s.ain := by unfold State.record; split <;> rfl
theorem record_optrace (i : Instr) (h : s.powered = true) :
    (s.record i).optrace = s.optrace ++ [(s.nowUs, encode i)] := by simp [State.record, h]
theorem record_of_powered (i : Instr) (h : s.powered = true) :
    s.record i = { s with optrace := s.optrace ++ [(s.nowUs, encode i)] } := by simp [State.record, h]
@[simp] theorem record_of_unpowered (i : Instr) (h : s.powered = false) : s.record i = s := by
  simp [State.record, h]
@[simp] theorem record_outtrace (i : Instr) : (s.record i).outtrace = s.outtrace := by unfold State.record; split <;> rfl
@[simp] theorem record_agenda (i : Instr) : (s.record i).agenda = s.agenda := by unfold State.record; split <;> rfl
@[simp] theorem record_freeCount (i : Instr) : (s.record i).freeCount = s.freeCount := by unfold State.record; split <;> rfl
@[simp] theorem record_lastValue (i : Instr) : (s.record i).lastValue = s.lastValue := by unfold State.record; split <;> rfl

/-! ### `emit` -/

@[simp] theorem emit_cfg (ev : OutEvent) : (s.emit ev).cfg = s.cfg := rfl
@[simp] theorem emit_memory (ev : OutEvent) : (s.emit ev).memory = s.memory := rfl
@[simp] theorem emit_memoryIndex (ev : OutEvent) : (s.emit ev).memoryIndex = s.memoryIndex := rfl
@[simp] theorem emit_recording (ev : OutEvent) : (s.emit ev).recording = s.recording := rfl
@[simp] theorem emit_externalTrigger (ev : OutEvent) : (s.emit ev).externalTrigger = s.externalTrigger := rfl
@[simp] theorem emit_tempoDelayMs (ev : OutEvent) : (s.emit ev).tempoDelayMs = s.tempoDelayMs := rfl
@[simp] theorem emit_quantizeMode (ev : OutEvent) : (s.emit ev).quantizeMode = s.quantizeMode := rfl
@[simp] theorem emit_activeScale (ev : OutEvent) : (s.emit ev).activeScale = s.activeScale := rfl
@[simp] theorem emit_potMode (ev : OutEvent) : (s.emit ev).potMode = s.potMode := rfl
@[simp] theorem emit_potRange (ev : OutEvent) : (s.emit ev).potRange = s.potRange := rfl
@[simp] theorem emit_triggerPending (ev : OutEvent) : (s.emit ev).triggerPending = s.triggerPending := rfl
@[simp] theorem emit_modeTogglePending (ev : OutEvent) :
    (s.emit ev).modeTogglePending = s.modeTogglePending := rfl
@[simp] theorem emit_scaleTogglePending (ev : OutEvent) :
    (s.emit ev).scaleTogglePending = s.scaleTogglePending := rfl
@[simp] theorem emit_rangeTogglePending (ev : OutEvent) :
    (s.emit ev).rangeTogglePending = s.rangeTogglePending := rfl
@[simp] theorem emit_modeButtonPressTime (ev : OutEvent) :
    (s.emit ev).modeButtonPressTime = s.modeButtonPressTime := rfl
@[simp] theorem emit_seq (ev : OutEvent) : (s.emit ev).seq = s.seq := rfl
@[simp] theorem emit_lpos (ev : OutEvent) : (s.emit ev).lpos = s.lpos := rfl
@[simp] theorem emit_sSample (ev : OutEvent) : (s.emit ev).sSample = s.sSample := rfl
@[simp] theorem emit_sOut (ev : OutEvent) : (s.emit ev).sOut = s.sOut := rfl
@[simp] theorem emit_nowUs (ev : OutEvent) : (s.emit ev).nowUs = s.nowUs := rfl
@[simp] theorem emit_pinLevel (ev : OutEvent) : (s.emit ev).pinLevel = s.pinLevel := rfl
@[simp] theorem emit_edgeEn (ev : OutEvent) : (s.emit ev).edgeEn = s.edgeEn := rfl
@[simp] theorem emit_alarm (ev : OutEvent) : (s.emit ev).alarm = s.alarm := rfl
@[simp] theorem emit_adcSel (ev : OutEvent) : (s.emit ev).adcSel = s.adcSel := rfl
@[simp] theorem emit_muxA (ev : OutEvent) : (s.emit ev).muxA = s.muxA := rfl
@[simp] theorem emit_muxInh0 (ev : OutEvent) : (s.emit ev).muxInh0 = s.muxInh0 := rfl
@[simp] theorem emit_muxInh1 (ev : OutEvent) : (s.emit ev).muxInh1 = s.muxInh1 := rfl
@[simp] theorem emit_muxSetTime (ev : OutEvent) : (s.emit ev).muxSetTime = s.muxSetTime := rfl
@[simp] theorem emit_trigOut (ev : OutEvent) : (s.emit ev).trigOut = s.trigOut := rfl
@[simp] theorem emit_statusLed (ev : OutEvent) : (s.emit ev).statusLed = s.statusLed := rfl
@[simp] theorem emit_fault (ev : OutEvent) : (s.emit ev).fault = s.fault := rfl
@[simp] theorem emit_powered (ev : OutEvent) : (s.emit ev).powered = s.powered := rfl
@[simp] theorem emit_pinDrive (ev : OutEvent) : (s.emit ev).pinDrive = s.pinDrive := rfl
@[simp] theorem emit_ain (ev : OutEvent) : (s.emit ev).ain = s.ain := rfl
@[simp] theorem emit_optrace (ev : OutEvent) : (s.emit ev).optrace = s.optrace := rfl
@[simp] theorem emit_outtrace (ev : OutEvent) : (s.emit ev).outtrace = s.outtrace ++ [(s.nowUs, ev)] := rfl
@[simp] theorem emit_agenda (ev : OutEvent) : (s.emit ev).agenda = s.agenda := rfl
@[simp] theorem emit_freeCount (ev : OutEvent) : (s.emit ev).freeCount = s.freeCount := rfl
@[simp] theorem emit_lastValue (ev : OutEvent) : (s.emit ev).lastValue = s.lastValue := rfl

/-! ### `drawn` -/

@[simp] theorem drawn_cfg : (s.drawn).cfg = s.cfg := rfl
@[simp] theorem drawn_memory : (s.drawn).memory = s.memory := rfl
@[simp] theorem drawn_memoryIndex : (s.drawn).memoryIndex = s.memoryIndex := rfl
@[simp] theorem drawn_recording : (s.drawn).recording = s.recording := rfl
@[simp] theorem drawn_externalTrigger : (s.drawn).externalTrigger = s.externalTrigger := rfl
@[simp] theorem drawn_tempoDelayMs : (s.drawn).tempoDelayMs = s.tempoDelayMs := rfl
@[simp] theorem drawn_quantizeMode : (s.drawn).quantizeMode = s.quantizeMode := rfl
@[simp] theorem drawn_activeScale : (s.drawn).activeScale = s.activeScale := rfl
@[simp] theorem drawn_potMode : (s.drawn).potMode = s.potMode := rfl
@[simp] theorem drawn_potRange : (s.drawn).potRange = s.potRange := rfl
@[simp] theorem drawn_triggerPending : (s.drawn).triggerPending = s.triggerPending := rfl
@[simp] theorem drawn_modeTogglePending : (s.drawn).modeTogglePending = s.modeTogglePending := rfl
@[simp] theorem drawn_scaleTogglePending : (s.drawn).scaleTogglePending = s.scaleTogglePending := rfl
@[simp] theorem drawn_rangeTogglePending : (s.drawn).rangeTogglePending = s.rangeTogglePending := rfl
@[simp] theorem drawn_modeButtonPressTime : (s.drawn).modeButtonPressTime = s.modeButtonPressTime := rfl
@[simp] theorem drawn_seq : (s.drawn).seq = s.seq := rfl
@[simp] theorem drawn_lpos : (s.drawn).lpos = s.lpos := rfl
@[simp] theorem drawn_sSample : (s.drawn).sSample = s.sSample := rfl
@[simp] theorem drawn_sOut : (s.drawn).sOut = s.sOut := rfl
@[simp] theorem drawn_nowUs : (s.drawn).nowUs = s.nowUs := rfl
@[simp] theorem drawn_pinLevel : (s.drawn).pinLevel = s.pinLevel := rfl
@[simp] theorem drawn_edgeEn : (s.drawn).edgeEn = s.edgeEn := rfl
@[simp] theorem drawn_alarm : (s.drawn).alarm = s.alarm := rfl
@[simp] theorem drawn_adcSel : (s.drawn).adcSel = s.adcSel := rfl
@[simp] theorem drawn_muxA : (s.drawn).muxA = s.muxA := rfl
@[simp] theorem drawn_muxInh0 : (s.drawn).muxInh0 = s.muxInh0 := rfl
@[simp] theorem drawn_muxInh1 : (s.drawn).muxInh1 = s.muxInh1 := rfl
@[simp] theorem drawn_muxSetTime : (s.drawn).muxSetTime = s.muxSetTime := rfl
@[simp] theorem drawn_trigOut : (s.drawn).trigOut = s.trigOut := rfl
@[simp] theorem drawn_statusLed : (s.drawn).statusLed = s.statusLed := rfl
@[simp] theorem drawn_fault : (s.drawn).fault = s.fault := rfl
@[simp] theorem drawn_powered : (s.drawn).powered = s.powered := rfl
@[simp] theorem drawn_pinDrive : (s.drawn).pinDrive = s.pinDrive := rfl
@[simp] theorem drawn_ain : (s.drawn).ain = s.ain := rfl
@[simp] theorem drawn_optrace : (s.drawn).optrace = s.optrace := rfl
@[simp] theorem drawn_outtrace : (s.drawn).outtrace = s.outtrace := rfl
@[simp] theorem drawn_agenda : (s.drawn).agenda = s.agenda := rfl
@[simp] theorem drawn_freeCount : (s.drawn).freeCount = s.freeCount + 1 := rfl
@[simp] theorem drawn_lastValue : (s.drawn).lastValue = s.lastValue := rfl

/-! ### `raiseIndexRange` -/

@[simp] theorem raiseIndexRange_cfg : (s.raiseIndexRange).cfg = s.cfg := rfl
@[simp] theorem raiseIndexRange_memory : (s.raiseIndexRange).memory = s.memory := rfl
@[simp] theorem raiseIndexRange_memoryIndex : (s.raiseIndexRange).memoryIndex = s.memoryIndex := rfl
@[simp] theorem raiseIndexRange_recording : (s.raiseIndexRange).recording = s.recording := rfl
@[simp] theorem raiseIndexRange_externalTrigger : (s.raiseIndexRange).externalTrigger = s.externalTrigger := rfl
@[simp] theorem raiseIndexRange_tempoDelayMs : (s.raiseIndexRange).tempoDelayMs = s.tempoDelayMs := rfl
@[simp] theorem raiseIndexRange_quantizeMode : (s.raiseIndexRange).quantizeMode = s.quantizeMode := rfl
@[simp] theorem raiseIndexRange_activeScale : (s.raiseIndexRange).activeScale = s.activeScale := rfl
@[simp] theorem raiseIndexRange_potMode : (s.raiseIndexRange).potMode = s.potMode := rfl
@[simp] theorem raiseIndexRange_potRange : (s.raiseIndexRange).potRange = s.potRange := rfl
@[simp] theorem raiseIndexRange_triggerPending : (s.raiseIndexRange).triggerPending = s.triggerPending := rfl
@[simp] theorem raiseIndexRange_modeTogglePending :
    (s.raiseIndexRange).modeTogglePending = s.modeTogglePending := rfl
@[simp] theorem raiseIndexRange_scaleTogglePending :
    (s.raiseIndexRange).scaleTogglePending = s.scaleTogglePending := rfl
@[simp] theorem raiseIndexRange_rangeTogglePending :
    (s.raiseIndexRange).rangeTogglePending = s.rangeTogglePending := rfl
@[simp] theorem raiseIndexRange_modeButtonPressTime :
    (s.raiseIndexRange).modeButtonPressTime = s.modeButtonPressTime := rfl
@[simp] theorem raiseIndexRange_seq : (s.raiseIndexRange).seq = s.seq := rfl
@[simp] theorem raiseIndexRange_lpos : (s.raiseIndexRange).lpos = s.lpos := rfl
@[simp] theorem raiseIndexRange_sSample : (s.raiseIndexRange).sSample = s.sSample := rfl
@[simp] theorem raiseIndexRange_sOut : (s.raiseIndexRange).sOut = s.sOut := rfl
@[simp] theorem raiseIndexRange_nowUs : (s.raiseIndexRange).nowUs = s.nowUs := rfl
@[simp] theorem raiseIndexRange_pinLevel : (s.raiseIndexRange).pinLevel = s.pinLevel := rfl
@[simp] theorem raiseIndexRange_edgeEn : (s.raiseIndexRange).edgeEn = s.edgeEn := rfl
@[simp] theorem raiseIndexRange_alarm : (s.raiseIndexRange).alarm = s.alarm := rfl
@[simp] theorem raiseIndexRange_adcSel : (s.raiseIndexRange).adcSel = s.adcSel := rfl
@[simp] theorem raiseIndexRange_muxA : (s.raiseIndexRange).muxA = s.muxA := rfl
@[simp] theorem raiseIndexRange_muxInh0 : (s.raiseIndexRange).muxInh0 = s.muxInh0 := rfl
@[simp] theorem raiseIndexRange_muxInh1 : (s.raiseIndexRange).muxInh1 = s.muxInh1 := rfl
@[simp] theorem raiseIndexRange_muxSetTime : (s.raiseIndexRange).muxSetTime = s.muxSetTime := rfl
@[simp] theorem raiseIndexRange_trigOut : (s.raiseIndexRange).trigOut = s.trigOut := rfl
@[simp] theorem raiseIndexRange_statusLed : (s.raiseIndexRange).statusLed = s.statusLed := rfl
@[simp] theorem raiseIndexRange_fault : (s.raiseIndexRange).fault = { s.fault with index := true } := rfl
@[simp] theorem raiseIndexRange_powered : (s.raiseIndexRange).powered = s.powered := rfl
@[simp] theorem raiseIndexRange_pinDrive : (s.raiseIndexRange).pinDrive = s.pinDrive := rfl
@[simp] theorem raiseIndexRange_ain : (s.raiseIndexRange).ain = s.ain := rfl
@[simp] theorem raiseIndexRange_optrace : (s.raiseIndexRange).optrace = s.optrace := rfl
@[simp] theorem raiseIndexRange_outtrace : (s.raiseIndexRange).outtrace = s.outtrace := rfl
@[simp] theorem raiseIndexRange_agenda : (s.raiseIndexRange).agenda = s.agenda := rfl
@[simp] theorem raiseIndexRange_freeCount : (s.raiseIndexRange).freeCount = s.freeCount := rfl
@[simp] theorem raiseIndexRange_lastValue : (s.raiseIndexRange).lastValue = s.lastValue := rfl

/-! ### `raiseDacRange` -/

@[simp] theorem raiseDacRange_cfg : (s.raiseDacRange).cfg = s.cfg := rfl
@[simp] theorem raiseDacRange_memory : (s.raiseDacRange).memory = s.memory := rfl
@[simp] theorem raiseDacRange_memoryIndex : (s.raiseDacRange).memoryIndex = s.memoryIndex := rfl
@[simp] theorem raiseDacRange_recording : (s.raiseDacRange).recording = s.recording := rfl
@[simp] theorem raiseDacRange_externalTrigger : (s.raiseDacRange).externalTrigger = s.externalTrigger := rfl
@[simp] theorem raiseDacRange_tempoDelayMs : (s.raiseDacRange).tempoDelayMs = s.tempoDelayMs := rfl
@[simp] theorem raiseDacRange_quantizeMode : (s.raiseDacRange).quantizeMode = s.quantizeMode := rfl
@[simp] theorem raiseDacRange_activeScale : (s.raiseDacRange).activeScale = s.activeScale := rfl
@[simp] theorem raiseDacRange_potMode : (s.raiseDacRange).potMode = s.potMode := rfl
@[simp] theorem raiseDacRange_potRange : (s.raiseDacRange).potRange = s.potRange := rfl
@[simp] theorem raiseDacRange_triggerPending : (s.raiseDacRange).triggerPending = s.triggerPending := rfl
@[simp] theorem raiseDacRange_modeTogglePending :
    (s.raiseDacRange).modeTogglePending = s.modeTogglePending := rfl
@[simp] theorem raiseDacRange_scaleTogglePending :
    (s.raiseDacRange).scaleTogglePending = s.scaleTogglePending := rfl
@[simp] theorem raiseDacRange_rangeTogglePending :
    (s.raiseDacRange).rangeTogglePending = s.rangeTogglePending := rfl
@[simp] theorem raiseDacRange_modeButtonPressTime :
    (s.raiseDacRange).modeButtonPressTime = s.modeButtonPressTime := rfl
@[simp] theorem raiseDacRange_seq : (s.raiseDacRange).seq = s.seq := rfl
@[simp] theorem raiseDacRange_lpos : (s.raiseDacRange).lpos = s.lpos := rfl
@[simp] theorem raiseDacRange_sSample : (s.raiseDacRange).sSample = s.sSample := rfl
@[simp] theorem raiseDacRange_sOut : (s.raiseDacRange).sOut = s.sOut := rfl
@[simp] theorem raiseDacRange_nowUs : (s.raiseDacRange).nowUs = s.nowUs := rfl
@[simp] theorem raiseDacRange_pinLevel : (s.raiseDacRange).pinLevel = s.pinLevel := rfl
@[simp] theorem raiseDacRange_edgeEn : (s.raiseDacRange).edgeEn = s.edgeEn := rfl
@[simp] theorem raiseDacRange_alarm : (s.raiseDacRange).alarm = s.alarm := rfl
@[simp] theorem raiseDacRange_adcSel : (s.raiseDacRange).adcSel = s.adcSel := rfl
@[simp] theorem raiseDacRange_muxA : (s.raiseDacRange).muxA = s.muxA := rfl
@[simp] theorem raiseDacRange_muxInh0 : (s.raiseDacRange).muxInh0 = s.muxInh0 := rfl
@[simp] theorem raiseDacRange_muxInh1 : (s.raiseDacRange).muxInh1 = s.muxInh1 := rfl
@[simp] theorem raiseDacRange_muxSetTime : (s.raiseDacRange).muxSetTime = s.muxSetTime := rfl
@[simp] theorem raiseDacRange_trigOut : (s.raiseDacRange).trigOut = s.trigOut := rfl
@[simp] theorem raiseDacRange_statusLed : (s.raiseDacRange).statusLed = s.statusLed := rfl
@[simp] theorem raiseDacRange_fault : (s.raiseDacRange).fault = { s.fault with dacRange := true } := rfl
@[simp] theorem raiseDacRange_powered : (s.raiseDacRange).powered = s.powered := rfl
@[simp] theorem raiseDacRange_pinDrive : (s.raiseDacRange).pinDrive = s.pinDrive := rfl
@[simp] theorem raiseDacRange_ain : (s.raiseDacRange).ain = s.ain := rfl
@[simp] theorem raiseDacRange_optrace : (s.raiseDacRange).optrace = s.optrace := rfl
@[simp] theorem raiseDacRange_outtrace : (s.raiseDacRange).outtrace = s.outtrace := rfl
@[simp] theorem raiseDacRange_agenda : (s.raiseDacRange).agenda = s.agenda := rfl
@[simp] theorem raiseDacRange_freeCount : (s.raiseDacRange).freeCount = s.freeCount := rfl
@[simp] theorem raiseDacRange_lastValue : (s.raiseDacRange).lastValue = s.lastValue := rfl

/-! ### `schedule` -/

@[simp] theorem schedule_cfg (ev : Event) (ms : Nat) : (s.schedule ev ms).cfg = s.cfg := rfl
@[simp] theorem schedule_memory (ev : Event) (ms : Nat) : (s.schedule ev ms).memory = s.memory := rfl
@[simp] theorem schedule_memoryIndex (ev : Event) (ms : Nat) :
    (s.schedule ev ms).memoryIndex = s.memoryIndex := rfl
@[simp] theorem schedule_recording (ev : Event) (ms : Nat) : (s.schedule ev ms).recording = s.recording := rfl
@[simp] theorem schedule_externalTrigger (ev : Event) (ms : Nat) :
    (s.schedule ev ms).externalTrigger = s.externalTrigger := rfl
@[simp] theorem schedule_tempoDelayMs (ev : Event) (ms : Nat) :
    (s.schedule ev ms).tempoDelayMs = s.tempoDelayMs := rfl
@[simp] theorem schedule_quantizeMode (ev : Event) (ms : Nat) :
    (s.schedule ev ms).quantizeMode = s.quantizeMode := rfl
@[simp] theorem schedule_activeScale (ev : Event) (ms : Nat) :
    (s.schedule ev ms).activeScale = s.activeScale := rfl
@[simp] theorem schedule_potMode (ev : Event) (ms : Nat) : (s.schedule ev ms).potMode = s.potMode := rfl
@[simp] theorem schedule_potRange (ev : Event) (ms : Nat) : (s.schedule ev ms).potRange = s.potRange := rfl
@[simp] theorem schedule_triggerPending (ev : Event) (ms : Nat) :
    (s.schedule ev ms).triggerPending = s.triggerPending := rfl
@[simp] theorem schedule_modeTogglePending (ev : Event) (ms : Nat) :
    (s.schedule ev ms).modeTogglePending = s.modeTogglePending := rfl
@[simp] theorem schedule_scaleTogglePending (ev : Event) (ms : Nat) :
    (s.schedule ev ms).scaleTogglePending = s.scaleTogglePending := rfl
@[simp] theorem schedule_rangeTogglePending (ev : Event) (ms : Nat) :
    (s.schedule ev ms).rangeTogglePending = s.rangeTogglePending := rfl
@[simp] theorem schedule_modeButtonPressTime (ev : Event) (ms : Nat) :
    (s.schedule ev ms).modeButtonPressTime = s.modeButtonPressTime := rfl
@[simp] theorem schedule_seq (ev : Event) (ms : Nat) : (s.schedule ev ms).seq = s.seq := rfl
@[simp] theorem schedule_lpos (ev : Event) (ms : Nat) : (s.schedule ev ms).lpos = s.lpos := rfl
@[simp] theorem schedule_sSample (ev : Event) (ms : Nat) : (s.schedule ev ms).sSample = s.sSample := rfl
@[simp] theorem schedule_sOut (ev : Event) (ms : Nat) : (s.schedule ev ms).sOut = s.sOut := rfl
@[simp] theorem schedule_nowUs (ev : Event) (ms : Nat) : (s.schedule ev ms).nowUs = s.nowUs := rfl
@[simp] theorem schedule_pinLevel (ev : Event) (ms : Nat) : (s.schedule ev ms).pinLevel = s.pinLevel := rfl
@[simp] theorem schedule_edgeEn (ev : Event) (ms : Nat) : (s.schedule ev ms).edgeEn = s.edgeEn := rfl
@[simp] theorem schedule_alarm (ev : Event) (ms : Nat) :
    (s.schedule ev ms).alarm = s.alarm.arm ev (s.nowUs + 1000 * ms) := rfl
@[simp] theorem schedule_adcSel (ev : Event) (ms : Nat) : (s.schedule ev ms).adcSel = s.adcSel := rfl
@[simp] theorem schedule_muxA (ev : Event) (ms : Nat) : (s.schedule ev ms).muxA = s.muxA := rfl
@[simp] theorem schedule_muxInh0 (ev : Event) (ms : Nat) : (s.schedule ev ms).muxInh0 = s.muxInh0 := rfl
@[simp] theorem schedule_muxInh1 (ev : Event) (ms : Nat) : (s.schedule ev ms).muxInh1 = s.muxInh1 := rfl
@[simp] theorem schedule_muxSetTime (ev : Event) (ms : Nat) :
    (s.schedule ev ms).muxSetTime = s.muxSetTime := rfl
@[simp] theorem schedule_trigOut (ev : Event) (ms : Nat) : (s.schedule ev ms).trigOut = s.trigOut := rfl
@[simp] theorem schedule_statusLed (ev : Event) (ms : Nat) : (s.schedule ev ms).statusLed = s.statusLed := rfl
@[simp] theorem schedule_fault (ev : Event) (ms : Nat) : (s.schedule ev ms).fault = s.fault := rfl
@[simp] theorem schedule_powered (ev : Event) (ms : Nat) : (s.schedule ev ms).powered = s.powered := rfl
@[simp] theorem schedule_pinDrive (ev : Event) (ms : Nat) : (s.schedule ev ms).pinDrive = s.pinDrive := rfl
@[simp] theorem schedule_ain (ev : Event) (ms : Nat) : (s.schedule ev ms).ain = s.ain := rfl
@[simp] theorem schedule_optrace (ev : Event) (ms : Nat) : (s.schedule ev ms).optrace = s.optrace := rfl
@[simp] theorem schedule_outtrace (ev : Event) (ms : Nat) : (s.schedule ev ms).outtrace = s.outtrace := rfl
@[simp] theorem schedule_agenda (ev : Event) (ms : Nat) : (s.schedule ev ms).agenda = s.agenda := rfl
@[simp] theorem schedule_freeCount (ev : Event) (ms : Nat) : (s.schedule ev ms).freeCount = s.freeCount := rfl
@[simp] theorem schedule_lastValue (ev : Event) (ms : Nat) : (s.schedule ev ms).lastValue = s.lastValue := rfl

/-! ### `cancel` -/

@[simp] theorem cancel_cfg (slot : Slot) : (s.cancel slot).cfg = s.cfg := rfl
@[simp] theorem cancel_memory (slot : Slot) : (s.cancel slot).memory = s.memory := rfl
@[simp] theorem cancel_memoryIndex (slot : Slot) : (s.cancel slot).memoryIndex = s.memoryIndex := rfl
@[simp] theorem cancel_recording (slot : Slot) : (s.cancel slot).recording = s.recording := rfl
@[simp] theorem cancel_externalTrigger (slot : Slot) :
    (s.cancel slot).externalTrigger = s.externalTrigger := rfl
@[simp] theorem cancel_tempoDelayMs (slot : Slot) : (s.cancel slot).tempoDelayMs = s.tempoDelayMs := rfl
@[simp] theorem cancel_quantizeMode (slot : Slot) : (s.cancel slot).quantizeMode = s.quantizeMode := rfl
@[simp] theorem cancel_activeScale (slot : Slot) : (s.cancel slot).activeScale = s.activeScale := rfl
@[simp] theorem cancel_potMode (slot : Slot) : (s.cancel slot).potMode = s.potMode := rfl
@[simp] theorem cancel_potRange (slot : Slot) : (s.cancel slot).potRange = s.potRange := rfl
@[simp] theorem cancel_triggerPending (slot : Slot) : (s.cancel slot).triggerPending = s.triggerPending := rfl
@[simp] theorem cancel_modeTogglePending (slot : Slot) :
    (s.cancel slot).modeTogglePending = s.modeTogglePending := rfl
@[simp] theorem cancel_scaleTogglePending (slot : Slot) :
    (s.cancel slot).scaleTogglePending = s.scaleTogglePending := rfl
@[simp] theorem cancel_rangeTogglePending (slot : Slot) :
    (s.cancel slot).rangeTogglePending = s.rangeTogglePending := rfl
@[simp] theorem cancel_modeButtonPressTime (slot : Slot) :
    (s.cancel slot).modeButtonPressTime = s.modeButtonPressTime := rfl
@[simp] theorem cancel_seq (slot : Slot) : (s.cancel slot).seq = s.seq := rfl
@[simp] theorem cancel_lpos (slot : Slot) : (s.cancel slot).lpos = s.lpos := rfl
@[simp] theorem cancel_sSample (slot : Slot) : (s.cancel slot).sSample = s.sSample := rfl
@[simp] theorem cancel_sOut (slot : Slot) : (s.cancel slot).sOut = s.sOut := rfl
@[simp] theorem cancel_nowUs (slot : Slot) : (s.cancel slot).nowUs = s.nowUs := rfl
@[simp] theorem cancel_pinLevel (slot : Slot) : (s.cancel slot).pinLevel = s.pinLevel := rfl
@[simp] theorem cancel_edgeEn (slot : Slot) : (s.cancel slot).edgeEn = s.edgeEn := rfl
@[simp] theorem cancel_alarm (slot : Slot) : (s.cancel slot).alarm = s.alarm.disarm slot := rfl
@[simp] theorem cancel_adcSel (slot : Slot) : (s.cancel slot).adcSel = s.adcSel := rfl
@[simp] theorem cancel_muxA (slot : Slot) : (s.cancel slot).muxA = s.muxA := rfl
@[simp] theorem cancel_muxInh0 (slot : Slot) : (s.cancel slot).muxInh0 = s.muxInh0 := rfl
@[simp] theorem cancel_muxInh1 (slot : Slot) : (s.cancel slot).muxInh1 = s.muxInh1 := rfl
@[simp] theorem cancel_muxSetTime (slot : Slot) : (s.cancel slot).muxSetTime = s.muxSetTime := rfl
@[simp] theorem cancel_trigOut (slot : Slot) : (s.cancel slot).trigOut = s.trigOut := rfl
@[simp] theorem cancel_statusLed (slot : Slot) : (s.cancel slot).statusLed = s.statusLed := rfl
@[simp] theorem cancel_fault (slot : Slot) : (s.cancel slot).fault = s.fault := rfl
@[simp] theorem cancel_powered (slot : Slot) : (s.cancel slot).powered = s.powered := rfl
@[simp] theorem cancel_pinDrive (slot : Slot) : (s.cancel slot).pinDrive = s.pinDrive := rfl
@[simp] theorem cancel_ain (slot : Slot) : (s.cancel slot).ain = s.ain := rfl
@[simp] theorem cancel_optrace (slot : Slot) : (s.cancel slot).optrace = s.optrace := rfl
@[simp] theorem cancel_outtrace (slot : Slot) : (s.cancel slot).outtrace = s.outtrace := rfl
@[simp] theorem cancel_agenda (slot : Slot) : (s.cancel slot).agenda = s.agenda := rfl
@[simp] theorem cancel_freeCount (slot : Slot) : (s.cancel slot).freeCount = s.freeCount := rfl
@[simp] theorem cancel_lastValue (slot : Slot) : (s.cancel slot).lastValue = s.lastValue := rfl

/-! ### `setTriggerPending` -/

@[simp] theorem setTriggerPending_cfg : (s.setTriggerPending).cfg = s.cfg := rfl
@[simp] theorem setTriggerPending_memory : (s.setTriggerPending).memory = s.memory := rfl
@[simp] theorem setTriggerPending_memoryIndex : (s.setTriggerPending).memoryIndex = s.memoryIndex := rfl
@[simp] theorem setTriggerPending_recording : (s.setTriggerPending).recording = s.recording := rfl
@[simp] theorem setTriggerPending_externalTrigger :
    (s.setTriggerPending).externalTrigger = s.externalTrigger := rfl
@[simp] theorem setTriggerPending_tempoDelayMs : (s.setTriggerPending).tempoDelayMs = s.tempoDelayMs := rfl
@[simp] theorem setTriggerPending_quantizeMode : (s.setTriggerPending).quantizeMode = s.quantizeMode := rfl
@[simp] theorem setTriggerPending_activeScale : (s.setTriggerPending).activeScale = s.activeScale := rfl
@[simp] theorem setTriggerPending_potMode : (s.setTriggerPending).potMode = s.potMode := rfl
@[simp] theorem setTriggerPending_potRange : (s.setTriggerPending).potRange = s.potRange := rfl
@[simp] theorem setTriggerPending_triggerPending : (s.setTriggerPending).triggerPending = true := rfl
@[simp] theorem setTriggerPending_modeTogglePending :
    (s.setTriggerPending).modeTogglePending = s.modeTogglePending := rfl
@[simp] theorem setTriggerPending_scaleTogglePending :
    (s.setTriggerPending).scaleTogglePending = s.scaleTogglePending := rfl
@[simp] theorem setTriggerPending_rangeTogglePending :
    (s.setTriggerPending).rangeTogglePending = s.rangeTogglePending := rfl
@[simp] theorem setTriggerPending_modeButtonPressTime :
    (s.setTriggerPending).modeButtonPressTime = s.modeButtonPressTime := rfl
@[simp] theorem setTriggerPending_seq : (s.setTriggerPending).seq = s.seq := rfl
@[simp] theorem setTriggerPending_lpos : (s.setTriggerPending).lpos = s.lpos := rfl
@[simp] theorem setTriggerPending_sSample : (s.setTriggerPending).sSample = s.sSample := rfl
@[simp] theorem setTriggerPending_sOut : (s.setTriggerPending).sOut = s.sOut := rfl
@[simp] theorem setTriggerPending_nowUs : (s.setTriggerPending).nowUs = s.nowUs := rfl
@[simp] theorem setTriggerPending_pinLevel : (s.setTriggerPending).pinLevel = s.pinLevel := rfl
@[simp] theorem setTriggerPending_edgeEn : (s.setTriggerPending).edgeEn = s.edgeEn := rfl
@[simp] theorem setTriggerPending_alarm : (s.setTriggerPending).alarm = s.alarm := rfl
@[simp] theorem setTriggerPending_adcSel : (s.setTriggerPending).adcSel = s.adcSel := rfl
@[simp] theorem setTriggerPending_muxA : (s.setTriggerPending).muxA = s.muxA := rfl
@[simp] theorem setTriggerPending_muxInh0 : (s.setTriggerPending).muxInh0 = s.muxInh0 := rfl
@[simp] theorem setTriggerPending_muxInh1 : (s.setTriggerPending).muxInh1 = s.muxInh1 := rfl
@[simp] theorem setTriggerPending_muxSetTime : (s.setTriggerPending).muxSetTime = s.muxSetTime := rfl
@[simp] theorem setTriggerPending_trigOut : (s.setTriggerPending).trigOut = s.trigOut := rfl
@[simp] theorem setTriggerPending_statusLed : (s.setTriggerPending).statusLed = s.statusLed := rfl
@[simp] theorem setTriggerPending_fault : (s.setTriggerPending).fault = s.fault := rfl
@[simp] theorem setTriggerPending_powered : (s.setTriggerPending).powered = s.powered := rfl
@[simp] theorem setTriggerPending_pinDrive : (s.setTriggerPending).pinDrive = s.pinDrive := rfl
@[simp] theorem setTriggerPending_ain : (s.setTriggerPending).ain = s.ain := rfl
@[simp] theorem setTriggerPending_optrace : (s.setTriggerPending).optrace = s.optrace := rfl
@[simp] theorem setTriggerPending_outtrace : (s.setTriggerPending).outtrace = s.outtrace := rfl
@[simp] theorem setTriggerPending_agenda : (s.setTriggerPending).agenda = s.agenda := rfl
@[simp] theorem setTriggerPending_freeCount : (s.setTriggerPending).freeCount = s.freeCount := rfl
@[simp] theorem setTriggerPending_lastValue : (s.setTriggerPending).lastValue = s.lastValue := rfl

/-! ### `clearTriggerPending` -/

@[simp] theorem clearTriggerPending_cfg : (s.clearTriggerPending).cfg = s.cfg := rfl
@[simp] theorem clearTriggerPending_memory : (s.clearTriggerPending).memory = s.memory := rfl
@[simp] theorem clearTriggerPending_memoryIndex : (s.clearTriggerPending).memoryIndex = s.memoryIndex := rfl
@[simp] theorem clearTriggerPending_recording : (s.clearTriggerPending).recording = s.recording := rfl
@[simp] theorem clearTriggerPending_externalTrigger :
    (s.clearTriggerPending).externalTrigger = s.externalTrigger := rfl
@[simp] theorem clearTriggerPending_tempoDelayMs : (s.clearTriggerPending).tempoDelayMs = s.tempoDelayMs := rfl
@[simp] theorem clearTriggerPending_quantizeMode : (s.clearTriggerPending).quantizeMode = s.quantizeMode := rfl
@[simp] theorem clearTriggerPending_activeScale : (s.clearTriggerPending).activeScale = s.activeScale := rfl
@[simp] theorem clearTriggerPending_potMode : (s.clearTriggerPending).potMode = s.potMode := rfl
@[simp] theorem clearTriggerPending_potRange : (s.clearTriggerPending).potRange = s.potRange := rfl
@[simp] theorem clearTriggerPending_triggerPending : (s.clearTriggerPending).triggerPending = false := rfl
@[simp] theorem clearTriggerPending_modeTogglePending :
    (s.clearTriggerPending).modeTogglePending = s.modeTogglePending := rfl
@[simp] theorem clearTriggerPending_scaleTogglePending :
    (s.clearTriggerPending).scaleTogglePending = s.scaleTogglePending := rfl
@[simp] theorem clearTriggerPending_rangeTogglePending :
    (s.clearTriggerPending).rangeTogglePending = s.rangeTogglePending := rfl
@[simp] theorem clearTriggerPending_modeButtonPressTime :
    (s.clearTriggerPending).modeButtonPressTime = s.modeButtonPressTime := rfl
@[simp] theorem clearTriggerPending_seq : (s.clearTriggerPending).seq = s.seq := rfl
@[simp] theorem clearTriggerPending_lpos : (s.clearTriggerPending).lpos = s.lpos := rfl
@[simp] theorem clearTriggerPending_sSample : (s.clearTriggerPending).sSample = s.sSample := rfl
@[simp] theorem clearTriggerPending_sOut : (s.clearTriggerPending).sOut = s.sOut := rfl
@[simp] theorem clearTriggerPending_nowUs : (s.clearTriggerPending).nowUs = s.nowUs := rfl
@[simp] theorem clearTriggerPending_pinLevel : (s.clearTriggerPending).pinLevel = s.pinLevel := rfl
@[simp] theorem clearTriggerPending_edgeEn : (s.clearTriggerPending).edgeEn = s.edgeEn := rfl
@[simp] theorem clearTriggerPending_alarm : (s.clearTriggerPending).alarm = s.alarm := rfl
@[simp] theorem clearTriggerPending_adcSel : (s.clearTriggerPending).adcSel = s.adcSel := rfl
@[simp] theorem clearTriggerPending_muxA : (s.clearTriggerPending).muxA = s.muxA := rfl
@[simp] theorem clearTriggerPending_muxInh0 : (s.clearTriggerPending).muxInh0 = s.muxInh0 := rfl
@[simp] theorem clearTriggerPending_muxInh1 : (s.clearTriggerPending).muxInh1 = s.muxInh1 := rfl
@[simp] theorem clearTriggerPending_muxSetTime : (s.clearTriggerPending).muxSetTime = s.muxSetTime := rfl
@[simp] theorem clearTriggerPending_trigOut : (s.clearTriggerPending).trigOut = s.trigOut := rfl
@[simp] theorem clearTriggerPending_statusLed : (s.clearTriggerPending).statusLed = s.statusLed := rfl
@[simp] theorem clearTriggerPending_fault : (s.clearTriggerPending).fault = s.fault := rfl
@[simp] theorem clearTriggerPending_powered : (s.clearTriggerPending).powered = s.powered := rfl
@[simp] theorem clearTriggerPending_pinDrive : (s.clearTriggerPending).pinDrive = s.pinDrive := rfl
@[simp] theorem clearTriggerPending_ain : (s.clearTriggerPending).ain = s.ain := rfl
@[simp] theorem clearTriggerPending_optrace : (s.clearTriggerPending).optrace = s.optrace := rfl
@[simp] theorem clearTriggerPending_outtrace : (s.clearTriggerPending).outtrace = s.outtrace := rfl
@[simp] theorem clearTriggerPending_agenda : (s.clearTriggerPending).agenda = s.agenda := rfl
@[simp] theorem clearTriggerPending_freeCount : (s.clearTriggerPending).freeCount = s.freeCount := rfl
@[simp] theorem clearTriggerPending_lastValue : (s.clearTriggerPending).lastValue = s.lastValue := rfl

/-! ### `setModeTogglePending` -/

@[simp] theorem setModeTogglePending_cfg : (s.setModeTogglePending).cfg = s.cfg := rfl
@[simp] theorem setModeTogglePending_memory : (s.setModeTogglePending).memory = s.memory := rfl
@[simp] theorem setModeTogglePending_memoryIndex : (s.setModeTogglePending).memoryIndex = s.memoryIndex := rfl
@[simp] theorem setModeTogglePending_recording : (s.setModeTogglePending).recording = s.recording := rfl
@[simp] theorem setModeTogglePending_externalTrigger :
    (s.setModeTogglePending).externalTrigger = s.externalTrigger := rfl
@[simp] theorem setModeTogglePending_tempoDelayMs :
    (s.setModeTogglePending).tempoDelayMs = s.tempoDelayMs := rfl
@[simp] theorem setModeTogglePending_quantizeMode :
    (s.setModeTogglePending).quantizeMode = s.quantizeMode := rfl
@[simp] theorem setModeTogglePending_activeScale : (s.setModeTogglePending).activeScale = s.activeScale := rfl
@[simp] theorem setModeTogglePending_potMode : (s.setModeTogglePending).potMode = s.potMode := rfl
@[simp] theorem setModeTogglePending_potRange : (s.setModeTogglePending).potRange = s.potRange := rfl
@[simp] theorem setModeTogglePending_triggerPending :
    (s.setModeTogglePending).triggerPending = s.triggerPending := rfl
@[simp] theorem setModeTogglePending_modeTogglePending :
    (s.setModeTogglePending).modeTogglePending = true := rfl
@[simp] theorem setModeTogglePending_scaleTogglePending :
    (s.setModeTogglePending).scaleTogglePending = s.scaleTogglePending := rfl
@[simp] theorem setModeTogglePending_rangeTogglePending :
    (s.setModeTogglePending).rangeTogglePending = s.rangeTogglePending := rfl
@[simp] theorem setModeTogglePending_modeButtonPressTime :
    (s.setModeTogglePending).modeButtonPressTime = s.modeButtonPressTime := rfl
@[simp] theorem setModeTogglePending_seq : (s.setModeTogglePending).seq = s.seq := rfl
@[simp] theorem setModeTogglePending_lpos : (s.setModeTogglePending).lpos = s.lpos := rfl
@[simp] theorem setModeTogglePending_sSample : (s.setModeTogglePending).sSample = s.sSample := rfl
@[simp] theorem setModeTogglePending_sOut : (s.setModeTogglePending).sOut = s.sOut := rfl
@[simp] theorem setModeTogglePending_nowUs : (s.setModeTogglePending).nowUs = s.nowUs := rfl
@[simp] theorem setModeTogglePending_pinLevel : (s.setModeTogglePending).pinLevel = s.pinLevel := rfl
@[simp] theorem setModeTogglePending_edgeEn : (s.setModeTogglePending).edgeEn = s.edgeEn := rfl
@[simp] theorem setModeTogglePending_alarm : (s.setModeTogglePending).alarm = s.alarm := rfl
@[simp] theorem setModeTogglePending_adcSel : (s.setModeTogglePending).adcSel = s.adcSel := rfl
@[simp] theorem setModeTogglePending_muxA : (s.setModeTogglePending).muxA = s.muxA := rfl
@[simp] theorem setModeTogglePending_muxInh0 : (s.setModeTogglePending).muxInh0 = s.muxInh0 := rfl
@[simp] theorem setModeTogglePending_muxInh1 : (s.setModeTogglePending).muxInh1 = s.muxInh1 := rfl
@[simp] theorem setModeTogglePending_muxSetTime : (s.setModeTogglePending).muxSetTime = s.muxSetTime := rfl
@[simp] theorem setModeTogglePending_trigOut : (s.setModeTogglePending).trigOut = s.trigOut := rfl
@[simp] theorem setModeTogglePending_statusLed : (s.setModeTogglePending).statusLed = s.statusLed := rfl
@[simp] theorem setModeTogglePending_fault : (s.setModeTogglePending).fault = s.fault := rfl
@[simp] theorem setModeTogglePending_powered : (s.setModeTogglePending).powered = s.powered := rfl
@[simp] theorem setModeTogglePending_pinDrive : (s.setModeTogglePending).pinDrive = s.pinDrive := rfl
@[simp] theorem setModeTogglePending_ain : (s.setModeTogglePending).ain = s.ain := rfl
@[simp] theorem setModeTogglePending_optrace : (s.setModeTogglePending).optrace = s.optrace := rfl
@[simp] theorem setModeTogglePending_outtrace : (s.setModeTogglePending).outtrace = s.outtrace := rfl
@[simp] theorem setModeTogglePending_agenda : (s.setModeTogglePending).agenda = s.agenda := rfl
@[simp] theorem setModeTogglePending_freeCount : (s.setModeTogglePending).freeCount = s.freeCount := rfl
@[simp] theorem setModeTogglePending_lastValue : (s.setModeTogglePending).lastValue = s.lastValue := rfl

/-! ### `clearModeTogglePending` -/

@[simp] theorem clearModeTogglePending_cfg : (s.clearModeTogglePending).cfg = s.cfg := rfl
@[simp] theorem clearModeTogglePending_memory : (s.clearModeTogglePending).memory = s.memory := rfl
@[simp] theorem clearModeTogglePending_memoryIndex :
    (s.clearModeTogglePending).memoryIndex = s.memoryIndex := rfl
@[simp] theorem clearModeTogglePending_recording : (s.clearModeTogglePending).recording = s.recording := rfl
@[simp] theorem clearModeTogglePending_externalTrigger :
    (s.clearModeTogglePending).externalTrigger = s.externalTrigger := rfl
@[simp] theorem clearModeTogglePending_tempoDelayMs :
    (s.clearModeTogglePending).tempoDelayMs = s.tempoDelayMs := rfl
@[simp] theorem clearModeTogglePending_quantizeMode :
    (s.clearModeTogglePending).quantizeMode = s.quantizeMode := rfl
@[simp] theorem clearModeTogglePending_activeScale :
    (s.clearModeTogglePending).activeScale = s.activeScale := rfl
@[simp] theorem clearModeTogglePending_potMode : (s.clearModeTogglePending).potMode = s.potMode := rfl
@[simp] theorem clearModeTogglePending_potRange : (s.clearModeTogglePending).potRange = s.potRange := rfl
@[simp] theorem clearModeTogglePending_triggerPending :
    (s.clearModeTogglePending).triggerPending = s.triggerPending := rfl
@[simp] theorem clearModeTogglePending_modeTogglePending :
    (s.clearModeTogglePending).modeTogglePending = false := rfl
@[simp] theorem clearModeTogglePending_scaleTogglePending :
    (s.clearModeTogglePending).scaleTogglePending = s.scaleTogglePending := rfl
@[simp] theorem clearModeTogglePending_rangeTogglePending :
    (s.clearModeTogglePending).rangeTogglePending = s.rangeTogglePending := rfl
@[simp] theorem clearModeTogglePending_modeButtonPressTime :
    (s.clearModeTogglePending).modeButtonPressTime = s.modeButtonPressTime := rfl
@[simp] theorem clearModeTogglePending_seq : (s.clearModeTogglePending).seq = s.seq := rfl
@[simp] theorem clearModeTogglePending_lpos : (s.clearModeTogglePending).lpos = s.lpos := rfl
@[simp] theorem clearModeTogglePending_sSample : (s.clearModeTogglePending).sSample = s.sSample := rfl
@[simp] theorem clearModeTogglePending_sOut : (s.clearModeTogglePending).sOut = s.sOut := rfl
@[simp] theorem clearModeTogglePending_nowUs : (s.clearModeTogglePending).nowUs = s.nowUs := rfl
@[simp] theorem clearModeTogglePending_pinLevel : (s.clearModeTogglePending).pinLevel = s.pinLevel := rfl
@[simp] theorem clearModeTogglePending_edgeEn : (s.clearModeTogglePending).edgeEn = s.edgeEn := rfl
@[simp] theorem clearModeTogglePending_alarm : (s.clearModeTogglePending).alarm = s.alarm := rfl
@[simp] theorem clearModeTogglePending_adcSel : (s.clearModeTogglePending).adcSel = s.adcSel := rfl
@[simp] theorem clearModeTogglePending_muxA : (s.clearModeTogglePending).muxA = s.muxA := rfl
@[simp] theorem clearModeTogglePending_muxInh0 : (s.clearModeTogglePending).muxInh0 = s.muxInh0 := rfl
@[simp] theorem clearModeTogglePending_muxInh1 : (s.clearModeTogglePending).muxInh1 = s.muxInh1 := rfl
@[simp] theorem clearModeTogglePending_muxSetTime : (s.clearModeTogglePending).muxSetTime = s.muxSetTime := rfl
@[simp] theorem clearModeTogglePending_trigOut : (s.clearModeTogglePending).trigOut = s.trigOut := rfl
@[simp] theorem clearModeTogglePending_statusLed : (s.clearModeTogglePending).statusLed = s.statusLed := rfl
@[simp] theorem clearModeTogglePending_fault : (s.clearModeTogglePending).fault = s.fault := rfl
@[simp] theorem clearModeTogglePending_powered : (s.clearModeTogglePending).powered = s.powered := rfl
@[simp] theorem clearModeTogglePending_pinDrive : (s.clearModeTogglePending).pinDrive = s.pinDrive := rfl
@[simp] theorem clearModeTogglePending_ain : (s.clearModeTogglePending).ain = s.ain := rfl
@[simp] theorem clearModeTogglePending_optrace : (s.clearModeTogglePending).optrace = s.optrace := rfl
@[simp] theorem clearModeTogglePending_outtrace : (s.clearModeTogglePending).outtrace = s.outtrace := rfl
@[simp] theorem clearModeTogglePending_agenda : (s.clearModeTogglePending).agenda = s.agenda := rfl
@[simp] theorem clearModeTogglePending_freeCount : (s.clearModeTogglePending).freeCount = s.freeCount := rfl
@[simp] theorem clearModeTogglePending_lastValue : (s.clearModeTogglePending).lastValue = s.lastValue := rfl

/-! ### `setScaleTogglePending` -/

@[simp] theorem setScaleTogglePending_cfg : (s.setScaleTogglePending).cfg = s.cfg := rfl
@[simp] theorem setScaleTogglePending_memory : (s.setScaleTogglePending).memory = s.memory := rfl
@[simp] theorem setScaleTogglePending_memoryIndex : (s.setScaleTogglePending).memoryIndex = s.memoryIndex := rfl
@[simp] theorem setScaleTogglePending_recording : (s.setScaleTogglePending).recording = s.recording := rfl
@[simp] theorem setScaleTogglePending_externalTrigger :
    (s.setScaleTogglePending).externalTrigger = s.externalTrigger := rfl
@[simp] theorem setScaleTogglePending_tempoDelayMs :
    (s.setScaleTogglePending).tempoDelayMs = s.tempoDelayMs := rfl
@[simp] theorem setScaleTogglePending_quantizeMode :
    (s.setScaleTogglePending).quantizeMode = s.quantizeMode := rfl
@[simp] theorem setScaleTogglePending_activeScale : (s.setScaleTogglePending).activeScale = s.activeScale := rfl
@[simp] theorem setScaleTogglePending_potMode : (s.setScaleTogglePending).potMode = s.potMode := rfl
@[simp] theorem setScaleTogglePending_potRange : (s.setScaleTogglePending).potRange = s.potRange := rfl
@[simp] theorem setScaleTogglePending_triggerPending :
    (s.setScaleTogglePending).triggerPending = s.triggerPending := rfl
@[simp] theorem setScaleTogglePending_modeTogglePending :
    (s.setScaleTogglePending).modeTogglePending = s.modeTogglePending := rfl
@[simp] theorem setScaleTogglePending_scaleTogglePending :
    (s.setScaleTogglePending).scaleTogglePending = true := rfl
@[simp] theorem setScaleTogglePending_rangeTogglePending :
    (s.setScaleTogglePending).rangeTogglePending = s.rangeTogglePending := rfl
@[simp] theorem setScaleTogglePending_modeButtonPressTime :
    (s.setScaleTogglePending).modeButtonPressTime = s.modeButtonPressTime := rfl
@[simp] theorem setScaleTogglePending_seq : (s.setScaleTogglePending).seq = s.seq := rfl
@[simp] theorem setScaleTogglePending_lpos : (s.setScaleTogglePending).lpos = s.lpos := rfl
@[simp] theorem setScaleTogglePending_sSample : (s.setScaleTogglePending).sSample = s.sSample := rfl
@[simp] theorem setScaleTogglePending_sOut : (s.setScaleTogglePending).sOut = s.sOut := rfl
@[simp] theorem setScaleTogglePending_nowUs : (s.setScaleTogglePending).nowUs = s.nowUs := rfl
@[simp] theorem setScaleTogglePending_pinLevel : (s.setScaleTogglePending).pinLevel = s.pinLevel := rfl
@[simp] theorem setScaleTogglePending_edgeEn : (s.setScaleTogglePending).edgeEn = s.edgeEn := rfl
@[simp] theorem setScaleTogglePending_alarm : (s.setScaleTogglePending).alarm = s.alarm := rfl
@[simp] theorem setScaleTogglePending_adcSel : (s.setScaleTogglePending).adcSel = s.adcSel := rfl
@[simp] theorem setScaleTogglePending_muxA : (s.setScaleTogglePending).muxA = s.muxA := rfl
@[simp] theorem setScaleTogglePending_muxInh0 : (s.setScaleTogglePending).muxInh0 = s.muxInh0 := rfl
@[simp] theorem setScaleTogglePending_muxInh1 : (s.setScaleTogglePending).muxInh1 = s.muxInh1 := rfl
@[simp] theorem setScaleTogglePending_muxSetTime : (s.setScaleTogglePending).muxSetTime = s.muxSetTime := rfl
@[simp] theorem setScaleTogglePending_trigOut : (s.setScaleTogglePending).trigOut = s.trigOut := rfl
@[simp] theorem setScaleTogglePending_statusLed : (s.setScaleTogglePending).statusLed = s.statusLed := rfl
@[simp] theorem setScaleTogglePending_fault : (s.setScaleTogglePending).fault = s.fault := rfl
@[simp] theorem setScaleTogglePending_powered : (s.setScaleTogglePending).powered = s.powered := rfl
@[simp] theorem setScaleTogglePending_pinDrive : (s.setScaleTogglePending).pinDrive = s.pinDrive := rfl
@[simp] theorem setScaleTogglePending_ain : (s.setScaleTogglePending).ain = s.ain := rfl
@[simp] theorem setScaleTogglePending_optrace : (s.setScaleTogglePending).optrace = s.optrace := rfl
@[simp] theorem setScaleTogglePending_outtrace : (s.setScaleTogglePending).outtrace = s.outtrace := rfl
@[simp] theorem setScaleTogglePending_agenda : (s.setScaleTogglePending).agenda = s.agenda := rfl
@[simp] theorem setScaleTogglePending_freeCount : (s.setScaleTogglePending).freeCount = s.freeCount := rfl
@[simp] theorem setScaleTogglePending_lastValue : (s.setScaleTogglePending).lastValue = s.lastValue := rfl

/-! ### `clearScaleTogglePending` -/

@[simp] theorem clearScaleTogglePending_cfg : (s.clearScaleTogglePending).cfg = s.cfg := rfl
@[simp] theorem clearScaleTogglePending_memory : (s.clearScaleTogglePending).memory = s.memory := rfl
@[simp] theorem clearScaleTogglePending_memoryIndex :
    (s.clearScaleTogglePending).memoryIndex = s.memoryIndex := rfl
@[simp] theorem clearScaleTogglePending_recording : (s.clearScaleTogglePending).recording = s.recording := rfl
@[simp] theorem clearScaleTogglePending_externalTrigger :
    (s.clearScaleTogglePending).externalTrigger = s.externalTrigger := rfl
@[simp] theorem clearScaleTogglePending_tempoDelayMs :
    (s.clearScaleTogglePending).tempoDelayMs = s.tempoDelayMs := rfl
@[simp] theorem clearScaleTogglePending_quantizeMode :
    (s.clearScaleTogglePending).quantizeMode = s.quantizeMode := rfl
@[simp] theorem clearScaleTogglePending_activeScale :
    (s.clearScaleTogglePending).activeScale = s.activeScale := rfl
@[simp] theorem clearScaleTogglePending_potMode : (s.clearScaleTogglePending).potMode = s.potMode := rfl
@[simp] theorem clearScaleTogglePending_potRange : (s.clearScaleTogglePending).potRange = s.potRange := rfl
@[simp] theorem clearScaleTogglePending_triggerPending :
    (s.clearScaleTogglePending).triggerPending = s.triggerPending := rfl
@[simp] theorem clearScaleTogglePending_modeTogglePending :
    (s.clearScaleTogglePending).modeTogglePending = s.modeTogglePending := rfl
@[simp] theorem clearScaleTogglePending_scaleTogglePending :
    (s.clearScaleTogglePending).scaleTogglePending = false := rfl
@[simp] theorem clearScaleTogglePending_rangeTogglePending :
    (s.clearScaleTogglePending).rangeTogglePending = s.rangeTogglePending := rfl
@[simp] theorem clearScaleTogglePending_modeButtonPressTime :
    (s.clearScaleTogglePending).modeButtonPressTime = s.modeButtonPressTime := rfl
@[simp] theorem clearScaleTogglePending_seq : (s.clearScaleTogglePending).seq = s.seq := rfl
@[simp] theorem clearScaleTogglePending_lpos : (s.clearScaleTogglePending).lpos = s.lpos := rfl
@[simp] theorem clearScaleTogglePending_sSample : (s.clearScaleTogglePending).sSample = s.sSample := rfl
@[simp] theorem clearScaleTogglePending_sOut : (s.clearScaleTogglePending).sOut = s.sOut := rfl
@[simp] theorem clearScaleTogglePending_nowUs : (s.clearScaleTogglePending).nowUs = s.nowUs := rfl
@[simp] theorem clearScaleTogglePending_pinLevel : (s.clearScaleTogglePending).pinLevel = s.pinLevel := rfl
@[simp] theorem clearScaleTogglePending_edgeEn : (s.clearScaleTogglePending).edgeEn = s.edgeEn := rfl
@[simp] theorem clearScaleTogglePending_alarm : (s.clearScaleTogglePending).alarm = s.alarm := rfl
@[simp] theorem clearScaleTogglePending_adcSel : (s.clearScaleTogglePending).adcSel = s.adcSel := rfl
@[simp] theorem clearScaleTogglePending_muxA : (s.clearScaleTogglePending).muxA = s.muxA := rfl
@[simp] theorem clearScaleTogglePending_muxInh0 : (s.clearScaleTogglePending).muxInh0 = s.muxInh0 := rfl
@[simp] theorem clearScaleTogglePending_muxInh1 : (s.clearScaleTogglePending).muxInh1 = s.muxInh1 := rfl
@[simp] theorem clearScaleTogglePending_muxSetTime :
    (s.clearScaleTogglePending).muxSetTime = s.muxSetTime := rfl
@[simp] theorem clearScaleTogglePending_trigOut : (s.clearScaleTogglePending).trigOut = s.trigOut := rfl
@[simp] theorem clearScaleTogglePending_statusLed : (s.clearScaleTogglePending).statusLed = s.statusLed := rfl
@[simp] theorem clearScaleTogglePending_fault : (s.clearScaleTogglePending).fault = s.fault := rfl
@[simp] theorem clearScaleTogglePending_powered : (s.clearScaleTogglePending).powered = s.powered := rfl
@[simp] theorem clearScaleTogglePending_pinDrive : (s.clearScaleTogglePending).pinDrive = s.pinDrive := rfl
@[simp] theorem clearScaleTogglePending_ain : (s.clearScaleTogglePending).ain = s.ain := rfl
@[simp] theorem clearScaleTogglePending_optrace : (s.clearScaleTogglePending).optrace = s.optrace := rfl
@[simp] theorem clearScaleTogglePending_outtrace : (s.clearScaleTogglePending).outtrace = s.outtrace := rfl
@[simp] theorem clearScaleTogglePending_agenda : (s.clearScaleTogglePending).agenda = s.agenda := rfl
@[simp] theorem clearScaleTogglePending_freeCount : (s.clearScaleTogglePending).freeCount = s.freeCount := rfl
@[simp] theorem clearScaleTogglePending_lastValue : (s.clearScaleTogglePending).lastValue = s.lastValue := rfl

/-! ### `setRangeTogglePending` -/

@[simp] theorem setRangeTogglePending_cfg : (s.setRangeTogglePending).cfg = s.cfg := rfl
@[simp] theorem setRangeTogglePending_memory : (s.setRangeTogglePending).memory = s.memory := rfl
@[simp] theorem setRangeTogglePending_memoryIndex : (s.setRangeTogglePending).memoryIndex = s.memoryIndex := rfl
@[simp] theorem setRangeTogglePending_recording : (s.setRangeTogglePending).recording = s.recording := rfl
@[simp] theorem setRangeTogglePending_externalTrigger :
    (s.setRangeTogglePending).externalTrigger = s.externalTrigger := rfl
@[simp] theorem setRangeTogglePending_tempoDelayMs :
    (s.setRangeTogglePending).tempoDelayMs = s.tempoDelayMs := rfl
@[simp] theorem setRangeTogglePending_quantizeMode :
    (s.setRangeTogglePending).quantizeMode = s.quantizeMode := rfl
@[simp] theorem setRangeTogglePending_activeScale : (s.setRangeTogglePending).activeScale = s.activeScale := rfl
@[simp] theorem setRangeTogglePending_potMode : (s.setRangeTogglePending).potMode = s.potMode := rfl
@[simp] theorem setRangeTogglePending_potRange : (s.setRangeTogglePending).potRange = s.potRange := rfl
@[simp] theorem setRangeTogglePending_triggerPending :
    (s.setRangeTogglePending).triggerPending = s.triggerPending := rfl
@[simp] theorem setRangeTogglePending_modeTogglePending :
    (s.setRangeTogglePending).modeTogglePending = s.modeTogglePending := rfl
@[simp] theorem setRangeTogglePending_scaleTogglePending :
    (s.setRangeTogglePending).scaleTogglePending = s.scaleTogglePending := rfl
@[simp] theorem setRangeTogglePending_rangeTogglePending :
    (s.setRangeTogglePending).rangeTogglePending = true := rfl
@[simp] theorem setRangeTogglePending_modeButtonPressTime :
    (s.setRangeTogglePending).modeButtonPressTime = s.modeButtonPressTime := rfl
@[simp] theorem setRangeTogglePending_seq : (s.setRangeTogglePending).seq = s.seq := rfl
@[simp] theorem setRangeTogglePending_lpos : (s.setRangeTogglePending).lpos = s.lpos := rfl
@[simp] theorem setRangeTogglePending_sSample : (s.setRangeTogglePending).sSample = s.sSample := rfl
@[simp] theorem setRangeTogglePending_sOut : (s.setRangeTogglePending).sOut = s.sOut := rfl
@[simp] theorem setRangeTogglePending_nowUs : (s.setRangeTogglePending).nowUs = s.nowUs := rfl
@[simp] theorem setRangeTogglePending_pinLevel : (s.setRangeTogglePending).pinLevel = s.pinLevel := rfl
@[simp] theorem setRangeTogglePending_edgeEn : (s.setRangeTogglePending).edgeEn = s.edgeEn := rfl
@[simp] theorem setRangeTogglePending_alarm : (s.setRangeTogglePending).alarm = s.alarm := rfl
@[simp] theorem setRangeTogglePending_adcSel : (s.setRangeTogglePending).adcSel = s.adcSel := rfl
@[simp] theorem setRangeTogglePending_muxA : (s.setRangeTogglePending).muxA = s.muxA := rfl
@[simp] theorem setRangeTogglePending_muxInh0 : (s.setRangeTogglePending).muxInh0 = s.muxInh0 := rfl
@[simp] theorem setRangeTogglePending_muxInh1 : (s.setRangeTogglePending).muxInh1 = s.muxInh1 := rfl
@[simp] theorem setRangeTogglePending_muxSetTime : (s.setRangeTogglePending).muxSetTime = s.muxSetTime := rfl
@[simp] theorem setRangeTogglePending_trigOut : (s.setRangeTogglePending).trigOut = s.trigOut := rfl
@[simp] theorem setRangeTogglePending_statusLed : (s.setRangeTogglePending).statusLed = s.statusLed := rfl
@[simp] theorem setRangeTogglePending_fault : (s.setRangeTogglePending).fault = s.fault := rfl
@[simp] theorem setRangeTogglePending_powered : (s.setRangeTogglePending).powered = s.powered := rfl
@[simp] theorem setRangeTogglePending_pinDrive : (s.setRangeTogglePending).pinDrive = s.pinDrive := rfl
@[simp] theorem setRangeTogglePending_ain : (s.setRangeTogglePending).ain = s.ain := rfl
@[simp] theorem setRangeTogglePending_optrace : (s.setRangeTogglePending).optrace = s.optrace := rfl
@[simp] theorem setRangeTogglePending_outtrace : (s.setRangeTogglePending).outtrace = s.outtrace := rfl
@[simp] theorem setRangeTogglePending_agenda : (s.setRangeTogglePending).agenda = s.agenda := rfl
@[simp] theorem setRangeTogglePending_freeCount : (s.setRangeTogglePending).freeCount = s.freeCount := rfl
@[simp] theorem setRangeTogglePending_lastValue : (s.setRangeTogglePending).lastValue = s.lastValue := rfl

/-! ### `clearRangeTogglePending` -/

@[simp] theorem clearRangeTogglePending_cfg : (s.clearRangeTogglePending).cfg = s.cfg := rfl
@[simp] theorem clearRangeTogglePending_memory : (s.clearRangeTogglePending).memory = s.memory := rfl
@[simp] theorem clearRangeTogglePending_memoryIndex :
    (s.clearRangeTogglePending).memoryIndex = s.memoryIndex := rfl
@[simp] theorem clearRangeTogglePending_recording : (s.clearRangeTogglePending).recording = s.recording := rfl
@[simp] theorem clearRangeTogglePending_externalTrigger :
    (s.clearRangeTogglePending).externalTrigger = s.externalTrigger := rfl
@[simp] theorem clearRangeTogglePending_tempoDelayMs :
    (s.clearRangeTogglePending).tempoDelayMs = s.tempoDelayMs := rfl
@[simp] theorem clearRangeTogglePending_quantizeMode :
    (s.clearRangeTogglePending).quantizeMode = s.quantizeMode := rfl
@[simp] theorem clearRangeTogglePending_activeScale :
    (s.clearRangeTogglePending).activeScale = s.activeScale := rfl
@[simp] theorem clearRangeTogglePending_potMode : (s.clearRangeTogglePending).potMode = s.potMode := rfl
@[simp] theorem clearRangeTogglePending_potRange : (s.clearRangeTogglePending).potRange = s.potRange := rfl
@[simp] theorem clearRangeTogglePending_triggerPending :
    (s.clearRangeTogglePending).triggerPending = s.triggerPending := rfl
@[simp] theorem clearRangeTogglePending_modeTogglePending :
    (s.clearRangeTogglePending).modeTogglePending = s.modeTogglePending := rfl
@[simp] theorem clearRangeTogglePending_scaleTogglePending :
    (s.clearRangeTogglePending).scaleTogglePending = s.scaleTogglePending := rfl
@[simp] theorem clearRangeTogglePending_rangeTogglePending :
    (s.clearRangeTogglePending).rangeTogglePending = false := rfl
@[simp] theorem clearRangeTogglePending_modeButtonPressTime :
    (s.clearRangeTogglePending).modeButtonPressTime = s.modeButtonPressTime := rfl
@[simp] theorem clearRangeTogglePending_seq : (s.clearRangeTogglePending).seq = s.seq := rfl
@[simp] theorem clearRangeTogglePending_lpos : (s.clearRangeTogglePending).lpos = s.lpos := rfl
@[simp] theorem clearRangeTogglePending_sSample : (s.clearRangeTogglePending).sSample = s.sSample := rfl
@[simp] theorem clearRangeTogglePending_sOut : (s.clearRangeTogglePending).sOut = s.sOut := rfl
@[simp] theorem clearRangeTogglePending_nowUs : (s.clearRangeTogglePending).nowUs = s.nowUs := rfl
@[simp] theorem clearRangeTogglePending_pinLevel : (s.clearRangeTogglePending).pinLevel = s.pinLevel := rfl
@[simp] theorem clearRangeTogglePending_edgeEn : (s.clearRangeTogglePending).edgeEn = s.edgeEn := rfl
@[simp] theorem clearRangeTogglePending_alarm : (s.clearRangeTogglePending).alarm = s.alarm := rfl
@[simp] theorem clearRangeTogglePending_adcSel : (s.clearRangeTogglePending).adcSel = s.adcSel := rfl
@[simp] theorem clearRangeTogglePending_muxA : (s.clearRangeTogglePending).muxA = s.muxA := rfl
@[simp] theorem clearRangeTogglePending_muxInh0 : (s.clearRangeTogglePending).muxInh0 = s.muxInh0 := rfl
@[simp] theorem clearRangeTogglePending_muxInh1 : (s.clearRangeTogglePending).muxInh1 = s.muxInh1 := rfl
@[simp] theorem clearRangeTogglePending_muxSetTime :
    (s.clearRangeTogglePending).muxSetTime = s.muxSetTime := rfl
@[simp] theorem clearRangeTogglePending_trigOut : (s.clearRangeTogglePending).trigOut = s.trigOut := rfl
@[simp] theorem clearRangeTogglePending_statusLed : (s.clearRangeTogglePending).statusLed = s.statusLed := rfl
@[simp] theorem clearRangeTogglePending_fault : (s.clearRangeTogglePending).fault = s.fault := rfl
@[simp] theorem clearRangeTogglePending_powered : (s.clearRangeTogglePending).powered = s.powered := rfl
@[simp] theorem clearRangeTogglePending_pinDrive : (s.clearRangeTogglePending).pinDrive = s.pinDrive := rfl
@[simp] theorem clearRangeTogglePending_ain : (s.clearRangeTogglePending).ain = s.ain := rfl
@[simp] theorem clearRangeTogglePending_optrace : (s.clearRangeTogglePending).optrace = s.optrace := rfl
@[simp] theorem clearRangeTogglePending_outtrace : (s.clearRangeTogglePending).outtrace = s.outtrace := rfl
@[simp] theorem clearRangeTogglePending_agenda : (s.clearRangeTogglePending).agenda = s.agenda := rfl
@[simp] theorem clearRangeTogglePending_freeCount : (s.clearRangeTogglePending).freeCount = s.freeCount := rfl
@[simp] theorem clearRangeTogglePending_lastValue : (s.clearRangeTogglePending).lastValue = s.lastValue := rfl

/-! ### `enableTbR` -/

@[simp] theorem enableTbR_cfg (b : Bool) : (s.enableTbR b).cfg = s.cfg := rfl
@[simp] theorem enableTbR_memory (b : Bool) : (s.enableTbR b).memory = s.memory := rfl
@[simp] theorem enableTbR_memoryIndex (b : Bool) : (s.enableTbR b).memoryIndex = s.memoryIndex := rfl
@[simp] theorem enableTbR_recording (b : Bool) : (s.enableTbR b).recording = s.recording := rfl
@[simp] theorem enableTbR_externalTrigger (b : Bool) :
    (s.enableTbR b).externalTrigger = s.externalTrigger := rfl
@[simp] theorem enableTbR_tempoDelayMs (b : Bool) : (s.enableTbR b).tempoDelayMs = s.tempoDelayMs := rfl
@[simp] theorem enableTbR_quantizeMode (b : Bool) : (s.enableTbR b).quantizeMode = s.quantizeMode := rfl
@[simp] theorem enableTbR_activeScale (b : Bool) : (s.enableTbR b).activeScale = s.activeScale := rfl
@[simp] theorem enableTbR_potMode (b : Bool) : (s.enableTbR b).potMode = s.potMode := rfl
@[simp] theorem enableTbR_potRange (b : Bool) : (s.enableTbR b).potRange = s.potRange := rfl
@[simp] theorem enableTbR_triggerPending (b : Bool) : (s.enableTbR b).triggerPending = s.triggerPending := rfl
@[simp] theorem enableTbR_modeTogglePending (b : Bool) :
    (s.enableTbR b).modeTogglePending = s.modeTogglePending := rfl
@[simp] theorem enableTbR_scaleTogglePending (b : Bool) :
    (s.enableTbR b).scaleTogglePending = s.scaleTogglePending := rfl
@[simp] theorem enableTbR_rangeTogglePending (b : Bool) :
    (s.enableTbR b).rangeTogglePending = s.rangeTogglePending := rfl
@[simp] theorem enableTbR_modeButtonPressTime (b : Bool) :
    (s.enableTbR b).modeButtonPressTime = s.modeButtonPressTime := rfl
@[simp] theorem enableTbR_seq (b : Bool) : (s.enableTbR b).seq = s.seq := rfl
@[simp] theorem enableTbR_lpos (b : Bool) : (s.enableTbR b).lpos = s.lpos := rfl
@[simp] theorem enableTbR_sSample (b : Bool) : (s.enableTbR b).sSample = s.sSample := rfl
@[simp] theorem enableTbR_sOut (b : Bool) : (s.enableTbR b).sOut = s.sOut := rfl
@[simp] theorem enableTbR_nowUs (b : Bool) : (s.enableTbR b).nowUs = s.nowUs := rfl
@[simp] theorem enableTbR_pinLevel (b : Bool) : (s.enableTbR b).pinLevel = s.pinLevel := rfl
@[simp] theorem enableTbR_edgeEn (b : Bool) : (s.enableTbR b).edgeEn = { s.edgeEn with tbR := b } := rfl
@[simp] theorem enableTbR_alarm (b : Bool) : (s.enableTbR b).alarm = s.alarm := rfl
@[simp] theorem enableTbR_adcSel (b : Bool) : (s.enableTbR b).adcSel = s.adcSel := rfl
@[simp] theorem enableTbR_muxA (b : Bool) : (s.enableTbR b).muxA = s.muxA := rfl
@[simp] theorem enableTbR_muxInh0 (b : Bool) : (s.enableTbR b).muxInh0 = s.muxInh0 := rfl
@[simp] theorem enableTbR_muxInh1 (b : Bool) : (s.enableTbR b).muxInh1 = s.muxInh1 := rfl
@[simp] theorem enableTbR_muxSetTime (b : Bool) : (s.enableTbR b).muxSetTime = s.muxSetTime := rfl
@[simp] theorem enableTbR_trigOut (b : Bool) : (s.enableTbR b).trigOut = s.trigOut := rfl
@[simp] theorem enableTbR_statusLed (b : Bool) : (s.enableTbR b).statusLed = s.statusLed := rfl
@[simp] theorem enableTbR_fault (b : Bool) : (s.enableTbR b).fault = s.fault := rfl
@[simp] theorem enableTbR_powered (b : Bool) : (s.enableTbR b).powered = s.powered := rfl
@[simp] theorem enableTbR_pinDrive (b : Bool) : (s.enableTbR b).pinDrive = s.pinDrive := rfl
@[simp] theorem enableTbR_ain (b : Bool) : (s.enableTbR b).ain = s.ain := rfl
@[simp] theorem enableTbR_optrace (b : Bool) : (s.enableTbR b).optrace = s.optrace := rfl
@[simp] theorem enableTbR_outtrace (b : Bool) : (s.enableTbR b).outtrace = s.outtrace := rfl
@[simp] theorem enableTbR_agenda (b : Bool) : (s.enableTbR b).agenda = s.agenda := rfl
@[simp] theorem enableTbR_freeCount (b : Bool) : (s.enableTbR b).freeCount = s.freeCount := rfl
@[simp] theorem enableTbR_lastValue (b : Bool) : (s.enableTbR b).lastValue = s.lastValue := rfl

/-! ### `enableXtR` -/

@[simp] theorem enableXtR_cfg (b : Bool) : (s.enableXtR b).cfg = s.cfg := rfl
@[simp] theorem enableXtR_memory (b : Bool) : (s.enableXtR b).memory = s.memory := rfl
@[simp] theorem enableXtR_memoryIndex (b : Bool) : (s.enableXtR b).memoryIndex = s.memoryIndex := rfl
@[simp] theorem enableXtR_recording (b : Bool) : (s.enableXtR b).recording = s.recording := rfl
@[simp] theorem enableXtR_externalTrigger (b : Bool) :
    (s.enableXtR b).externalTrigger = s.externalTrigger := rfl
@[simp] theorem enableXtR_tempoDelayMs (b : Bool) : (s.enableXtR b).tempoDelayMs = s.tempoDelayMs := rfl
@[simp] theorem enableXtR_quantizeMode (b : Bool) : (s.enableXtR b).quantizeMode = s.quantizeMode := rfl
@[simp] theorem enableXtR_activeScale (b : Bool) : (s.enableXtR b).activeScale = s.activeScale := rfl
@[simp] theorem enableXtR_potMode (b : Bool) : (s.enableXtR b).potMode = s.potMode := rfl
@[simp] theorem enableXtR_potRange (b : Bool) : (s.enableXtR b).potRange = s.potRange := rfl
@[simp] theorem enableXtR_triggerPending (b : Bool) : (s.enableXtR b).triggerPending = s.triggerPending := rfl
@[simp] theorem enableXtR_modeTogglePending (b : Bool) :
    (s.enableXtR b).modeTogglePending = s.modeTogglePending := rfl
@[simp] theorem enableXtR_scaleTogglePending (b : Bool) :
    (s.enableXtR b).scaleTogglePending = s.scaleTogglePending := rfl
@[simp] theorem enableXtR_rangeTogglePending (b : Bool) :
    (s.enableXtR b).rangeTogglePending = s.rangeTogglePending := rfl
@[simp] theorem enableXtR_modeButtonPressTime (b : Bool) :
    (s.enableXtR b).modeButtonPressTime = s.modeButtonPressTime := rfl
@[simp] theorem enableXtR_seq (b : Bool) : (s.enableXtR b).seq = s.seq := rfl
@[simp] theorem enableXtR_lpos (b : Bool) : (s.enableXtR b).lpos = s.lpos := rfl
@[simp] theorem enableXtR_sSample (b : Bool) : (s.enableXtR b).sSample = s.sSample := rfl
@[simp] theorem enableXtR_sOut (b : Bool) : (s.enableXtR b).sOut = s.sOut := rfl
@[simp] theorem enableXtR_nowUs (b : Bool) : (s.enableXtR b).nowUs = s.nowUs := rfl
@[simp] theorem enableXtR_pinLevel (b : Bool) : (s.enableXtR b).pinLevel = s.pinLevel := rfl
@[simp] theorem enableXtR_edgeEn (b : Bool) : (s.enableXtR b).edgeEn = { s.edgeEn with xtR := b } := rfl
@[simp] theorem enableXtR_alarm (b : Bool) : (s.enableXtR b).alarm = s.alarm := rfl
@[simp] theorem enableXtR_adcSel (b : Bool) : (s.enableXtR b).adcSel = s.adcSel := rfl
@[simp] theorem enableXtR_muxA (b : Bool) : (s.enableXtR b).muxA = s.muxA := rfl
@[simp] theorem enableXtR_muxInh0 (b : Bool) : (s.enableXtR b).muxInh0 = s.muxInh0 := rfl
@[simp] theorem enableXtR_muxInh1 (b : Bool) : (s.enableXtR b).muxInh1 = s.muxInh1 := rfl
@[simp] theorem enableXtR_muxSetTime (b : Bool) : (s.enableXtR b).muxSetTime = s.muxSetTime := rfl
@[simp] theorem enableXtR_trigOut (b : Bool) : (s.enableXtR b).trigOut = s.trigOut := rfl
@[simp] theorem enableXtR_statusLed (b : Bool) : (s.enableXtR b).statusLed = s.statusLed := rfl
@[simp] theorem enableXtR_fault (b : Bool) : (s.enableXtR b).fault = s.fault := rfl
@[simp] theorem enableXtR_powered (b : Bool) : (s.enableXtR b).powered = s.powered := rfl
@[simp] theorem enableXtR_pinDrive (b : Bool) : (s.enableXtR b).pinDrive = s.pinDrive := rfl
@[simp] theorem enableXtR_ain (b : Bool) : (s.enableXtR b).ain = s.ain := rfl
@[simp] theorem enableXtR_optrace (b : Bool) : (s.enableXtR b).optrace = s.optrace := rfl
@[simp] theorem enableXtR_outtrace (b : Bool) : (s.enableXtR b).outtrace = s.outtrace := rfl
@[simp] theorem enableXtR_agenda (b : Bool) : (s.enableXtR b).agenda = s.agenda := rfl
@[simp] theorem enableXtR_freeCount (b : Bool) : (s.enableXtR b).freeCount = s.freeCount := rfl
@[simp] theorem enableXtR_lastValue (b : Bool) : (s.enableXtR b).lastValue = s.lastValue := rfl

end Sys2Proof.Machine
end

