-- ==== Sys2Proof/Laws/Memory.lean ====
section
/-! SUPPORT. The step memory: a read after a write, and the canonical form that every write keeps
(spec/20_memory.md R61, R62). -/

namespace Sys2Proof.Machine

/-! ### Reads after writes -/

theorem readCells_consCell (a : Nat) (v : Sample) (rest : List MemCell) (i : Nat)
    (h : i = a → readCells rest i = 0) :
    readCells (consCell a v rest) i = if i = a then v else readCells rest i := by
  unfold consCell
  split
  · rename_i hv
    split
    · rename_i hi; rw [h hi, hv]
    · rfl
  · rfl

/-- An index below every listed one reads as 0. -/
theorem readCells_of_below (cells : List MemCell) (i : Nat) (h : cells.all (fun c => decide (i < c.1)) = true) :
    readCells cells i = 0 := by
  induction cells with
  | nil => rfl
  | cons c rest ih =>
    obtain ⟨b, w⟩ := c
    simp only [List.all_cons, Bool.and_eq_true, decide_eq_true_eq] at h
    simp only [readCells]
    rw [if_neg (by omega), ih h.2]

theorem cellsWf_cons {a : Nat} {v : Sample} {rest : List MemCell} (h : cellsWf ((a, v) :: rest) = true) :
    a < 16 ∧ v ≠ 0 ∧ rest.all (fun c => decide (a < c.1)) = true ∧ cellsWf rest = true := by
  simp only [cellsWf, Bool.and_eq_true, decide_eq_true_eq, bne_iff_ne] at h
  exact ⟨h.1.1.1, h.1.1.2, h.1.2, h.2⟩

/-- A bound below every listed index, from one below the first. -/
theorem all_lt_of_lt {a b : Nat} {rest : List MemCell} (hab : a < b)
    (h : rest.all (fun c => decide (b < c.1)) = true) : rest.all (fun c => decide (a < c.1)) = true := by
  simp only [List.all_eq_true, decide_eq_true_eq] at h ⊢
  exact fun c hc => hab.trans (h c hc)

theorem readCells_writeCells (cells : List MemCell) (a : Nat) (v : Sample) (i : Nat) (h : cellsWf cells = true) :
    readCells (writeCells cells a v) i = if i = a then v else readCells cells i := by
  induction cells with
  | nil => exact readCells_consCell a v [] i (fun _ => rfl)
  | cons c rest ih =>
    obtain ⟨b, w⟩ := c
    obtain ⟨-, -, hall, hrest⟩ := cellsWf_cons h
    simp only [writeCells]
    split
    · rename_i hab
      apply readCells_consCell
      rintro rfl
      refine readCells_of_below _ _ ?_
      simp only [List.all_cons, decide_eq_true_eq, Bool.and_eq_true]
      exact ⟨hab, all_lt_of_lt hab hall⟩
    · split
      · rename_i _ hab
        subst hab
        rw [readCells_consCell a v rest i (by rintro rfl; exact readCells_of_below _ _ hall)]
        by_cases hi : i = a <;> simp [readCells, hi]
      · simp only [readCells]
        rw [ih hrest]
        by_cases hib : i = b
        · subst hib
          rw [if_pos rfl, if_neg (by omega), if_pos rfl]
        · simp [hib]

/-- "`MemWrite(i, v)` is `memory[i] <- v`": the word written reads back. -/
theorem Memory.read_write_same (m : Memory) (a : Nat) (v : Sample) (h : m.wf = true) :
    (m.write a v).read a = v := by
  simp [Memory.read, Memory.write, readCells_writeCells m.cells a v a h]

/-- A write leaves every other word alone. -/
theorem Memory.read_write_other (m : Memory) (a i : Nat) (v : Sample) (h : m.wf = true) (hi : i ≠ a) :
    (m.write a v).read i = m.read i := by
  simp [Memory.read, Memory.write, readCells_writeCells m.cells a v i h, hi]

/-! ### The canonical form -/

theorem all_lt_consCell (a b : Nat) (v : Sample) (rest : List MemCell) (hba : b < a)
    (h : rest.all (fun c => decide (b < c.1)) = true) :
    (consCell a v rest).all (fun c => decide (b < c.1)) = true := by
  unfold consCell
  split
  · exact h
  · rw [List.all_cons, h, decide_eq_true hba]; rfl

theorem all_lt_writeCells (cells : List MemCell) (a b : Nat) (v : Sample) (hba : b < a)
    (h : cells.all (fun c => decide (b < c.1)) = true) :
    (writeCells cells a v).all (fun c => decide (b < c.1)) = true := by
  induction cells with
  | nil => exact all_lt_consCell a b v [] hba rfl
  | cons c rest ih =>
    have hrest := h
    rw [List.all_cons, Bool.and_eq_true, decide_eq_true_eq] at hrest
    simp only [writeCells]
    split
    · exact all_lt_consCell a b v _ hba h
    · split
      · exact all_lt_consCell a b v _ hba hrest.2
      · rw [List.all_cons, ih hrest.2, decide_eq_true hrest.1]; rfl

theorem cellsWf_consCell (a : Nat) (v : Sample) (rest : List MemCell) (ha : a < 16)
    (hall : rest.all (fun c => decide (a < c.1)) = true) (h : cellsWf rest = true) :
    cellsWf (consCell a v rest) = true := by
  unfold consCell
  split
  · exact h
  · rename_i hv
    simp only [cellsWf, Bool.and_eq_true, decide_eq_true_eq, bne_iff_ne]
    exact ⟨⟨⟨ha, hv⟩, hall⟩, h⟩

theorem cellsWf_writeCells (cells : List MemCell) (a : Nat) (v : Sample) (ha : a < 16)
    (h : cellsWf cells = true) : cellsWf (writeCells cells a v) = true := by
  induction cells with
  | nil => exact cellsWf_consCell a v [] ha rfl rfl
  | cons c rest ih =>
    obtain ⟨b, w⟩ := c
    obtain ⟨hb, hw, hall, hrest⟩ := cellsWf_cons h
    simp only [writeCells]
    split
    · rename_i hab
      refine cellsWf_consCell a v _ ha ?_ h
      simp only [List.all_cons, Bool.and_eq_true, decide_eq_true_eq]
      exact ⟨hab, all_lt_of_lt hab hall⟩
    · split
      · rename_i _ hab
        subst hab
        exact cellsWf_consCell a v rest ha hall hrest
      · rename_i hab hne
        simp only [cellsWf, Bool.and_eq_true, decide_eq_true_eq, bne_iff_ne]
        exact ⟨⟨⟨hb, hw⟩, all_lt_writeCells rest a b v (by omega) hall⟩, ih hrest⟩

/-- A write inside the memory keeps its canonical form. -/
theorem Memory.write_wf (m : Memory) (a : Nat) (v : Sample) (ha : a < 16) (h : m.wf = true) :
    (m.write a v).wf = true :=
  cellsWf_writeCells m.cells a v ha h

/-- Every access by `MemWrite` keeps the canonical form, in a configuration with 16 words. -/
theorem memWrite_wf (s : State) (i : Nat) (v : Sample) (hlen : s.cfg.memLen = 16) (h : s.memory.wf = true) :
    (memWrite s i v).memory.wf = true := by
  unfold memWrite
  split
  · exact Memory.write_wf _ _ _ (by omega) h
  · exact h

/-- `MemRead` inside the memory has no side effect (R68). -/
theorem memRead_inside (s : State) (i : Nat) (h : i < s.cfg.memLen) : memRead s i = (s.memory.read i, s) := by
  simp [memRead, h]

/-- `MemWrite` inside the memory writes one word and nothing else. -/
theorem memWrite_inside (s : State) (i : Nat) (v : Sample) (h : i < s.cfg.memLen) :
    memWrite s i v = { s with memory := s.memory.write i v } := by
  simp [memWrite, h]

/-- `MemWrite` leaves memory alone or writes one word of it; it raises `IndexRange` in the first case only. -/
theorem memWrite_cases (s : State) (i : Nat) (v : Sample) :
    (i < s.cfg.memLen ∧ memWrite s i v = { s with memory := s.memory.write i v }) ∨
      (s.cfg.memLen ≤ i ∧ memWrite s i v = s.raiseIndexRange) := by
  unfold memWrite
  split
  · exact .inl ⟨‹_›, rfl⟩
  · exact .inr ⟨by omega, rfl⟩

/-- The memory after reset is in canonical form. -/
theorem reset_memory_wf : State.reset.memory.wf = true := rfl

end Sys2Proof.Machine
end

