-- ==== Sys2Proof/Laws/Ops.lean ====
section
/-! SUPPORT. What each shared operation can do, once: outcomes, operations by themselves, alarms, the entry of a
callback, the analog read. -/

namespace Sys2Proof.Machine

/-! ### Outcomes -/

@[simp] theorem andThen_next (s : State) (f : State → Out) : andThen (.next s) f = f s := rfl
@[simp] theorem andThen_fault (r : Fault) (f : State → Out) : andThen (.fault r) f = .fault r := rfl
@[simp] theorem andThen_refused (r : Refusal) (f : State → Out) : andThen (.refused r) f = .refused r := rfl

/-- Two operations answer a next state exactly through a state between them. -/
theorem andThen_eq_next {o : Out} {f : State → Out} {t : State} :
    andThen o f = .next t ↔ ∃ s, o = .next s ∧ f s = .next t := by
  cases o <;> simp [andThen]

theorem andThen_assoc (o : Out) (f g : State → Out) :
    andThen (andThen o f) g = andThen o fun s => andThen (f s) g := by
  cases o <;> rfl

/-! ### Operations by themselves -/

/-- An operation of INT or MAIN answers a next state exactly while powered, and then its recorded effect. -/
theorem engineOp_eq_next {i : Instr} {body : State → State} {s t : State} :
    engineOp i body s = .next t ↔ s.powered = true ∧ t = body (s.record i) := by
  unfold engineOp perform
  split
  · rename_i h
    simp only [Host.Outcome.next.injEq, h, true_and]
    exact eq_comm
  · simp_all

theorem engineOp_of_powered (i : Instr) (body : State → State) (s : State) (h : s.powered = true) :
    engineOp i body s = .next (body { s with optrace := s.optrace ++ [(s.nowUs, encode i)] }) := by
  simp [engineOp, perform, h, record_of_powered]

/-- A pure-function word answers a next state exactly where it has a value; the state then changes in its trace
and in the value only. -/
theorem functionOp_eq_next {i : Instr} {v : Option FnValue} {s t : State} :
    functionOp i v s = .next t ↔ ∃ x, v = some x ∧ t = { s.record i with lastValue := some x } := by
  cases v with
  | none => simp [functionOp]
  | some x =>
    simp only [functionOp, Host.Outcome.next.injEq, Option.some.injEq, exists_eq_left']
    exact eq_comm

/-! ### Alarms -/

@[simp] theorem Alarms.deadline_arm_same (a : Alarms) (ev : Event) (d : Nat) :
    (a.arm ev d).deadline ev.slot = some d := by
  cases ev <;> rfl

theorem Alarms.deadline_arm_other (a : Alarms) (ev : Event) (d : Nat) (slot : Slot) (h : slot ≠ ev.slot) :
    (a.arm ev d).deadline slot = a.deadline slot := by
  cases ev <;> cases slot <;> simp_all [Alarms.arm, Alarms.deadline, Event.slot]

@[simp] theorem Alarms.deadline_disarm_same (a : Alarms) (slot : Slot) : (a.disarm slot).deadline slot = none := by
  cases slot <;> rfl

theorem Alarms.deadline_disarm_other (a : Alarms) (slot other : Slot) (h : other ≠ slot) :
    (a.disarm slot).deadline other = a.deadline other := by
  cases slot <;> cases other <;> simp_all [Alarms.disarm, Alarms.deadline]

theorem Armed.first_eq_none {x y : Option Armed} : Armed.first x y = none ↔ x = none ∧ y = none := by
  cases x <;> cases y <;> simp [Armed.first]
  split <;> simp

/-- Of two callbacks the first is one of them, and no later than the other. -/
theorem Armed.first_eq_some {x y : Option Armed} {c : Armed} (h : Armed.first x y = some c) :
    (x = some c ∧ ∀ b, y = some b → c.2 ≤ b.2) ∨ (y = some c ∧ ∀ a, x = some a → c.2 < a.2) := by
  cases x with
  | none => right; simp_all [Armed.first]
  | some a =>
    cases y with
    | none => left; simp_all [Armed.first]
    | some b =>
      simp only [Armed.first] at h
      split at h
      · right; simp_all
      · left; simp_all

/-- What is due is the next alarm, and its deadline is not after the target. -/
theorem due_eq_some {s : State} {target : Nat} {c : Armed} :
    s.due target = some c ↔ s.alarm.next = some c ∧ c.2 ≤ target := by
  unfold State.due
  cases s.alarm.next with
  | none => simp
  | some a =>
    simp only
    split
    · constructor
      · rintro ⟨⟩; exact ⟨rfl, ‹_›⟩
      · rintro ⟨⟨⟩, -⟩; rfl
    · constructor
      · rintro ⟨⟩
      · rintro ⟨⟨⟩, h⟩; exact absurd h ‹_›

/-- Nothing is due exactly when no deadline is at or before the target. -/
theorem due_eq_none {s : State} {target : Nat} :
    s.due target = none ↔ ∀ c, s.alarm.next = some c → target < c.2 := by
  unfold State.due
  cases s.alarm.next with
  | none => simp
  | some a => simp only; split <;> simp_all

/-- The entry of a callback writes the clock and the alarms, and nothing else (R298). -/
theorem enterCallback_frame (s : State) (c : Armed) :
    s.enterCallback c =
      { s with nowUs := (s.enterCallback c).nowUs, alarm := (s.enterCallback c).alarm } := by
  obtain ⟨ev, d⟩ := c
  cases ev <;> rfl

@[simp] theorem enterCallback_nowUs (s : State) (c : Armed) : (s.enterCallback c).nowUs = max s.nowUs c.2 := by
  obtain ⟨ev, d⟩ := c
  cases ev <;> rfl

/-- R302, R303: a one-shot slot is disarmed, the periodic one re-armed one period later. -/
theorem enterCallback_alarm (s : State) (ev : Event) (d : Nat) :
    (s.enterCallback (ev, d)).alarm =
      if ev = .tempo then s.alarm.arm .tempo (d + 1000 * s.cfg.tempoReadMs) else s.alarm.disarm ev.slot := by
  cases ev <;> rfl

/-! ### The analog read -/

/-- `AdcRead` writes `adc_sel`, and the free-value counter where it draws (R66). -/
theorem adcRead_state (s : State) (ch : AdcChannel) :
    (adcRead s ch).2 = { s with adcSel := ch, freeCount := (adcRead s ch).2.freeCount } := by
  unfold adcRead
  cases ch
  · simp only; split <;> rfl
  · rfl

theorem adcRead_tempo (s : State) : adcRead s .tempo = (s.analogIn 16, { s with adcSel := .tempo }) := rfl

theorem adcRead_settled (s : State) (h : s.settled = true) :
    adcRead s .cv = (s.analogIn s.selectedSource, { s with adcSel := .cv }) := by
  simp [adcRead, h]

/-! ### Pins -/

/-- A level is legal exactly where it is a setting of the pin (R84, R90 (c)). -/
theorem pinSetting?_isSome (p : Pin) (level : BitVec 2) : (pinSetting? p level).isSome = legalLevel p level := by
  revert p level
  intro p
  cases p <;> decide

theorem bitLevel?_eq_some {level : BitVec 2} {b : Bool} (h : bitLevel? level = some b) :
    (if b then 1 else 0) = level := by
  revert h; revert level b; decide

theorem QMode.number_ofNumber? {level : BitVec 2} {m : QMode} (h : QMode.ofNumber? level = some m) :
    m.number = level := by
  revert h; cases m <;> revert level <;> decide

/-- The level a pin is driven to is the level it then has. -/
theorem PinLevels.level_put {p : Pin} {level : BitVec 2} {v : PinSetting} (l : PinLevels)
    (h : pinSetting? p level = some v) : (l.put v).level p = level := by
  cases p <;> simp only [pinSetting?, Option.map_eq_some_iff] at h <;> obtain ⟨b, hb, rfl⟩ := h
  case qmodeSel => exact QMode.number_ofNumber? hb
  all_goals exact bitLevel?_eq_some hb

/-- Driving one pin leaves the level of every other. -/
theorem PinLevels.level_put_other {p q : Pin} {level : BitVec 2} {v : PinSetting} (l : PinLevels)
    (h : pinSetting? p level = some v) (hq : q ≠ p) : (l.put v).level q = l.level q := by
  cases p <;> simp only [pinSetting?, Option.map_eq_some_iff] at h <;> obtain ⟨b, hb, rfl⟩ := h <;>
    cases q <;> first | rfl | exact absurd rfl hq

end Sys2Proof.Machine
end

