-- ==== Sys2Proof/Laws/Blocks.lean ====
section
/-! SUPPORT. What the shared operations of the engine's blocks can do, each said once: alarms, multiplexer lines,
tempo hysteresis, hold classification, quantizer, rescaler, DAC. -/

namespace Sys2Proof.Machine

/-! ### Alarms (R300, R301) -/

/-- `Schedule` arms its own slot at now plus the delay in milliseconds. -/
@[simp] theorem schedule_deadline_same (s : State) (ev : Event) (ms : Nat) :
    (s.schedule ev ms).alarm.deadline ev.slot = some (s.nowUs + 1000 * ms) := by
  cases ev <;> rfl

/-- `Schedule` leaves every other slot. -/
theorem schedule_deadline_other (s : State) (ev : Event) (ms : Nat) (slot : Slot) (h : slot ≠ ev.slot) :
    (s.schedule ev ms).alarm.deadline slot = s.alarm.deadline slot :=
  Alarms.deadline_arm_other _ _ _ _ h

/-- `Cancel` leaves its slot unarmed. -/
@[simp] theorem cancel_deadline_same (s : State) (slot : Slot) : (s.cancel slot).alarm.deadline slot = none := by
  cases slot <;> rfl

/-- `Cancel` leaves every other slot. -/
theorem cancel_deadline_other (s : State) (slot other : Slot) (h : other ≠ slot) :
    (s.cancel slot).alarm.deadline other = s.alarm.deadline other :=
  Alarms.deadline_disarm_other _ _ _ h

/-! ### Multiplexer lines (R88, R170, R172) -/

/-- `MUX.SET` writes the five lines and restarts the settle time, and nothing else. -/
theorem muxSet_eq (idx : BitVec 4) (s : State) :
    muxSet idx s =
      { s with muxA := muxAddress idx, muxInh0 := muxBank idx, muxInh1 := !muxBank idx, muxSetTime := s.nowUs } := by
  have h : ¬ 15 < idx.toNat := by have := idx.isLt; omega
  simp [muxSet, muxSetIndex, h]

/-- The address lines and the bank bit put together are the index. -/
theorem muxAddress_muxBank (idx : BitVec 4) :
    8 * (if muxBank idx then 1 else 0) + (muxAddress idx).toNat = idx.toNat := by
  revert idx; decide

/-- After `MUX.SET idx` the lines select source `idx`. -/
@[simp] theorem muxSet_selectedSource (idx : BitVec 4) (s : State) :
    (muxSet idx s).selectedSource = idx.toNat := by
  rw [muxSet_eq]; exact muxAddress_muxBank idx

/-! ### Tempo (R146) and holds (R115) -/

/-- The hysteresis keeps the old half-period or takes the new one. -/
theorem hysteresis_cases (c : Cfg) (old : BitVec 16) (new : Nat) :
    (c.tempoHystMs < distance new old.toNat ∧ hysteresis c old new = BitVec.ofNat 16 new) ∨
      (distance new old.toNat ≤ c.tempoHystMs ∧ hysteresis c old new = old) := by
  unfold hysteresis
  split
  · exact .inl ⟨‹_›, rfl⟩
  · exact .inr ⟨by omega, rfl⟩

/-- The three classes of a hold, and when each is answered. -/
theorem classifyHold_cases (c : Cfg) (d : Nat) :
    (1000 * c.longPressMs < d ∧ classifyHold c d = .long) ∨
      (1000 * c.bounceMs ≤ d ∧ d ≤ 1000 * c.longPressMs ∧ classifyHold c d = .short) ∨
      (d < 1000 * c.bounceMs ∧ d ≤ 1000 * c.longPressMs ∧ classifyHold c d = .bounce) := by
  unfold classifyHold
  split
  · exact .inl ⟨‹_›, rfl⟩
  · split
    · exact .inr (.inl ⟨‹_›, by omega, rfl⟩)
    · exact .inr (.inr ⟨by omega, by omega, rfl⟩)

/-! ### Quantizer (R211 to R215) -/

/-- `Q.D2S` is odd. -/
theorem qD2S_neg (c : Cfg) (d : Int) (h : 0 < c.spo) : qD2S c (-d) = -qD2S c d := by
  unfold qD2S
  rw [Int.neg_mul]
  exact rdiv_neg _ _ h

/-- `Q.S2D` is odd. -/
theorem qS2D_neg (c : Cfg) (k : Int) : qS2D c (-k) = -qS2D c k := by
  unfold qS2D
  rw [Int.neg_mul]
  exact rdiv_neg _ _ (by decide)

/-- A note is in `0 .. 11`. -/
theorem noteOf_lt (semis : Int) : noteOf semis < 12 := by
  have := fmod_range semis 12 (by decide)
  unfold noteOf; omega

/-- A semitone count is twelve for each octave, and its note. -/
theorem octave_note (semis : Int) : 12 * fdiv semis 12 + noteOf semis = semis := by
  have h := fmod_range semis 12 (by decide)
  have e := fdiv_add_fmod semis 12
  unfold noteOf; omega

/-- What `Q.APPLY` answers in each mode. -/
theorem quantize_cases (c : Cfg) (mode : QMode) (scale x : Nat) :
    (mode = .unquantized ∧ quantize c mode scale x = some (x : Int)) ∨
      (mode = .chromatic ∧ quantize c mode scale x = some (qChrom c x)) ∨
      (mode = .scaleSnapped ∧ quantize c mode scale x = (c.scaleTable[scale]?).map fun t => qSnap c t x) := by
  cases mode <;> simp [quantize]

/-- `STEP.S5`'s latch is the quantized value, with no draw, or a draw where no table has the active number. -/
theorem quantizeOut_cases (s : State) (v : Sample) :
    (∃ q, quantize s.cfg s.quantizeMode s.activeScale.toNat v.toNat = some q ∧
        quantizeOut s v = (BitVec.ofInt 32 q, s)) ∨
      (quantize s.cfg s.quantizeMode s.activeScale.toNat v.toNat = none ∧
        quantizeOut s v = (s.freeValue, s.drawn)) := by
  unfold quantizeOut
  split
  · exact .inl ⟨_, ‹_›, rfl⟩
  · exact .inr ⟨‹_›, rfl⟩

/-! ### Rescaler (R240) -/

/-- The rescaler on the two sides of the midpoint. -/
theorem rScale_cases (c : Cfg) (r : PotRange) (x : Nat) :
    (c.mid ≤ x ∧ rScale c r x = c.mid + ((x - c.mid) * targetSpan c r / c.fullSpan : Nat)) ∨
      (x < c.mid ∧ rScale c r x = c.mid - ((c.mid - x) * targetSpan c r / c.fullSpan : Nat)) := by
  unfold rScale
  split
  · exact .inl ⟨‹_›, rfl⟩
  · exact .inr ⟨by omega, rfl⟩

/-! ### DAC (R186, R192) -/

/-- A frame sent is one output event at the present time. -/
theorem dacWrite_eq (s : State) (code : Nat) :
    s.dacWrite code =
      { s with outtrace := s.outtrace ++ [(s.nowUs, .dac s.cfg.dacCmd (BitVec.ofNat 8 (code / 16))
          (BitVec.ofNat 8 (code % 16 * 16)))] } := rfl

/-- A frame of unspecified bytes is one output event of drawn bytes. -/
theorem dacWriteUnspecified_eq (s : State) :
    ∃ b0 b1 b2, s.dacWriteUnspecified =
      { s with outtrace := s.outtrace ++ [(s.nowUs, .dacx b0 b1 b2)], freeCount := s.freeCount + 1 } :=
  ⟨_, _, _, rfl⟩

/-- `STEP.S6` sends a code in range, and else records the fault and sends a frame of unspecified bytes. -/
theorem stepS6_cases (s : State) :
    (0 ≤ s.sOut.toInt ∧ s.sOut.toInt ≤ s.cfg.codeMax ∧
        stepS6 s = { s.dacWrite s.sOut.toInt.toNat with seq := .s7 }) ∨
      (¬ (0 ≤ s.sOut.toInt ∧ s.sOut.toInt ≤ s.cfg.codeMax) ∧
        stepS6 s = { s.raiseDacRange.dacWriteUnspecified with seq := .s7 }) := by
  unfold stepS6
  split
  · rename_i h; exact .inl ⟨h.1, h.2, rfl⟩
  · exact .inr ⟨‹_›, rfl⟩

/-! ### Main loop (R251) -/

/-- What a poll of the clock switch can do. -/
theorem pollClockSource_cases (s : State) :
    (s.pinLevel.extClkEn = true ∧ s.externalTrigger = false ∧ pollClockSource s = extclkEnter s) ∨
      (s.pinLevel.extClkEn = false ∧ s.externalTrigger = true ∧ pollClockSource s = extclkLeave s) ∨
      (s.pinLevel.extClkEn = s.externalTrigger ∧ pollClockSource s = s) := by
  unfold pollClockSource
  cases s.pinLevel.extClkEn <;> cases s.externalTrigger <;> simp

end Sys2Proof.Machine
end

