-- ==== Sys2Proof/Laws/Firing.lean ====
section
/-! SUPPORT. Firing callbacks, dispatch and the passage of time: what each can do, once. -/

namespace Sys2Proof.Machine

/-- The fields a callback may write (R141, R142, R113, R190, R146 with R298, R302, R303): every other field is
as before. -/
theorem fire_frame (s : State) (c : Armed) :
    s.fire c =
      { s with
        triggerPending := (s.fire c).triggerPending
        rangeTogglePending := (s.fire c).rangeTogglePending
        tempoDelayMs := (s.fire c).tempoDelayMs
        nowUs := (s.fire c).nowUs
        edgeEn := (s.fire c).edgeEn
        alarm := (s.fire c).alarm
        adcSel := (s.fire c).adcSel
        trigOut := (s.fire c).trigOut
        statusLed := (s.fire c).statusLed
        optrace := (s.fire c).optrace } := by
  obtain ⟨ev, d⟩ := c
  unfold State.fire perform State.record
  cases ev with
  | beat p =>
    cases p
    · simp only [Event.handler, clkTrig]; split <;> split <;> rfl
    · simp only [Event.handler, clkAnt]; split <;> rfl
  | debounce => simp only [Event.handler, tbRecheck]; split <;> split <;> (try split) <;> rfl
  | trigOff => simp only [Event.handler]; split <;> rfl
  | tempo => simp only [Event.handler, tempoRead, adcRead_tempo]; split <;> rfl

/-- Firing moves the clock to the deadline. -/
@[simp] theorem fire_nowUs (s : State) (c : Armed) : (s.fire c).nowUs = max s.nowUs c.2 := by
  obtain ⟨ev, d⟩ := c
  unfold State.fire perform State.record
  cases ev with
  | beat p =>
    cases p
    · simp only [Event.handler, clkTrig]; split <;> split <;> rfl
    · simp only [Event.handler, clkAnt]; split <;> rfl
  | debounce => simp only [Event.handler, tbRecheck]; split <;> split <;> (try split) <;> rfl
  | trigOff => simp only [Event.handler]; split <;> rfl
  | tempo => simp only [Event.handler, tempoRead, adcRead_tempo]; split <;> rfl

@[simp] theorem fire_powered (s : State) (c : Armed) : (s.fire c).powered = s.powered := by rw [fire_frame]
@[simp] theorem fire_cfg (s : State) (c : Armed) : (s.fire c).cfg = s.cfg := by rw [fire_frame]

/-- Where nothing is due, nothing is fired. -/
theorem runDue_of_none (target fuel : Nat) (s : State) (h : s.due target = none) :
    runDue target fuel s = some s := by
  cases fuel <;> simp [runDue, h]

/-- What the firing of due callbacks leaves has nothing due. -/
theorem runDue_done {target fuel : Nat} {s t : State} (h : runDue target fuel s = some t) :
    t.due target = none := by
  induction fuel generalizing s with
  | zero =>
    simp only [runDue] at h
    split at h
    · exact absurd h (by simp)
    · cases h; simp_all
  | succ n ih =>
    simp only [runDue] at h
    split at h
    · cases h; assumption
    · exact ih h

/-- What every single firing keeps, the firing of due callbacks keeps. -/
theorem runDue_keeps {target fuel : Nat} {P : State → Prop}
    (hstep : ∀ s c, P s → s.due target = some c → P (s.fire c)) {s t : State}
    (h : runDue target fuel s = some t) (hs : P s) : P t := by
  induction fuel generalizing s with
  | zero =>
    simp only [runDue] at h
    split at h
    · exact absurd h (by simp)
    · cases h; exact hs
  | succ n ih =>
    simp only [runDue] at h
    split at h
    · cases h; exact hs
    · exact ih h (hstep _ _ hs ‹_›)

/-- More fuel gives the same answer. -/
theorem runDue_more {target fuel more : Nat} {s t : State} (h : runDue target fuel s = some t)
    (hle : fuel ≤ more) : runDue target more s = some t := by
  induction fuel generalizing s more with
  | zero =>
    simp only [runDue] at h
    split at h
    · exact absurd h (by simp)
    · cases h; exact runDue_of_none _ _ _ (by simp_all)
  | succ n ih =>
    obtain ⟨m, rfl⟩ : ∃ m, more = m + 1 := ⟨more - 1, by omega⟩
    simp only [runDue] at h ⊢
    split at h
    · exact h
    · exact ih h (by omega)

/-- What `Dispatch()` can do: nothing while unpowered, and else the firing of what is due, which leaves nothing
due (R276). -/
theorem dispatch_eq_next {s t : State} :
    dispatch s = .next t ↔
      (s.powered = false ∧ t = s) ∨ (s.powered = true ∧ runDue s.nowUs (firingBound s.nowUs) s = some t) := by
  unfold dispatch
  split
  · rename_i h
    split <;> simp_all
  · rename_i h
    have h' : s.powered = false := by simpa using h
    simp only [Host.Outcome.next.injEq, h', true_and, Bool.false_eq_true, false_and, or_false]
    exact eq_comm

/-- Where nothing is due, `Dispatch()` does nothing. -/
theorem dispatch_of_none (s : State) (h : s.due s.nowUs = none) : dispatch s = .next s := by
  unfold dispatch
  rw [runDue_of_none _ _ _ h]
  split <;> rfl

/-- What the passage of time can do: the callbacks due up to the target fire, and the clock stands at it. -/
theorem advanceTo_eq_next {target : Nat} {s t : State} :
    advanceTo target s = .next t ↔
      ∃ u, runDue target (firingBound target) s = some u ∧ t = { u with nowUs := target } := by
  unfold advanceTo
  split
  · rename_i u hu
    simp only [hu, Host.Outcome.next.injEq, Option.some.injEq, exists_eq_left']
    exact eq_comm
  · simp_all

/-- The settle wait in a state that is settled and has nothing due only records itself (R171). -/
theorem settleWait_of_settled (s : State) (h : s.settled = true) (hd : s.due s.nowUs = none) :
    settleWait s = .next (s.record .muxSettle) := by
  have hs : settleEnd s = s.nowUs := by
    simp only [State.settled, decide_eq_true_eq] at h
    simp only [settleEnd]; omega
  simp only [settleWait, hs, advanceTo, runDue_of_none _ _ _ hd, andThen_next]

end Sys2Proof.Machine
end

