-- ==== Sys2Proof/Laws/Agents.lean ====
section
/-! SUPPORT. What the shared operations of the agents can do: edges, MAIN operations in a row, turns. -/

namespace Sys2Proof.Machine

/-! ### Edges (R111, R119, R273) -/

/-- What the edge of a pin can do: a handler runs as one recorded operation, or nothing happens. -/
theorem runEdge_cases (p : Pin) (old new : BitVec 2) (s : State) :
    (∃ i body, edgeHandler s.edgeEn p old new = some (i, body) ∧ runEdge p old new s = body (s.record i)) ∨
      (edgeHandler s.edgeEn p old new = none ∧ runEdge p old new s = s) := by
  unfold runEdge
  split
  · exact .inl ⟨_, _, ‹_›, rfl⟩
  · exact .inr ⟨‹_›, rfl⟩

/-- A `PIN` that repeats the level is no edge. -/
theorem edgeHandler_same (en : EdgeEnables) (p : Pin) (level : BitVec 2) : edgeHandler en p level level = none := by
  have h0 : ¬ (level = 0 ∧ level = 1) := by revert level; decide
  have h1 : ¬ (level = 1 ∧ level = 0) := fun h => h0 ⟨h.2, h.1⟩
  cases p <;> simp only [edgeHandler] <;> split_ifs <;> first | rfl | tauto

/-- What driving a pin of an unpowered engine does: only `pin_drive` changes. -/
theorem drivePin_unpowered (p : Pin) (level : BitVec 2) (v : PinSetting) (s : State) (h : s.powered = false) :
    drivePin p level v s = { s with pinDrive := s.pinDrive.put v } := by
  simp [drivePin, h]

/-! ### MAIN operations in a row (R259) -/

/-- One MAIN operation and the dispatch after it. -/
theorem mainOp_eq_next {i : Instr} {body : State → State} {s t : State} :
    mainOp i body s = .next t ↔ dispatch (body (s.record i)) = .next t := Iff.rfl

@[simp] theorem mainOps_nil (s : State) : mainOps [] s = .next s := rfl

theorem mainOps_cons (i : Instr) (body : State → State) (rest : List (Instr × (State → State))) (s : State) :
    mainOps ((i, body) :: rest) s = andThen (mainOp i body s) (mainOps rest) := rfl

/-- What every operation of a row keeps, the row keeps. -/
theorem mainOps_keeps {P : State → Prop} (ops : List (Instr × (State → State)))
    (hop : ∀ o ∈ ops, ∀ s t, P s → mainOp o.1 o.2 s = .next t → P t) {s t : State}
    (h : mainOps ops s = .next t) (hs : P s) : P t := by
  induction ops generalizing s with
  | nil => cases h; exact hs
  | cons o rest ih =>
    obtain ⟨i, body⟩ := o
    rw [mainOps_cons, andThen_eq_next] at h
    obtain ⟨m, hm, hr⟩ := h
    exact ih (fun o ho => hop o (List.mem_cons_of_mem _ ho)) hr (hop _ List.mem_cons_self _ _ hs hm)

/-! ### Turns -/

/-- A turn is taken only in a well-formed configuration (R10). -/
theorem checkedTurn_eq_next {t : Turn} {s u : State} :
    checkedTurn t s = .next u ↔ s.cfg.wf = true ∧ takeTurn t s = .next u := by
  unfold checkedTurn
  split <;> simp_all

/-- What an operation of the agenda can do: it decodes, it is performed, and what is due is dispatched. -/
theorem performTurn_eq_next {r : Except Invalid Instr} {s u : State} :
    performTurn r s = .next u ↔ ∃ i m, r = .ok i ∧ exec i s = .next m ∧ dispatch m = .next u := by
  cases r with
  | error e => simp [performTurn]
  | ok i => simp [performTurn, andThen_eq_next]

/-- A script's word decodes exactly as an injectable operation (R91). -/
theorem decodeScript_eq_ok {n : Nat} {w : Word} {i : Instr} :
    decodeScript n w = .ok i ↔ decode n w = .ok i ∧ i.injectable = true := by
  unfold decodeScript
  split
  · simp_all
  · rename_i j h
    rw [h]
    by_cases hj : j.injectable = true
    · simp only [hj, if_true, Except.ok.injEq]
      exact ⟨fun e => ⟨e, e ▸ hj⟩, fun e => e.1⟩
    · constructor
      · intro e; simp [hj] at e
      · rintro ⟨e, hi⟩; cases e; exact absurd hi hj

end Sys2Proof.Machine
end

