-- ==== Sys2Proof/Laws/Encoding.lean ====
section
/-! SUPPORT. The fields of an operation word (spec/30_encoding.md R80, R82): what the field extractions answer on a
word put together from its fields, and what each numbering answers on its own numbers. -/

namespace Sys2Proof

/-- The opcode of a word put together from an opcode and an operand field. -/
@[simp] theorem opcodeField_append (op : BitVec 8) (x : BitVec 24) : opcodeField (op ++ x) = op := by
  apply BitVec.eq_of_getLsbD_eq
  intro i hi
  rw [opcodeField, BitVec.getLsbD_extractLsb']
  erw [BitVec.getLsbD_append]
  simp [hi]

/-- The operand field of a word put together from an opcode and an operand field. -/
@[simp] theorem operandField_append (op : BitVec 8) (x : BitVec 24) : operandField (op ++ x) = x := by
  apply BitVec.eq_of_getLsbD_eq
  intro i hi
  rw [operandField, BitVec.getLsbD_extractLsb']
  erw [BitVec.getLsbD_append]
  simp [hi]

/-- A word is its opcode before its operand field. -/
theorem opcode_operand_append (w : Word) : opcodeField w ++ operandField w = w := by
  apply BitVec.eq_of_getLsbD_eq
  intro i hi
  rw [BitVec.getLsbD_append, operandField, opcodeField, BitVec.getLsbD_extractLsb', BitVec.getLsbD_extractLsb']
  by_cases h : i < 24
  · simp [h]
  · have h8 : i - 24 < 8 := by omega
    have e : 24 + (i - 24) = i := by omega
    simp [h, h8, e]

/-- Decoding an operation word reads the operation's own opcode and operands. -/
theorem decode_encode_fields (n : Nat) (i : Instr) : decode n (encode i) = decodeFields n i.opcode i.operands := by
  simp [decode, encode]

@[simp] theorem Pin.ofNumber?_number (p : Pin) : Pin.ofNumber? p.number = some p := by cases p <;> rfl
@[simp] theorem QMode.ofNumber?_number (m : QMode) : QMode.ofNumber? m.number = some m := by cases m <;> rfl
@[simp] theorem PotRange.ofNumber?_number (r : PotRange) : PotRange.ofNumber? r.number = some r := by cases r <;> rfl

/-- A pin number names a pin exactly where the pin has that number. -/
theorem Pin.ofNumber?_eq_some {n : BitVec 8} {p : Pin} : Pin.ofNumber? n = some p ↔ p.number = n := by
  constructor
  · intro h
    unfold Pin.ofNumber? at h
    split at h
    case h_8 => cases h
    all_goals
      injection h with h; subst h; apply BitVec.eq_of_toNat_eq; simp [Pin.number, *]
  · rintro rfl; simp

/-- A mode number names a mode exactly where the mode has that number. -/
theorem QMode.ofNumber?_eq_some {n : BitVec 2} {m : QMode} : QMode.ofNumber? n = some m ↔ m.number = n := by
  constructor
  · revert n; cases m <;> decide
  · rintro rfl; simp

/-- A range number names a range exactly where the range has that number. -/
theorem PotRange.ofNumber?_eq_some {n : BitVec 2} {r : PotRange} :
    PotRange.ofNumber? n = some r ↔ r.number = n := by
  constructor
  · revert n; cases r <;> decide
  · rintro rfl; simp

/-- A source number names a source exactly where the source has that number. -/
theorem sourceOfNumber?_eq_some {n : BitVec 8} {c : Fin 17} : sourceOfNumber? n = some c ↔ n.toNat = c.val := by
  unfold sourceOfNumber?
  split
  · rename_i h
    constructor
    · intro e; injection e with e; rw [← e]
    · intro e; exact congrArg some (Fin.ext e)
  · rename_i h
    constructor
    · intro e; exact absurd e (by simp)
    · intro e; exact absurd (e ▸ c.isLt) h

end Sys2Proof
end

