-- ==== Sys2Proof/Laws/PerInstr.lean ====
section
/-! SUPPORT. Statements about every operation, one lemma for each constructor of `Instr`. -/

namespace Sys2Proof.Laws.EncodeFields

/-- The word of an operation holds its opcode in `W[31:24]` and its operands in `W[23:0]` (R80). -/
def Statement (i : Instr) : Prop := opcodeField (encode i) = i.opcode ∧ operandField (encode i) = i.operands

/-- Both fields of a word are read back as the encoder put them. -/
theorem of_append (i : Instr) : Statement i := ⟨opcodeField_append _ _, operandField_append _ _⟩

theorem reset : Statement .reset := of_append _
theorem adv (tUs : BitVec 24) : Statement (.adv tUs) := of_append _
theorem pin (p : Pin) (level : BitVec 2) : Statement (.pin p level) := of_append _
theorem ain (chan : Fin 17) (code : Code) : Statement (.ain chan code) := of_append _
theorem loop : Statement .loop := of_append _
theorem tbRise : Statement .tbRise := of_append _
theorem tbRecheck : Statement .tbRecheck := of_append _
theorem mbRise : Statement .mbRise := of_append _
theorem mbFall : Statement .mbFall := of_append _
theorem xtRise : Statement .xtRise := of_append _
theorem xmRise : Statement .xmRise := of_append _
theorem clkTrig : Statement .clkTrig := of_append _
theorem clkAnt : Statement .clkAnt := of_append _
theorem clkReset : Statement .clkReset := of_append _
theorem clkCancel : Statement .clkCancel := of_append _
theorem tempoRead : Statement .tempoRead := of_append _
theorem tempoMap (code : Code) : Statement (.tempoMap code) := of_append _
theorem muxSet (idx : BitVec 4) : Statement (.muxSet idx) := of_append _
theorem muxSettle : Statement .muxSettle := of_append _
theorem stepS1 : Statement .stepS1 := of_append _
theorem stepS2 : Statement .stepS2 := of_append _
theorem stepS3 : Statement .stepS3 := of_append _
theorem stepS4 : Statement .stepS4 := of_append _
theorem stepS5 : Statement .stepS5 := of_append _
theorem stepS6 : Statement .stepS6 := of_append _
theorem stepS7 : Statement .stepS7 := of_append _
theorem stepS8 : Statement .stepS8 := of_append _
theorem stepS9 : Statement .stepS9 := of_append _
theorem trigOff : Statement .trigOff := of_append _
theorem dacFrame (code : Code) : Statement (.dacFrame code) := of_append _
theorem qD2S (val : BitVec 16) : Statement (.qD2S val) := of_append _
theorem qS2D (val : BitVec 16) : Statement (.qS2D val) := of_append _
theorem qChrom (code : Code) : Statement (.qChrom code) := of_append _
theorem qSnap (scale : BitVec 4) (code : Code) : Statement (.qSnap scale code) := of_append _
theorem qApply (mode : QMode) (scale : BitVec 4) (code : Code) : Statement (.qApply mode scale code) := of_append _
theorem rScale (range : PotRange) (code : Code) : Statement (.rScale range code) := of_append _
theorem lPollsw : Statement .lPollsw := of_append _
theorem lMode : Statement .lMode := of_append _
theorem lScale : Statement .lScale := of_append _
theorem lRange : Statement .lRange := of_append _
theorem lStep : Statement .lStep := of_append _
theorem extclkEnter : Statement .extclkEnter := of_append _
theorem extclkLeave : Statement .extclkLeave := of_append _

end Sys2Proof.Laws.EncodeFields
end

