-- ==== Sys2Proof/Machine/Script.lean ====
section
/-! DEFINITION. The text of a script and its pseudo-operations (spec/30_encoding.md R92, R93): an assembler from
text to operation words. -/

namespace Sys2Proof.Machine

/-! ### Lines and tokens -/

/-- The pieces of a text between separators. -/
def splitAt (sep : Char) : List Char → List (List Char)
  | [] => [[]]
  | c :: cs =>
    if c = sep then [] :: splitAt sep cs
    else match splitAt sep cs with
      | [] => [[c]]
      | t :: ts => (c :: t) :: ts

/-- A blank: a space or a tabulator. -/
def isBlank (c : Char) : Bool := c = ' ' || c = '\t' || c = '\r'

/-- A text without the blanks around it. -/
def trimBlanks (cs : List Char) : List Char := ((cs.dropWhile isBlank).reverse.dropWhile isBlank).reverse

/-- A line's text: "`;` starts a comment" (R92). -/
def lineText (cs : List Char) : List Char := trimBlanks (cs.takeWhile (· ≠ ';'))

/-- The mnemonic of a line, and its "comma-separated operands" (R92). -/
def lineParts (cs : List Char) : String × List String :=
  let line := lineText cs
  let rest := trimBlanks (line.dropWhile fun c => !isBlank c)
  (String.ofList (line.takeWhile fun c => !isBlank c),
    if rest = [] then [] else (splitAt ',' rest).map fun t => String.ofList (trimBlanks t))

/-! ### Operands: "decimal or `0x` hexadecimal", or by name (R92) -/

/-- The value of a digit in a base. -/
def digit? (base : Nat) (c : Char) : Option Nat :=
  let v :=
    if '0' ≤ c ∧ c ≤ '9' then some (c.toNat - '0'.toNat)
    else if 'a' ≤ c ∧ c ≤ 'f' then some (c.toNat - 'a'.toNat + 10)
    else if 'A' ≤ c ∧ c ≤ 'F' then some (c.toNat - 'A'.toNat + 10)
    else none
  v.filter (· < base)

/-- The number a run of digits stands for, after the digits read so far. -/
def digits? (base : Nat) (acc : Nat) : List Char → Option Nat
  | [] => some acc
  | c :: cs => (digit? base c).bind fun d => digits? base (acc * base + d) cs

/-- An unsigned number. -/
def numberChars? : List Char → Option Nat
  | [] => none
  | '0' :: 'x' :: c :: cs => digits? 16 0 (c :: cs)
  | c :: cs => digits? 10 0 (c :: cs)

/-- An unsigned operand. -/
def number? (t : String) : Option Nat := numberChars? t.toList

/-- A signed operand, "written with its sign". -/
def signed? (t : String) : Option Int :=
  match t.toList with
  | '-' :: cs => (numberChars? cs).map fun n => -(n : Int)
  | '+' :: cs => (numberChars? cs).map Int.ofNat
  | cs => (numberChars? cs).map Int.ofNat

/-- A number that fits a field. -/
def field? (bits : Nat) (t : String) : Option (BitVec bits) :=
  (number? t).bind fun n => if n < 2 ^ bits then some (BitVec.ofNat bits n) else none

/-- A signed 16-bit operand, "encoded in two's complement". -/
def signedField? (t : String) : Option (BitVec 16) :=
  (signed? t).bind fun v => if -32768 ≤ v ∧ v ≤ 32767 then some (BitVec.ofInt 16 v) else none

/-- A pin, by name or number. -/
def pinField? (t : String) : Option Pin :=
  if t = "TRIG_BTN" then some .trigBtn
  else if t = "MODE_BTN" then some .modeBtn
  else if t = "EXT_TRIG" then some .extTrig
  else if t = "EXT_MODE" then some .extMode
  else if t = "EXT_CLK_EN" then some .extClkEn
  else if t = "POT_MODE_SW" then some .potModeSw
  else if t = "QMODE_SEL" then some .qmodeSel
  else (field? 8 t).bind Pin.ofNumber?

/-- An analog source, by name or number. -/
def sourceField? (t : String) : Option (Fin 17) :=
  if t = "TEMPO_POT" then some 16 else (field? 8 t).bind sourceOfNumber?

/-- A scale, by name or number. -/
def scaleField? (t : String) : Option (BitVec 4) :=
  if t = "MAJOR" then some 0
  else if t = "PENTA" then some 1
  else if t = "MINOR" then some 2
  else field? 4 t

/-- A quantize mode, by name or number. -/
def modeField? (t : String) : Option QMode :=
  if t = "OFF" then some .unquantized
  else if t = "CHROM" then some .chromatic
  else if t = "SNAP" then some .scaleSnapped
  else (field? 2 t).bind QMode.ofNumber?

/-- A pot range, by number. -/
def rangeField? (t : String) : Option PotRange := (field? 2 t).bind PotRange.ofNumber?

/-! ### Operations -/

/-- The operations without an operand (format `Z`). -/
def formatZ : List Instr :=
  [.reset, .loop, .tbRise, .tbRecheck, .mbRise, .mbFall, .xtRise, .xmRise, .clkTrig, .clkAnt, .clkReset,
   .clkCancel, .tempoRead, .muxSettle, .stepS1, .stepS2, .stepS3, .stepS4, .stepS5, .stepS6, .stepS7,
   .stepS8, .stepS9, .trigOff, .lPollsw, .lMode, .lScale, .lRange, .lStep, .extclkEnter, .extclkLeave]

/-- The operation of a mnemonic and its operands, "in the order of rule R82's fields" (R92). -/
def operation? (m : String) (ops : List String) : Option Instr :=
  match ops with
  | [] => formatZ.find? fun i => i.mnemonic = m
  | [a] =>
    if m = "ADV" then (field? 24 a).map .adv
    else if m = "MUX.SET" then (field? 4 a).map .muxSet
    else if m = "TEMPO.MAP" then (field? 12 a).map .tempoMap
    else if m = "DAC.FRAME" then (field? 12 a).map .dacFrame
    else if m = "Q.CHROM" then (field? 12 a).map .qChrom
    else if m = "Q.D2S" then (signedField? a).map .qD2S
    else if m = "Q.S2D" then (signedField? a).map .qS2D
    else none
  | [a, b] =>
    if m = "PIN" then (pinField? a).bind fun p => (field? 2 b).map fun l => .pin p l
    else if m = "AIN" then (sourceField? a).bind fun c => (field? 12 b).map fun x => .ain c x
    else if m = "Q.SNAP" then (scaleField? a).bind fun s => (field? 12 b).map fun x => .qSnap s x
    else if m = "R.SCALE" then (rangeField? a).bind fun r => (field? 12 b).map fun x => .rScale r x
    else none
  | [a, b, c] =>
    if m = "Q.APPLY" then
      (modeField? a).bind fun q => (scaleField? b).bind fun s => (field? 12 c).map fun x => .qApply q s x
    else none
  | _ => none

/-! ### Pseudo-operations (R93) -/

/-- `PULSE p`, `p` in 0 .. 5: `PIN p, 1` ; `PIN p, 0`. -/
def pulse (p : Pin) : List Instr := [.pin p 1, .pin p 0]

/-- `PRESS p, t`: `PIN p, 1` ; `ADV t` ; `PIN p, 0`. -/
def press (p : Pin) (t : BitVec 24) : List Instr := [.pin p 1, .adv t, .pin p 0]

/-- `WAITMS n`, `n ≤ 16777`: `ADV 1000 × n`. -/
def waitMs (n : Nat) : List Instr := [.adv (BitVec.ofNat 24 (1000 * n))]

/-- `XSTEP`: `PULSE EXT_TRIG` ; `LOOP`. -/
def xstep : List Instr := pulse .extTrig ++ [.loop]

/-- The expansion of a pseudo-operation, within its limits. -/
def pseudo? (m : String) (ops : List String) : Option (List Instr) :=
  match ops with
  | [] => if m = "XSTEP" then some xstep else none
  | [a] =>
    if m = "PULSE" then ((pinField? a).filter fun p => p ≠ .qmodeSel).map pulse
    else if m = "WAITMS" then ((number? a).filter fun n => n ≤ 16777).map waitMs
    else none
  | [a, b] => if m = "PRESS" then (pinField? a).bind fun p => (field? 24 b).map fun t => press p t else none
  | _ => none

/-- One line: an operation or a pseudo-operation. -/
def lineInstrs? (m : String) (ops : List String) : Option (List Instr) :=
  match operation? m ops with
  | some i => some [i]
  | none => pseudo? m ops

/-- The lines of a script: `REPEAT n` ... `END` gives the enclosed lines `n` times, with no nesting (R93).
`open?` holds the count and the lines of a repetition that has not ended.  An `END` line's operands are ignored, an
`END` with no `REPEAT` and a `REPEAT` with no `END` make the text no script (assumption 18, DESIGN CHOICE). -/
def assembleLines : Option (Nat × List Instr) → List (List Char) → Option (List Instr)
  | none, [] => some []
  | some _, [] => none
  | open?, l :: ls =>
    let (m, ops) := lineParts l
    if m = "" then assembleLines open? ls
    else
      match open? with
      | none =>
        match ops with
        | [a] =>
          if m = "REPEAT" then (number? a).bind fun n => assembleLines (some (n, [])) ls
          else (lineInstrs? m ops).bind fun is => (assembleLines none ls).map (is ++ ·)
        | _ => (lineInstrs? m ops).bind fun is => (assembleLines none ls).map (is ++ ·)
      | some (n, body) =>
        if m = "END" then (assembleLines none ls).map ((List.replicate n body).flatten ++ ·)
        else (lineInstrs? m ops).bind fun is => assembleLines (some (n, body ++ is)) ls

/-- The words of a script's text (R92): `none` where the text is not a script.  Whether the words may run is
the loader's question (R278). -/
def assemble (text : String) : Option (List Word) :=
  (assembleLines none (splitAt '\n' text.toList)).map fun is => is.map encode

end Sys2Proof.Machine
end

