-- ==== Sys2Proof/Tests/Slice0.lean ====
section
/-! SUPPORT. Tests: ill-formed terms refused, words of the spec decoded, vectors of spec/95_test_vectors.md run for
one operation, and for every statement of Certificates/Slice0/Obligations.lean with hypotheses a witness that meets
them. -/

namespace Sys2Proof.Tests

open Sys2Proof.Machine

/-- A field of the state an operation leaves, if it leaves one. -/
def left {α : Type} (o : Out) (f : State → α) : Option α :=
  match o with
  | .next s => some (f s)
  | .fault _ => none
  | .refused _ => none

/-- The operation has an effect. -/
def completes (o : Out) : Bool := (left o fun _ => ()).isSome

/-- Whether an outcome is this refusal. -/
def isRefused (o : Out) (r : Refusal) : Bool :=
  match o with
  | .next _ => false
  | .fault _ => false
  | .refused q => decide (q = r)

/-! ### WellFormed: one ill-formed term for each check (R90 (c), (e)) -/

theorem test_wf_level : wellFormed 3 (.pin .trigBtn 1) = true ∧ wellFormed 3 (.pin .trigBtn 2) = false ∧
    wellFormed 3 (.pin .potModeSw 3) = false := by decide
theorem test_wf_selector : wellFormed 3 (.pin .qmodeSel 2) = true ∧ wellFormed 3 (.pin .qmodeSel 3) = false := by
  decide
theorem test_wf_snap : wellFormed 3 (.qSnap 2 0) = true ∧ wellFormed 3 (.qSnap 3 0) = false := by decide
theorem test_wf_apply : wellFormed 3 (.qApply .unquantized 2 0) = true ∧
    wellFormed 3 (.qApply .unquantized 3 0) = false := by decide
theorem test_wf_config : Cfg.tc0.wf = true ∧ { Cfg.tc0 with fastMs := 1 }.wf = false ∧
    { Cfg.tc0 with slowMs := 131072 }.wf = false ∧ { Cfg.tc0 with muxSettleUs := 9 }.wf = false ∧
    { Cfg.tc0 with muxSettleUs := 100 }.wf = false ∧ { Cfg.tc0 with scaleTable := [] }.wf = false := by decide
/-- R221: an entry that is no nearest member, a root that is no member, an entry that is no member. -/
theorem test_wf_table : majorTable.wf = true ∧ pentaTable.wf = true ∧ minorTable.wf = true ∧
    ScaleTable.wf [0, 0, 2, 2, 4, 5, 5, 7, 7, 9, 9, 9] = false ∧
    ScaleTable.wf [1, 1, 2, 2, 4, 5, 5, 7, 7, 9, 9, 11] = false ∧
    ScaleTable.wf [0, 1, 0, 4, 4, 5, 5, 7, 7, 9, 9, 11] = false ∧ ScaleTable.wf [0] = false := by decide

/-! ### Decoding: words written out from the formats of R82 and the map of R86 -/

/-- Class 0; the words of R92 and of spec/95 section 3. -/
theorem test_decode_stimuli :
    decode 3 0x01000000#32 = .ok .reset ∧ decode 3 0x02004E20#32 = .ok (.adv 20000) ∧
    decode 3 0x03000001#32 = .ok (.pin .trigBtn 1) ∧ decode 3 0x03060002#32 = .ok (.pin .qmodeSel 2) ∧
    decode 3 0x04000866#32 = .ok (.ain 0 2150) ∧ decode 3 0x04100E66#32 = .ok (.ain 16 3686) ∧
    decode 3 0x05000000#32 = .ok .loop := by decide
/-- Class 1; the encoding lines of R112 to R117. -/
theorem test_decode_inputs :
    decode 3 0x10000000#32 = .ok .tbRise ∧ decode 3 0x11000000#32 = .ok .tbRecheck ∧
    decode 3 0x12000000#32 = .ok .mbRise ∧ decode 3 0x13000000#32 = .ok .mbFall ∧
    decode 3 0x14000000#32 = .ok .xtRise ∧ decode 3 0x15000000#32 = .ok .xmRise := by decide
/-- Classes 2 and 3; the encoding lines of R141 to R146, R170 and R171. -/
theorem test_decode_clock_mux :
    decode 3 0x20000000#32 = .ok .clkTrig ∧ decode 3 0x21000000#32 = .ok .clkAnt ∧
    decode 3 0x22000000#32 = .ok .clkReset ∧ decode 3 0x23000000#32 = .ok .clkCancel ∧
    decode 3 0x24000000#32 = .ok .tempoRead ∧ decode 3 0x25000E66#32 = .ok (.tempoMap 3686) ∧
    decode 3 0x3000000B#32 = .ok (.muxSet 11) ∧ decode 3 0x31000000#32 = .ok .muxSettle := by decide
/-- Class 4; the encoding lines of R181 to R191. -/
theorem test_decode_pipeline :
    decode 3 0x41000000#32 = .ok .stepS1 ∧ decode 3 0x42000000#32 = .ok .stepS2 ∧
    decode 3 0x43000000#32 = .ok .stepS3 ∧ decode 3 0x44000000#32 = .ok .stepS4 ∧
    decode 3 0x45000000#32 = .ok .stepS5 ∧ decode 3 0x46000000#32 = .ok .stepS6 ∧
    decode 3 0x47000000#32 = .ok .stepS7 ∧ decode 3 0x48000000#32 = .ok .stepS8 ∧
    decode 3 0x49000000#32 = .ok .stepS9 ∧ decode 3 0x4A000000#32 = .ok .trigOff ∧
    decode 3 0x4B000867#32 = .ok (.dacFrame 2151) := by decide
/-- Classes 5 and 6; the words of R92 and of spec/95 V2.6-6. -/
theorem test_decode_functions :
    decode 3 0x5000FF99#32 = .ok (.qD2S (BitVec.ofInt 16 (-103))) ∧
    decode 3 0x5100FFF3#32 = .ok (.qS2D (BitVec.ofInt 16 (-13))) ∧
    decode 3 0x52000866#32 = .ok (.qChrom 2150) ∧ decode 3 0x530018BC#32 = .ok (.qSnap 1 2236) ∧
    decode 3 0x54022833#32 = .ok (.qApply .scaleSnapped 2 2099) ∧
    decode 3 0x60001F57#32 = .ok (.rScale .oct2 3927) := by decide
/-- Class 7; the encoding lines of R251 to R257. -/
theorem test_decode_loop :
    decode 3 0x70000000#32 = .ok .lPollsw ∧ decode 3 0x71000000#32 = .ok .lMode ∧
    decode 3 0x72000000#32 = .ok .lScale ∧ decode 3 0x73000000#32 = .ok .lRange ∧
    decode 3 0x74000000#32 = .ok .lStep ∧ decode 3 0x75000000#32 = .ok .extclkEnter ∧
    decode 3 0x76000000#32 = .ok .extclkLeave := by decide
/-- The verdicts of spec/95 section 2.10. -/
theorem test_decode_refusals :
    decode 3 0x00000000#32 = .error .opcode ∧ decode 3 0x01000001#32 = .error .operandBits ∧
    decode 3 0x03070001#32 = .error .pin ∧ decode 3 0x03000002#32 = .error .level ∧
    decode 3 0x03060003#32 = .error .level ∧ decode 3 0x04110000#32 = .error .chan ∧
    decode 3 0x04101000#32 = .error .operandBits ∧ decode 3 0x53003000#32 = .error .scale ∧
    decode 3 0x54030000#32 = .error .mode ∧ decode 3 0x60003000#32 = .error .range ∧
    decode 3 0x80000000#32 = .error .opcode ∧ decodeScript 3 0x41000000#32 = .error .internal := by decide
/-- A word through the host's reading of the opcode table. -/
theorem test_table_word : decodeTableWord 32 0x530018BC = some (.qSnap 1 2236) ∧
    decodeTableWord 32 0x03070001 = none := by decide
/-- The encodings of R92's example lines. -/
theorem test_assemble : assemble "ADV 20000\nPIN TRIG_BTN, 1 ; press\nAIN TEMPO_POT, 3686\nQ.D2S -103" =
    some [0x02004E20#32, 0x03000001#32, 0x04100E66#32, 0x5000FF99#32] := by decide +kernel
/-- R93's pseudo-operations. -/
theorem test_assemble_pseudo : assemble "REPEAT 2\nXSTEP\nEND\nWAITMS 10" =
    some [0x03020001#32, 0x03020000#32, 0x05000000#32, 0x03020001#32, 0x03020000#32, 0x05000000#32,
      0x02002710#32] := by decide +kernel

/-! ### Primitives (spec/95 section 2.1) -/

theorem test_rdiv : rdiv 6 12 = 1 ∧ rdiv 5 12 = 0 ∧ rdiv (-6) 12 = -1 ∧ rdiv 1224 205 = 6 ∧ rdiv (-1236) 205 = -6 ∧
    rdiv 102 205 = 0 ∧ rdiv (-103) 205 = -1 ∧ rdiv (-3) 2 = -2 := by decide
theorem test_floor : fdiv (-1) 12 = -1 ∧ fmod (-1) 12 = 11 ∧ fdiv (-12) 12 = -1 ∧ fmod (-12) 12 = 0 ∧
    fdiv (-13) 12 = -2 ∧ fmod (-13) 12 = 11 ∧ fdiv 119 12 = 9 ∧ fmod 119 12 = 11 := by decide
theorem test_memory : (Memory.write ⟨[]⟩ 5 7).read 5 = 7 ∧ (Memory.write ⟨[]⟩ 5 7).read 4 = 0 ∧
    (Memory.write ⟨[]⟩ 5 7).write 5 0 = ⟨[]⟩ ∧ ((Memory.write ⟨[]⟩ 9 1).write 5 7).wf = true := by decide

/-! ### Input decoder (spec/95 section 2.2) -/

/-- The external-clock engine of section 2.2: `PIN 4,1 ; RESET`. -/
def external : State :=
  { State.reset with
    externalTrigger := true, triggerPending := false, statusLed := false
    pinLevel := { PinLevels.low with extClkEn := true }, pinDrive := { PinLevels.low with extClkEn := true }
    edgeEn := ⟨true, true, true, true, true⟩, alarm := ⟨none, none, none, some 100000⟩
    optrace := [(0, 0x01000000#32)] }

/-- Section 2.9: the external-clock column of R334, up to the latches and the draws. -/
theorem test_reset_external : left (exec .reset { State.powerOff with pinDrive := external.pinDrive })
    (fun t => { t with sSample := 0, sOut := 0, freeCount := 0 }) = some external := by decide
/-- V2.2-1, first word; the example of R112. -/
theorem test_tbRise : left (exec (.pin .trigBtn 1) external) (fun t => (t.edgeEn.tbR, t.alarm.debounce)) =
    some (false, some 20000) := by decide
/-- V2.2-1 and V2.2-4: a button still high, by the mode. -/
theorem test_tbRecheck : left (exec .tbRecheck { external with pinLevel := { external.pinLevel with trigBtn := true } })
    (fun t => (t.triggerPending, t.rangeTogglePending)) = some (true, false) := by decide
theorem test_tbRecheck_pot :
    left (exec .tbRecheck { external with potMode := true, pinLevel := { external.pinLevel with trigBtn := true } })
      (fun t => (t.triggerPending, t.rangeTogglePending)) = some (false, true) := by decide
/-- V2.2-2: a transient. -/
theorem test_tbRecheck_low : left (exec .tbRecheck external) (fun t => (t.triggerPending, t.edgeEn.tbR)) =
    some (false, true) := by decide
/-- V2.2-6: the boundaries of the hold. -/
theorem test_mbFall_boundaries :
    [19999, 20000, 600000, 600001].map (fun d => left (exec .mbFall { external with nowUs := d })
      fun t => (t.modeTogglePending, t.scaleTogglePending)) =
    [some (false, false), some (true, false), some (true, false), some (false, true)] := by decide
theorem test_mbRise : left (exec .mbRise { external with nowUs := 700000 }) (·.modeButtonPressTime) = some 700000 := by
  decide
/-- V2.2-8: in internal-clock mode the pulse is dropped. -/
theorem test_pulse_masked : left (exec (.pin .extTrig 1) { State.reset with triggerPending := false })
    (·.triggerPending) = some false := by decide
/-- V2.2-9: the external pulse. -/
theorem test_xtRise : left (exec (.pin .extTrig 1) external) (fun t => (t.triggerPending, t.statusLed, t.alarm.beat)) =
    some (true, true, none) := by decide
theorem test_xmRise : left (exec (.pin .extMode 1) external) (·.modeTogglePending) = some true := by decide

/-! ### Tempo clock (spec/95 section 2.4) -/

theorem test_tempoMap : [0, 3, 83, 84, 2047, 3686, 4094, 4095].map (tempoMap .tc0) =
    [1050, 1049, 1030, 1029, 550, 150, 50, 50] := by decide
/-- V2.4-2: a difference of 20 does not update, 21 does. -/
theorem test_tempoRead : [83, 84].map (fun code => left (exec .tempoRead { external with ain := external.ain.set 16 code })
    (·.tempoDelayMs)) = [some 1050, some 1029] := by decide
/-- The examples of R141 and R142. -/
theorem test_beat : left (exec .clkTrig { State.reset with alarm := external.alarm }) (·.alarm.beat) =
      some (some ⟨.anticipate, 1050000⟩) ∧
    left (exec .clkAnt { State.reset with nowUs := 1050000, tempoDelayMs := 150 })
      (fun t => (t.statusLed, t.alarm.beat)) = some (false, some ⟨.trigger, 1200000⟩) := by decide
/-- V2.4-6. -/
theorem test_clkReset : left (exec .clkReset { State.reset with nowUs := 400000 }) (·.alarm.beat) =
    some (some ⟨.trigger, 400000⟩) := by decide
/-- V2.4-5: the beat goes before the tempo read. -/
theorem test_simultaneous : left (dispatch { State.reset with
      nowUs := 1200000, optrace := [], alarm := ⟨some ⟨.trigger, 1200000⟩, none, none, some 1200000⟩ }) (·.optrace) =
    some [(1200000, 0x20000000#32), (1200000, 0x24000000#32)] := by decide

/-! ### Multiplexer and pipeline (spec/95 sections 2.3 and 2.5) -/

theorem test_mux : left (exec (.muxSet 11) State.reset) (fun t => (t.muxA, t.muxInh0, t.muxInh1, t.selectedSource)) =
    some (3, true, false, 11) := by decide
/-- Section 2.3: enabled from 120050 on, not at 120049. -/
theorem test_settled : { State.reset with muxSetTime := 120000, nowUs := 120050 }.settled = true ∧
    { State.reset with muxSetTime := 120000, nowUs := 120049 }.settled = false := by decide
/-- V2.5-2: the state before each micro-step has the values the table gives. -/
def running : State :=
  { external with
    nowUs := 120050, muxSetTime := 120000, recording := true, quantizeMode := .chromatic
    triggerPending := true, ain := external.ain.set 0 2150, alarm := ⟨none, none, none, some 200000⟩ }
theorem test_s2 : left (exec .stepS2 running) (fun t => (t.sSample, t.seq)) = some (2150, .s3) := by decide
theorem test_s3 : left (exec .stepS3 { running with potMode := true, potRange := .oct2, sSample := 3927 }) (·.sSample) =
    some 2236 := by decide
theorem test_s4 : left (exec .stepS4 { running with sSample := 2150 }) (fun t => (t.memory, t.outtrace)) =
    some (⟨[(0, 2150)]⟩, [(120050, .flash)]) := by decide
theorem test_s5 : left (exec .stepS5 { running with memory := ⟨[(0, 777)]⟩ }) (fun t => (t.sOut, t.memory)) =
    some (784, ⟨[(0, 777)]⟩) := by decide
theorem test_s6 : left (exec .stepS6 { running with sOut := 2151 }) (·.outtrace) =
    some [(120050, .dac 0x40 0x86 0x70)] := by decide
/-- V2.5-4. -/
theorem test_s6_range : left (exec .stepS6 { running with sOut := 4098 }) (fun t => (t.fault, t.seq)) =
    some (⟨false, true⟩, .s7) := by decide
theorem test_s7 : left (exec .stepS7 running) (fun t => (t.trigOut, t.alarm.trigOff)) = some (true, some 130050) := by
  decide
/-- V2.5-6: the index wraps. -/
theorem test_s8 : left (exec .stepS8 { running with memoryIndex := 15 }) (·.memoryIndex) = some 0 := by decide
/-- V2.5-2 as one `LOOP`. -/
theorem test_loop : left (exec .loop { running with nowUs := 120000, muxSetTime := 0, pinLevel := ⟨false, false, false, false, true, false, .chromatic⟩ })
    (fun t => (t.nowUs, t.memory, t.outtrace, t.memoryIndex, t.triggerPending)) =
    some (120050, ⟨[(0, 2150)]⟩, [(120050, .flash), (120050, .dac 0x40 0x86 0x70)], 1, false) := by decide
/-- V2.5-1. -/
theorem test_dacFrame : [15, 256, 2151, 4095].map (dacFrame .tc0) =
    [(0x40, 0x00, 0xF0), (0x40, 0x10, 0x00), (0x40, 0x86, 0x70), (0x40, 0xFF, 0xF0)] := by decide

/-! ### Quantizer and rescaler (spec/95 sections 2.6 and 2.7) -/

theorem test_d2s : [-2048, -2041, -103, -9, -8, 8, 9, 102, 2041, 2047].map (qD2S .tc0) =
    [-120, -119, -6, -1, 0, 0, 1, 6, 119, 120] := by decide
theorem test_s2d : [-120, -11, -6, -1, 0, 6, 11, 12, 119].map (qS2D .tc0) =
    [-2050, -188, -103, -17, 0, 103, 188, 205, 2033] := by decide
theorem test_chrom : [0, 7, 1946, 2039, 2040, 2057, 2150, 4089, 4090].map (qChrom .tc0) =
    [-2, 15, 1945, 2031, 2048, 2065, 2151, 4081, 4098] := by decide
theorem test_snap_penta : [1860, 2031, 2227, 2228, 2236, 4072, 4073].map (qSnap .tc0 pentaTable) =
    [1843, 2048, 2202, 2253, 2253, 4047, 4098] := by decide
theorem test_snap_others : qSnap .tc0 minorTable 2236 = 2219 ∧ qSnap .tc0 majorTable 2150 = 2133 ∧
    qSnap .tc0 majorTable 23 = -2 ∧ qSnap .tc0 minorTable 24 = 32 := by decide
theorem test_apply : left (exec (.qApply .unquantized 2 4095) State.reset) (·.lastValue) = some (some (.int 4095)) ∧
    left (exec (.qApply .scaleSnapped 2 2099) State.reset) (·.lastValue) = some (some (.int 2099)) := by decide
theorem test_rescale : [0, 1000, 2028, 2068, 3927, 4095].map (rScale .tc0 .oct2) = [1843, 1944, 2046, 2050, 2236, 2252] ∧
    [1, 2029, 2067, 4095].map (rScale .tc0 .oct5) = [1536, 2044, 2052, 2560] := by decide

/-! ### Main loop (spec/95 section 2.8) -/

theorem test_lMode : left (exec .lMode { State.reset with modeTogglePending := true })
    (fun t => (t.recording, t.modeTogglePending, t.lpos)) = some (true, false, .scale) := by decide
theorem test_lScale : left (exec .lScale { State.reset with scaleTogglePending := true, activeScale := 2 })
    (fun t => (t.activeScale, t.scaleTogglePending)) = some (0, false) := by decide
theorem test_lRange : left (exec .lRange { State.reset with rangeTogglePending := true, potRange := .oct5 })
    (fun t => (t.potRange, t.rangeTogglePending)) = some (.oct1, false) := by decide
theorem test_lStep : left (exec .lStep { State.reset with lpos := .step }) (fun t => (t.seq, t.triggerPending, t.lpos)) =
    some (.s1, true, .pollsw) := by decide
/-- V2.8-8 and V2.8-9. -/
theorem test_pollsw : left (exec .lPollsw { State.reset with pinLevel := external.pinLevel })
      (fun t => (t.externalTrigger, t.edgeEn.xtR, t.alarm.beat, t.statusLed)) = some (true, true, none, true) ∧
    left (exec .lPollsw { external with pinLevel := .low }) (fun t => (t.externalTrigger, t.edgeEn.xtR, t.alarm.beat)) =
      some (false, false, some ⟨.trigger, 0⟩) := by decide

/-! ### Reset, scripts, the machine as a whole -/

/-- Section 2.9: `RESET` alone. -/
theorem test_reset_internal : left (exec .reset State.powerOff)
    (fun t => { t with sSample := 0, sOut := 0, freeCount := 0 }) = some State.reset := by decide
/-- Section 2.10, last line. -/
theorem test_script_refused : isRefused (loadScript [0x05000000#32, 0x01000000#32] State.powerOff) .illFormedScript = true ∧
    completes (loadScript [0x01000000#32, 0x05000000#32] State.powerOff) = true := by decide
/-- R10: an ill-formed configuration is refused before any step. -/
theorem test_config_refused : isRefused (step { State.reset with
    cfg := { Cfg.tc0 with fastMs := 0 }, agenda := [.main] }) .illFormedConfig = true := by decide
/-- R331, R275: what is refused and why. -/
theorem test_refused : isRefused (exec (.adv 1) State.powerOff) .unpowered = true ∧
    isRefused (exec .loop { State.reset with lpos := .mode }) .loopNotAtBoundary = true ∧
    isRefused (exec (.qSnap 3 0) State.reset) .illFormedOperand = true := by decide

/-! ### Witnesses: states and operands that meet the hypotheses of each statement -/

/-- The word of a `LOOP`, next on the agenda of a state. -/
def withLoop (s : State) : State := { s with agenda := [.script 0x05000000#32] }

/-- The engine with MAIN's turn next. -/
def withMain (s : State) : State := { s with agenda := [.main] }

theorem engineInv_internal : EngineInv (withLoop State.reset) := by constructor <;> decide
theorem engineInv_external : EngineInv external := by constructor <;> decide
theorem inv_withLoop : Inv (withLoop State.reset) := ⟨by decide, by decide, fun _ => engineInv_internal⟩

theorem witness_DecodeOfEncode : wellFormed 3 (.qApply .scaleSnapped 2 4095) = true ∧
    wellFormed 3 (.pin .qmodeSel 2) = true := by decide
theorem witness_DecodeOnlyEncodings : decode 3 0x54022FFF#32 = .ok (.qApply .scaleSnapped 2 4095) := by decide
theorem witness_ScriptWords : decode 3 0x01000000#32 = .ok .reset ∧ decode 3 0x76000000#32 = .ok .extclkLeave := by
  decide
theorem witness_StepRunsDecoded : (withLoop State.reset).cfg.wf = true ∧
    decode (withLoop State.reset).cfg.nScales 0x05000000#32 = .ok .loop ∧
    (withLoop State.reset).agenda = .script 0x05000000#32 :: [] ∧ Instr.loop.injectable = true ∧
    decode State.reset.cfg.nScales 0x41000000#32 = .ok .stepS1 ∧
    { State.reset with agenda := [.direct 0x41000000#32] }.agenda = .direct 0x41000000#32 :: [] ∧
    0x05000000#32 = BitVec.ofNat 32 (0x05000000 % 2 ^ 32) ∧ State.reset.agenda = [] := by decide
/-- The settle time has passed at 50 µs, and not at 49. -/
theorem witness_MainTurn : (withMain State.reset).cfg.wf = true ∧ (withMain State.reset).powered = true ∧
    (withMain State.reset).agenda = .main :: [] ∧ (withMain State.reset).seq ≠ .s2 ∧
    (let t := withMain { State.reset with seq := .s2, nowUs := 50 }
     t.seq = .s2 ∧ t.muxSetTime + t.cfg.muxSettleUs ≤ t.nowUs) ∧
    (let t := withMain { State.reset with seq := .s2, nowUs := 49 }
     t.seq = .s2 ∧ t.nowUs < t.muxSetTime + t.cfg.muxSettleUs) := by decide
theorem witness_ScriptAcceptance : State.powerOff.cfg.wf = true ∧
    (∀ (k : Nat) (w : Word), [0x01000000#32, 0x05000000#32][k]? = some w →
      ∃ i : Instr, decode State.powerOff.cfg.nScales w = .ok i ∧ i.injectable = true ∧
        (i = .loop ∨ (∃ d, i = .adv d) → State.powerOff.powered = true ∨
          ∃ j < k, [0x01000000#32, 0x05000000#32][j]? = some 0x01000000#32)) ∧
    ¬ (∀ (k : Nat) (w : Word), [0x05000000#32, 0x01000000#32][k]? = some w →
      ∃ i : Instr, decode State.powerOff.cfg.nScales w = .ok i ∧ i.injectable = true ∧
        (i = .loop ∨ (∃ d, i = .adv d) → State.powerOff.powered = true ∨
          ∃ j < k, [0x05000000#32, 0x01000000#32][j]? = some 0x01000000#32)) := by
  refine ⟨by decide, ?_, ?_⟩
  · intro k w h
    match k with
    | 0 =>
      simp only [List.getElem?_cons_zero, Option.some.injEq] at h
      subst h
      exact ⟨.reset, by decide, by decide, by simp⟩
    | 1 =>
      simp only [List.getElem?_cons_succ, List.getElem?_cons_zero, Option.some.injEq] at h
      subst h
      exact ⟨.loop, by decide, by decide, fun _ => .inr ⟨0, by decide, rfl⟩⟩
    | k + 2 => simp at h
  · intro h
    obtain ⟨i, hi, -, hp⟩ := h 0 0x05000000#32 rfl
    have hl : i = .loop := by
      have e : decode State.powerOff.cfg.nScales 0x05000000#32 = .ok .loop := by decide
      rw [e] at hi
      injection hi with hi
      exact hi.symm
    rcases hp (.inl hl) with h0 | ⟨j, hj, -⟩
    · exact absurd h0 (by decide)
    · exact absurd hj (by omega)
theorem witness_ScriptKeepsBoundary : Inv (withLoop State.reset) ∧ AtBoundary (withLoop State.reset) ∧
    completes (step (withLoop State.reset)) = true := ⟨inv_withLoop, by decide, by decide⟩
theorem witness_ResetState : State.powerOff.cfg.wf = true ∧ State.powerOff.pinDrive.extClkEn = false := by decide
theorem witness_Unpowered : State.powerOff.powered = false ∧ legalLevel .qmodeSel 2 = true ∧
    Instr.trigOff.agent = .int ∧ Instr.extclkLeave.agent = .main := by decide
theorem witness_PinLevel : legalLevel .qmodeSel 2 = true ∧ legalLevel .qmodeSel 3 = false ∧
    legalLevel .extClkEn 1 = true ∧ legalLevel .extClkEn 2 = false ∧ State.reset.powered = true ∧
    State.powerOff.powered = false := by decide
/-- The five edges that run a handler, a masked one, and a level repeated. -/
theorem witness_PinEdges : external.powered = true ∧
    pinSetting? .trigBtn 1 = some (.trigBtn true) ∧ external.pinRead .trigBtn = 0 ∧ external.edgeEn.tbR = true ∧
    pinSetting? .modeBtn 1 = some (.modeBtn true) ∧ external.pinRead .modeBtn = 0 ∧ external.edgeEn.mbR = true ∧
    pinSetting? .extTrig 1 = some (.extTrig true) ∧ external.pinRead .extTrig = 0 ∧ external.edgeEn.xtR = true ∧
    pinSetting? .extMode 1 = some (.extMode true) ∧ external.pinRead .extMode = 0 ∧ external.edgeEn.xmR = true ∧
    (let t := { external with pinLevel := { PinLevels.low with modeBtn := true } }
     t.powered = true ∧ pinSetting? .modeBtn 0 = some (.modeBtn false) ∧ t.pinRead .modeBtn = 1 ∧ t.edgeEn.mbF = true) ∧
    State.reset.powered = true ∧ State.reset.pinRead .extTrig = 0 ∧ State.reset.edgeEn.xtR = false ∧
    pinSetting? .extClkEn 1 = some (.extClkEn true) ∧ external.pinRead .extClkEn = 1 := by decide
/-- Source 0, which the settled lines select, and the tempo potentiometer. -/
theorem witness_AinWord : { State.reset with nowUs := 50 }.settled = true ∧
    { State.reset with nowUs := 50 }.selectedSource = (0 : Fin 17).val ∧ (16 : Fin 17).val = 16 := by decide
theorem witness_AdvPassesTime : State.reset.powered = true ∧ ChainLive State.reset := by decide
theorem witness_LoopIteration : (withLoop State.reset).powered = true ∧ (withLoop State.reset).cfg.wf = true ∧
    EngineInv (withLoop State.reset) ∧ (withLoop State.reset).seq = .idle ∧ (withLoop State.reset).lpos = .pollsw ∧
    EngineInv { external with lpos := .mode } ∧
    ¬ ({ external with lpos := .mode }.seq = .idle ∧ { external with lpos := .mode }.lpos = .pollsw) :=
  ⟨by decide, by decide, engineInv_internal, by decide, by decide, by constructor <;> decide, by decide⟩
theorem witness_DispatchSettles : State.reset.powered = true ∧ ChainLive State.reset ∧ NothingDue State.reset ∧
    ¬ NothingDue { State.reset with nowUs := 1200000 } := by decide
/-- Equal deadlines, a deadline at the target, and none due one microsecond before. -/
theorem witness_CallbackOrder :
    { external with alarm := ⟨none, some 70, some 70, some 80⟩ }.due 70 = some (.debounce, 70) ∧
    { external with alarm := ⟨none, some 70, some 70, some 80⟩ }.due 69 = none := by decide
theorem witness_CallbackEntry : State.reset.powered = true ∧ State.reset.cfg.wf = true ∧ State.reset.nowUs ≤ 0 ∧
    State.reset.nowUs ≤ 100000 := by decide
theorem witness_TriggerButton : State.reset.powered = true ∧ State.reset.cfg.wf = true := by decide
/-- Holds of 600001, 600000, 20000, 19999 and 0 microseconds. -/
theorem witness_ModeButton : external.powered = true ∧ external.cfg.wf = true ∧
    external.modeButtonPressTime + 600000 < { external with nowUs := 600001 }.nowUs ∧
    external.modeButtonPressTime + 20000 ≤ { external with nowUs := 600000 }.nowUs ∧
    { external with nowUs := 600000 }.nowUs ≤ external.modeButtonPressTime + 600000 ∧
    external.modeButtonPressTime + 20000 ≤ { external with nowUs := 20000 }.nowUs ∧
    { external with nowUs := 19999 }.nowUs < external.modeButtonPressTime + 20000 ∧
    external.modeButtonPressTime ≤ external.nowUs := by decide
theorem witness_PulseInputs : external.powered = true ∧ external.externalTrigger = true ∧
    State.reset.powered = true ∧ State.reset.externalTrigger = false := by decide
theorem witness_InputDecoderWrites : external.externalTrigger = true ∧
    [Instr.tbRise, .tbRecheck, .mbRise, .mbFall, .xtRise, .xmRise].all (fun i => completes (exec i external)) = true := by
  decide
/-- A press judged at the earliest and at the latest moment inside the window. -/
theorem witness_DebouncedPress : external.powered = true ∧ external.cfg.wf = true ∧ EngineInv external ∧
    external.externalTrigger = true ∧ external.edgeEn.tbR = true ∧ external.pinLevel.trigBtn = false ∧
    external.triggerPending = false ∧ external.rangeTogglePending = false ∧ (0#24).toNat < 20000 ∧
    (19999#24).toNat < 20000 :=
  ⟨by decide, by decide, engineInv_external, by decide, by decide, by decide, by decide, by decide, by decide, by decide⟩
/-- An armed slot, a slot that is not armed, and a callback still selected after a cancel. -/
theorem witness_CancelDisarms : State.reset.alarm.deadline .debounce = none ∧ State.reset.alarm.deadline .beat ≠ none ∧
    (Slot.tempo ≠ Slot.beat) ∧ (State.reset.cancel .beat).due 100000 = some (.tempo, 100000) := by decide
theorem witness_BeatClock : State.reset.powered = true ∧ State.reset.externalTrigger = false ∧
    external.powered = true ∧ external.externalTrigger = true := by decide
theorem witness_TempoReadHysteresis : State.reset.powered = true ∧ State.reset.cfg.wf = true := by decide
theorem witness_TempoMapProperties : State.reset.cfg.wf = true := by decide
/-- Code 83 maps to 1030, exactly 20 from 1050. -/
theorem witness_BeatPeriod : let s := { State.reset with ain := State.reset.ain.set 16 83 }
    s.powered = true ∧ ChainLive s ∧ NothingDue s ∧ s.externalTrigger = false ∧
    s.alarm.beat = some ⟨.anticipate, s.nowUs + 1000 * s.tempoDelayMs.toNat⟩ ∧
    distance (tempoMap s.cfg s.ain[16].toNat) s.tempoDelayMs.toNat ≤ 20 := by decide
theorem witness_MuxLines : State.reset.powered = true := by decide
theorem witness_MuxSettleWaits : State.reset.powered = true ∧ ChainLive State.reset ∧
    { State.reset with nowUs := 50 }.settled = true ∧ NothingDue { State.reset with nowUs := 50 } ∧
    State.reset.settled = false := by decide
theorem witness_StepSamples : external.powered = true ∧
    { external with nowUs := 50 }.muxSetTime + external.cfg.muxSettleUs ≤ { external with nowUs := 50 }.nowUs ∧
    (15 : Fin 17).val = 8 * (if { external with muxInh0 := true, muxA := 7 }.muxInh0 then 1 else 0) +
      { external with muxInh0 := true, muxA := 7 }.muxA.toNat ∧
    { external with nowUs := 49 }.nowUs < external.muxSetTime + external.cfg.muxSettleUs := by decide
/-- Both modes, and samples at the midpoint, one below it and at the end of the range. -/
theorem witness_StepRescales : State.reset.powered = true ∧ State.reset.cfg.wf = true ∧ State.reset.potMode = false ∧
    { State.reset with potMode := true }.potMode = true ∧ (4095#16).toNat ≤ 4095 ∧
    State.reset.cfg.mid ≤ (2048#16).toNat ∧ (2047#16).toNat < State.reset.cfg.mid := by decide
theorem witness_StepRecords : State.reset.powered = true ∧ State.reset.cfg.wf = true ∧ State.reset.memory.wf = true ∧
    State.reset.recording = false ∧ running.powered = true ∧ running.cfg.wf = true ∧ running.memory.wf = true ∧
    running.recording = true := by decide
theorem witness_StepQuantizes : State.reset.powered = true ∧ State.reset.cfg.wf = true ∧
    State.reset.quantizeMode = .unquantized ∧ running.quantizeMode = .chromatic ∧
    (let t := { running with quantizeMode := .scaleSnapped, activeScale := 2 }
     t.powered = true ∧ t.cfg.wf = true ∧ t.quantizeMode = .scaleSnapped ∧
     t.cfg.scaleTable[t.activeScale.toNat]? = some minorTable) := by decide
/-- Codes 0 and 4095 in range, -1 and 4096 outside. -/
theorem witness_StepWritesDac : running.powered = true ∧ running.cfg.wf = true ∧
    { running with sOut := 0 }.sOut.toInt = ((0#12).toNat : Int) ∧ { running with sOut := 4095 }.sOut.toInt = ((4095#12).toNat : Int) ∧
    { running with sOut := -1 }.sOut.toInt < 0 ∧ 4095 < { running with sOut := 4096 }.sOut.toInt := by decide
theorem witness_TriggerPulse : running.powered = true ∧ running.cfg.wf = true := by decide
theorem witness_RunEnds : running.powered = true := by decide
/-- A run that records 2150 and sends 2151 (V2.5-2), at a boundary with the panel polled. -/
def beforeRun : State :=
  { external with
    recording := true, triggerPending := true, quantizeMode := .chromatic, ain := external.ain.set 0 2150
    pinLevel := { external.pinLevel with qmodeSel := .chromatic }
    pinDrive := { external.pinDrive with qmodeSel := .chromatic } }
theorem engineInv_beforeRun : EngineInv beforeRun := by constructor <;> decide
theorem witness_WholeRun : beforeRun.powered = true ∧ beforeRun.cfg.wf = true ∧ EngineInv beforeRun ∧
    beforeRun.seq = .idle ∧ beforeRun.lpos = .pollsw ∧ beforeRun.triggerPending = true ∧
    beforeRun.modeTogglePending = false ∧ beforeRun.scaleTogglePending = false ∧
    beforeRun.rangeTogglePending = false ∧ beforeRun.externalTrigger = beforeRun.pinLevel.extClkEn ∧
    beforeRun.potMode = beforeRun.pinLevel.potModeSw ∧ beforeRun.quantizeMode = beforeRun.pinLevel.qmodeSel ∧
    2150 = beforeRun.ain[beforeRun.memoryIndex.toNat].toNat ∧ beforeRun.potMode = false ∧
    quantize beforeRun.cfg beforeRun.quantizeMode beforeRun.activeScale.toNat 2150 = some 2151 :=
  ⟨by decide, by decide, engineInv_beforeRun, by decide, by decide, by decide, by decide, by decide, by decide,
    by decide, by decide, by decide, by decide, by decide, by decide⟩
/-- Deviations of both signs, the ends of the range, and ties of an even `SPO`: 24 codes an octave, deviations 1 and 3
(half a semitone and one and a half). -/
theorem witness_SemitoneCount : 12 ≤ Cfg.tc0.spo ∧ Cfg.tc0.spo = 205 ∧ Cfg.tc0.spo % 2 = 1 ∧
    (let c := { Cfg.tc0 with spo := 24 }
     12 ≤ c.spo ∧ c.spo % 2 = 0 ∧ (2 : Int) * (1 * 12) = c.spo * (2 * 0 + 1) ∧
       (2 : Int) * (3 * 12) = c.spo * (2 * 1 + 1)) := by decide
/-- Note 11 of the table that wraps, note 0, and the first reserved scale. -/
theorem witness_QuantizerWords : State.reset.cfg.scaleTable[(1#4).toNat]? = some pentaTable ∧
    qD2S State.reset.cfg (((2236#12).toNat : Int) - State.reset.cfg.mid) % 12 = (11 : Nat) ∧
    qD2S State.reset.cfg (((2048#12).toNat : Int) - State.reset.cfg.mid) % 12 = (0 : Nat) ∧
    State.reset.cfg.scaleTable.length ≤ (3#4).toNat ∧ 0 ≤ (0#16).toInt ∧ (0xFFFF#16).toInt < 0 := by decide
theorem witness_ChromaticIdempotent : Cfg.tc0.wf = true ∧ qChrom .tc0 2150 = (2151 : Nat) := by decide
theorem witness_SnapMembership : Cfg.tc0.wf = true ∧ pentaTable ∈ Cfg.tc0.scaleTable ∧
    qSnap .tc0 pentaTable 2236 = (2253 : Nat) := by decide
/-- The last and first inputs of each row of R217's table. -/
theorem witness_QuantizerRange : (4095 : Nat) ≤ 4095 ∧ qChrom .tc0 6 = -2 ∧ qChrom .tc0 4090 = 4098 ∧
    qSnap .tc0 pentaTable 23 = -2 ∧ qSnap .tc0 pentaTable 4073 = 4098 := by decide
theorem witness_QuantizerMonotone : Cfg.tc0.wf = true ∧ (4072 : Nat) ≤ 4073 := by decide
theorem witness_ArithmeticWidths : Cfg.tc0.wf = true ∧ { Cfg.tc0 with spo := 819, mid := 0 }.wf = true ∧
    (4095 : Nat) ≤ 4095 ∧ minorTable ∈ Cfg.tc0.scaleTable := by decide
theorem witness_RescaleWord : State.reset.cfg.wf = true ∧ State.reset.cfg.mid ≤ (2048#12).toNat ∧
    (2047#12).toNat < State.reset.cfg.mid ∧ (2048 : Nat) ≤ State.reset.cfg.mid := by decide
theorem witness_RescaleRange : Cfg.tc0.wf = true ∧ (4095 : Nat) ≤ 4095 ∧ Cfg.tc0.mid ≤ 2048 ∧ 2048 ≤ Cfg.tc0.mid := by
  decide
theorem witness_SwitchPoll : external.powered = true ∧ external.pinLevel.extClkEn = external.externalTrigger ∧
    (let t := { State.reset with pinLevel := external.pinLevel }
     t.powered = true ∧ t.pinLevel.extClkEn = true ∧ t.externalTrigger = false) ∧
    (let t := { external with pinLevel := .low }
     t.powered = true ∧ t.pinLevel.extClkEn = false ∧ t.externalTrigger = true) := by decide
theorem witness_PollOperations : State.reset.powered = true ∧ State.reset.cfg.wf = true := by decide
theorem witness_MainSetsNoFlag : Instr.lStep.agent = .main ∧ Instr.lStep ≠ .muxSettle ∧
    completes (exec .lStep State.reset) = true := by decide
theorem witness_OnlyMainWrites : Instr.clkTrig ≠ .reset ∧ completes (exec .clkTrig State.reset) = true ∧
    Instr.clkTrig.agent ≠ .main ∧ Instr.clkTrig ≠ .loop ∧ Instr.stepS5 ≠ .stepS4 ∧
    completes (exec .stepS5 running) = true ∧ completes (exec .stepS4 running) = true ∧ running.memory.wf = true ∧
    15 ≠ running.memoryIndex.toNat := by decide
theorem witness_FaultsSticky : running.cfg.wf = true ∧
    { running with sOut := 4096, fault := ⟨true, true⟩ }.fault.dacRange = true ∧
    completes (exec .stepS6 { running with sOut := 4096, fault := ⟨true, true⟩ }) = true ∧
    completes (exec .trigOff running) = true := by decide
theorem witness_FunctionWords : (Instr.qD2S 5).agent = .function ∧ State.reset.powered = true ∧
    completes (exec (.qD2S 5) State.reset) = true := by decide
theorem witness_HistoryGrows : Instr.stepS6 ≠ .reset ∧ completes (exec .stepS6 running) = true := by decide
theorem witness_StepKeepsInv : Inv (withLoop State.reset) ∧ completes (step (withLoop State.reset)) = true :=
  ⟨inv_withLoop, by decide⟩
theorem witness_StepNeverStuck : Inv (withMain external) ∧ (withMain external).powered = true ∧
    (withMain external).agenda = .main :: [] :=
  ⟨⟨by decide, by decide, fun _ => by constructor <;> decide⟩, by decide, rfl⟩
theorem witness_ScheduleIsGeneralRun : beforeRun.powered = true ∧ beforeRun.cfg.wf = true ∧ EngineInv beforeRun ∧
    completes (exec .loop beforeRun) = true ∧ completes (exec (.adv 10000) beforeRun) = true :=
  ⟨by decide, by decide, engineInv_beforeRun, by decide, by decide⟩

end Sys2Proof.Tests
end

/-! # Proofs: what every step keeps (O56, O58)

First the facts about single operations, then the course of a run (O56), then the invariant (O58). -/

/-! ## The bounds of a well-formed configuration (R9, R10) -/

namespace Sys2Proof

/-- The constraints of R9 that bound what the operations store. -/
structure Cfg.Bounds (c : Cfg) : Prop where
  memLen : c.memLen = 16
  codeMax : c.codeMax = 4095
  adcMax : c.adcMax = 4095
  mid : c.mid ≤ 4095
  fastSlow : c.fastMs ≤ c.slowMs
  slowMs : c.slowMs ≤ 131071
  tempoReadMs : c.tempoReadMs = 100
  nScales : 1 ≤ c.nScales ∧ c.nScales ≤ 16
  rangeOct : c.rangeOct = [1, 2, 5]
  fullSpan : c.fullSpan = 4096
  fiveOctaves : 5 * c.spo ≤ 4096

theorem Cfg.bounds_of_wf {c : Cfg} (h : c.wf = true) : c.Bounds := by
  simp only [Cfg.wf, Bool.and_eq_true, decide_eq_true_eq, beq_iff_eq] at h
  obtain ⟨⟨⟨hrest, hoct⟩, hspan⟩, hfive⟩ := h
  have hmax : c.codeMax = 4095 := by simp_all
  exact { rangeOct := hoct, memLen := by omega, codeMax := hmax, adcMax := by omega, mid := by omega,
          fastSlow := by omega, slowMs := by omega, tempoReadMs := by omega, nScales := by omega,
          fullSpan := hspan, fiveOctaves := hspan ▸ hfive }

end Sys2Proof

namespace Sys2Proof.Machine

/-- R145: a half-period that `TEMPO.MAP` answers is between half the fast and half the slow bound. -/
theorem tempoMap_mem {c : Cfg} (h : c.Bounds) {code : Nat} (hc : code ≤ 4095) :
    c.fastMs / 2 ≤ tempoMap c code ∧ tempoMap c code ≤ c.slowMs / 2 := by
  have hle : code * (c.slowMs - c.fastMs) / c.adcMax ≤ c.slowMs - c.fastMs :=
    Nat.div_le_of_le_mul (by rw [h.adcMax]; exact Nat.mul_le_mul_right _ hc)
  have hfast := h.fastSlow
  unfold tempoMap
  generalize code * (c.slowMs - c.fastMs) / c.adcMax = drop at hle ⊢
  omega

/-- R232: no range spans more than the full span. -/
theorem targetSpan_le_fullSpan {c : Cfg} (h : c.Bounds) (r : PotRange) : targetSpan c r ≤ c.fullSpan := by
  have hfive := h.fiveOctaves
  rw [h.fullSpan]
  cases r <;> simp only [targetSpan, rangeOctaves, h.rangeOct, PotRange.number] <;> simp <;> omega

/-- R240: the rescaler does not lead away from the midpoint, so a code stays a code. -/
theorem rScale_mem {c : Cfg} (h : c.Bounds) (r : PotRange) {x : Nat} (hx : x ≤ c.codeMax) :
    0 ≤ rScale c r x ∧ rScale c r x ≤ c.codeMax := by
  have hshrink (y : Nat) : y * targetSpan c r / c.fullSpan ≤ y :=
    Nat.div_le_of_le_mul (by rw [Nat.mul_comm]; exact Nat.mul_le_mul_right y (targetSpan_le_fullSpan h r))
  have hmid := h.mid
  have hmax := h.codeMax
  rcases rScale_cases c r x with ⟨hge, he⟩ | ⟨hlt, he⟩
  · have hle := hshrink (x - c.mid)
    generalize (x - c.mid) * targetSpan c r / c.fullSpan = dev at he hle
    omega
  · have hle := hshrink (c.mid - x)
    generalize (c.mid - x) * targetSpan c r / c.fullSpan = dev at he hle
    omega

/-! ## What single operations do

`engineEffect` names what an operation of INT or MAIN does once it is recorded; `exec_of_int` and `exec_of_main` tie
it to `exec`. -/

/-- The effect of an operation of INT or MAIN.  `MUX.SETTLE`, which lets time pass, and the operations of the other
agents have none of this kind. -/
def engineEffect : Instr → State → State
  | .tbRise => tbRise
  | .tbRecheck => tbRecheck
  | .mbRise => mbRise
  | .mbFall => mbFall
  | .xtRise => xtRise
  | .xmRise => xmRise
  | .clkTrig => clkTrig
  | .clkAnt => clkAnt
  | .clkReset => clkReset
  | .clkCancel => clkCancel
  | .tempoRead => tempoRead
  | .muxSet idx => muxSet idx
  | .stepS1 => stepS1
  | .stepS2 => stepS2
  | .stepS3 => stepS3
  | .stepS4 => stepS4
  | .stepS5 => stepS5
  | .stepS6 => stepS6
  | .stepS7 => stepS7
  | .stepS8 => stepS8
  | .stepS9 => stepS9
  | .trigOff => trigOff
  | .lPollsw => lPollsw
  | .lMode => lMode
  | .lScale => lScale
  | .lRange => lRange
  | .lStep => lStep
  | .extclkEnter => extclkEnter
  | .extclkLeave => extclkLeave
  | _ => id

theorem exec_of_int {i : Instr} (h : i.agent = .int) (s : State) : exec i s = engineOp i (engineEffect i) s := by
  cases i with
  | tbRise | tbRecheck | mbRise | mbFall | xtRise | xmRise | clkTrig | clkAnt | tempoRead | trigOff => rfl
  | _ => cases h

theorem exec_of_main {i : Instr} (h : i.agent = .main) (hne : i ≠ .muxSettle) (s : State) :
    exec i s = engineOp i (engineEffect i) s := by
  cases i with
  | muxSettle => exact absurd rfl hne
  | clkReset | clkCancel | muxSet | stepS1 | stepS2 | stepS3 | stepS4 | stepS5 | stepS6 | stepS7 | stepS8 | stepS9
  | lPollsw | lMode | lScale | lRange | lStep | extclkEnter | extclkLeave => rfl
  | _ => cases h

/-- R91: a pure-function word is recorded and its value held, or refused. -/
theorem exec_of_function {i : Instr} (h : i.agent = .function) (s : State) : ∃ v, exec i s = functionOp i v s := by
  cases i with
  | tempoMap | dacFrame | qD2S | qS2D | qChrom | qSnap | qApply | rScale =>
    simp only [exec, execTempoMap, execDacFrame, execQD2S, execQS2D, execQChrom, execQSnap, execQApply, execRScale]
    exact ⟨_, rfl⟩
  | _ => cases h

/-- R91: a script holds stimuli and pure functions only. -/
theorem agent_of_injectable {i : Instr} (h : i.injectable = true) : i.agent = .env ∨ i.agent = .function := by
  cases i with
  | reset | adv | pin | ain | loop => exact .inl rfl
  | tempoMap | dacFrame | qD2S | qS2D | qChrom | qSnap | qApply | rScale => exact .inr rfl
  | _ => cases h

/-- R36: a callback runs the operation it is recorded as. -/
theorem handler_eq (ev : Event) : ev.handler = engineEffect ev.handlerOp := by
  cases ev with
  | beat p => cases p <;> rfl
  | debounce | trigOff | tempo => rfl

/-- R111: the edge of a pin runs an operation of the input decoder. -/
theorem edgeHandler_eq_some {en : EdgeEnables} {p : Pin} {old new : BitVec 2} {i : Instr} {body : State → State}
    (h : edgeHandler en p old new = some (i, body)) :
    i ∈ [.tbRise, .mbRise, .mbFall, .xtRise, .xmRise] ∧ body = engineEffect i := by
  cases p with
  | extClkEn | potModeSw | qmodeSel => cases h
  | trigBtn | modeBtn | extTrig | extMode =>
    simp only [edgeHandler] at h
    split_ifs at h <;> cases h <;> exact ⟨by simp, rfl⟩

/-! ### Interrupt side (R112 to R117, R141) -/

/-- R113: the re-check sets at most one of the two flags, and unmasks the edge. -/
theorem tbRecheck_cases (s : State) :
    tbRecheck s = s.enableTbR true ∨ tbRecheck s = s.setRangeTogglePending.enableTbR true ∨
      tbRecheck s = s.setTriggerPending.enableTbR true := by
  unfold tbRecheck
  split_ifs
  · exact .inr (.inl rfl)
  · exact .inr (.inr rfl)
  · exact .inl rfl

/-- R115: the fall of the mode button sets one flag or none. -/
theorem mbFall_cases (s : State) :
    mbFall s = s.setScaleTogglePending ∨ mbFall s = s.setModeTogglePending ∨ mbFall s = s := by
  unfold mbFall
  cases classifyHold s.cfg (s.nowUs - s.modeButtonPressTime) with
  | long => exact .inl rfl
  | short => exact .inr (.inl rfl)
  | bounce => exact .inr (.inr rfl)

theorem clkTrig_external {s : State} (h : s.externalTrigger = true) :
    clkTrig s = { s with triggerPending := true, statusLed := true } := by
  simp [clkTrig, h, State.setTriggerPending]

theorem clkTrig_internal {s : State} (h : s.externalTrigger = false) :
    clkTrig s = { s with
      triggerPending := true
      statusLed := true
      alarm := s.alarm.arm (.beat .anticipate) (s.nowUs + 1000 * s.tempoDelayMs.toNat) } := by
  simp [clkTrig, h, State.setTriggerPending, State.schedule]

/-! ### MAIN side (R181, R182, R184, R185, R187, R251, R254 to R256) -/

/-- R181: the lines are set to the step's own channel. -/
theorem stepS1_eq (s : State) :
    stepS1 s = { s with
      muxA := muxAddress s.memoryIndex, muxInh0 := muxBank s.memoryIndex, muxInh1 := !muxBank s.memoryIndex
      muxSetTime := s.nowUs, seq := .s2 } := by
  rw [stepS1, muxSet_eq]

/-- R182: the sample latched is a code, whether read or drawn. -/
theorem stepS2_eq (s : State) :
    ∃ (code : Code) (k : Nat),
      stepS2 s = { s with adcSel := .cv, freeCount := k, sSample := code.setWidth 16, seq := .s3 } :=
  ⟨(adcRead s .cv).1, (adcRead s .cv).2.freeCount, by
    change { (adcRead s .cv).2 with sSample := (adcRead s .cv).1.setWidth 16, seq := .s3 } = _
    rw [adcRead_state s .cv]⟩

/-- R184: the record step leaves the latches, and where it records it stores and flashes. -/
theorem stepS4_cases (s : State) :
    (s.recording = false ∧ stepS4 s = { s with seq := .s5 }) ∨
      (s.recording = true ∧
        stepS4 s = { (memWrite s s.memoryIndex.toNat s.sSample).emit .flash with seq := .s5 }) := by
  unfold stepS4
  split_ifs with h
  · exact .inr ⟨h, rfl⟩
  · exact .inl ⟨by simpa using h, rfl⟩

theorem quantizeOut_state (s : State) (v : Sample) :
    (quantizeOut s v).2 = { s with freeCount := (quantizeOut s v).2.freeCount } := by
  unfold quantizeOut
  split <;> rfl

/-- R185: the quantize step reads memory and latches its value; the read may record a fault. -/
theorem stepS5_eq (s : State) :
    ∃ (q : BitVec 32) (k : Nat),
      stepS5 s = { s with
        fault := (memRead s s.memoryIndex.toNat).2.fault, freeCount := k, sOut := q, seq := .s6 } := by
  have hread : ∀ i, ∃ v n, memRead s i = (v, { s with fault := (memRead s i).2.fault, freeCount := n }) := by
    intro i
    unfold memRead
    split
    · exact ⟨_, _, rfl⟩
    · exact ⟨_, _, rfl⟩
  obtain ⟨v, n, hm⟩ := hread s.memoryIndex.toNat
  unfold stepS5
  rw [hm]
  simp only
  rw [quantizeOut_state]
  exact ⟨_, _, rfl⟩

/-- R187: arming the end of the pulse overwrites what the cancel disarmed. -/
theorem stepS7_eq (s : State) :
    stepS7 s = { s with
      trigOut := true, alarm := s.alarm.arm .trigOff (s.nowUs + 1000 * s.cfg.trigPulseMs), seq := .s8 } := rfl

theorem lMode_cases (s : State) :
    (s.modeTogglePending = true ∧
        lMode s = { s with recording := !s.recording, modeTogglePending := false, lpos := .scale }) ∨
      (s.modeTogglePending = false ∧ lMode s = { s with lpos := .scale }) := by
  unfold lMode
  split_ifs with h
  · exact .inl ⟨h, rfl⟩
  · exact .inr ⟨by simpa using h, rfl⟩

theorem lScale_cases (s : State) :
    (s.scaleTogglePending = true ∧
        lScale s = { s with
          activeScale := nextScale s.cfg s.activeScale, scaleTogglePending := false, lpos := .range }) ∨
      (s.scaleTogglePending = false ∧ lScale s = { s with lpos := .range }) := by
  unfold lScale
  split_ifs with h
  · exact .inl ⟨h, rfl⟩
  · exact .inr ⟨by simpa using h, rfl⟩

theorem lRange_cases (s : State) :
    (s.rangeTogglePending = true ∧
        lRange s = { s with potRange := nextRange s.potRange, rangeTogglePending := false, lpos := .step }) ∨
      (s.rangeTogglePending = false ∧ lRange s = { s with lpos := .step }) := by
  unfold lRange
  split_ifs with h
  · exact .inl ⟨h, rfl⟩
  · exact .inr ⟨by simpa using h, rfl⟩

/-- R251: a poll of the clock switch does not move the sequencer. -/
theorem pollClockSource_seq (s : State) : (pollClockSource s).seq = s.seq := by
  rcases pollClockSource_cases s with ⟨-, -, h⟩ | ⟨-, -, h⟩ | ⟨-, h⟩ <;> rw [h] <;> rfl

/-! ## A run goes on (O56)

What every operation but `RESET` keeps of the state before it: its history, and the fields that no operation writes. -/

/-- The later state belongs to the same run: its traces begin with the earlier state's and its clock is not behind
(R33, R39); the configuration, `powered` and the turns to come are the same (R9, R41). -/
structure Continues (s t : State) : Prop where
  optrace : s.optrace <+: t.optrace
  outtrace : s.outtrace <+: t.outtrace
  clock : s.nowUs ≤ t.nowUs
  cfg : t.cfg = s.cfg
  powered : t.powered = s.powered
  agenda : t.agenda = s.agenda

namespace Continues

theorem refl (s : State) : Continues s s := ⟨List.prefix_rfl, List.prefix_rfl, le_rfl, rfl, rfl, rfl⟩

theorem trans {s t u : State} (h : Continues s t) (k : Continues t u) : Continues s u :=
  ⟨h.optrace.trans k.optrace, h.outtrace.trans k.outtrace, h.clock.trans k.clock, k.cfg.trans h.cfg,
    k.powered.trans h.powered, k.agenda.trans h.agenda⟩

/-- An update that writes none of these fields. -/
theorem of_eq {s t : State} (hop : t.optrace = s.optrace := by rfl) (hout : t.outtrace = s.outtrace := by rfl)
    (hnow : t.nowUs = s.nowUs := by rfl) (hcfg : t.cfg = s.cfg := by rfl) (hpow : t.powered = s.powered := by rfl)
    (hag : t.agenda = s.agenda := by rfl) : Continues s t :=
  ⟨hop ▸ List.prefix_rfl, hout ▸ List.prefix_rfl, hnow.ge, hcfg, hpow, hag⟩

theorem record (s : State) (i : Instr) : Continues s (s.record i) := by
  unfold State.record
  split
  · exact ⟨List.prefix_append _ _, List.prefix_rfl, le_rfl, rfl, rfl, rfl⟩
  · exact refl s

theorem emit (s : State) (ev : OutEvent) : Continues s (s.emit ev) :=
  ⟨List.prefix_rfl, List.prefix_append _ _, le_rfl, rfl, rfl, rfl⟩

theorem enterCallback (s : State) (c : Armed) : Continues s (s.enterCallback c) := by
  refine ⟨?_, ?_, by simp, ?_, ?_, ?_⟩ <;> rw [enterCallback_frame]

theorem clkTrig (s : State) : Continues s (clkTrig s) := by
  cases h : s.externalTrigger
  · rw [clkTrig_internal h]; exact of_eq
  · rw [clkTrig_external h]; exact of_eq

theorem tbRecheck (s : State) : Continues s (tbRecheck s) := by
  rcases tbRecheck_cases s with h | h | h <;> rw [h] <;> exact of_eq

theorem mbFall (s : State) : Continues s (mbFall s) := by
  rcases mbFall_cases s with h | h | h <;> rw [h] <;> exact of_eq

theorem muxSet (idx : BitVec 4) (s : State) : Continues s (muxSet idx s) := by
  rw [muxSet_eq]
  exact of_eq

theorem stepS2 (s : State) : Continues s (stepS2 s) := by
  obtain ⟨code, k, h⟩ := stepS2_eq s
  rw [h]
  exact of_eq

theorem stepS4 (s : State) : Continues s (stepS4 s) := by
  rcases stepS4_cases s with ⟨-, h⟩ | ⟨-, h⟩ <;> rw [h]
  · exact of_eq
  · have hstore : Continues s (memWrite s s.memoryIndex.toNat s.sSample) := by
      rcases memWrite_cases s s.memoryIndex.toNat s.sSample with ⟨-, hw⟩ | ⟨-, hw⟩ <;> rw [hw] <;>
        exact of_eq
    exact (hstore.trans (emit _ .flash)).trans of_eq

theorem stepS5 (s : State) : Continues s (stepS5 s) := by
  obtain ⟨q, k, h⟩ := stepS5_eq s
  rw [h]
  exact of_eq

theorem stepS6 (s : State) : Continues s (stepS6 s) := by
  rcases stepS6_cases s with ⟨-, -, h⟩ | ⟨-, h⟩ <;> rw [h]
  · exact (emit s _).trans of_eq
  · have hraise : Continues s s.raiseDacRange := of_eq
    exact (hraise.trans (emit _ _)).trans of_eq

theorem lPollsw (s : State) : Continues s (lPollsw s) := by
  have hpoll : Continues s (pollClockSource s) := by
    rcases pollClockSource_cases s with ⟨-, -, h⟩ | ⟨-, -, h⟩ | ⟨-, h⟩ <;> rw [h] <;> exact of_eq
  exact hpoll.trans of_eq

theorem lMode (s : State) : Continues s (lMode s) := by
  rcases lMode_cases s with ⟨-, h⟩ | ⟨-, h⟩ <;> rw [h] <;> exact of_eq

theorem lScale (s : State) : Continues s (lScale s) := by
  rcases lScale_cases s with ⟨-, h⟩ | ⟨-, h⟩ <;> rw [h] <;> exact of_eq

theorem lRange (s : State) : Continues s (lRange s) := by
  rcases lRange_cases s with ⟨-, h⟩ | ⟨-, h⟩ <;> rw [h] <;> exact of_eq

/-- R39: of the effects of INT and MAIN only `STEP.S4` and `STEP.S6` write a trace, at its end, and none writes the
clock. -/
theorem engineEffect (i : Instr) (s : State) : Continues s (engineEffect i s) := by
  cases i with
  | stepS4 => exact stepS4 s
  | stepS6 => exact stepS6 s
  | tbRecheck => exact tbRecheck s
  | mbFall => exact mbFall s
  | clkTrig | xtRise => exact clkTrig s
  | muxSet idx => exact muxSet idx s
  | stepS1 => exact (muxSet s.memoryIndex s).trans of_eq
  | stepS2 => exact stepS2 s
  | stepS5 => exact stepS5 s
  | lPollsw => exact lPollsw s
  | lMode => exact lMode s
  | lScale => exact lScale s
  | lRange => exact lRange s
  | _ => exact of_eq

theorem perform (i : Instr) (s : State) : Continues s (perform i (Machine.engineEffect i) s) :=
  (record s i).trans (engineEffect i _)

theorem engineOp {i : Instr} {s t : State} (h : engineOp i (Machine.engineEffect i) s = .next t) : Continues s t := by
  obtain ⟨-, rfl⟩ := engineOp_eq_next.1 h
  exact perform i s

theorem functionOp {i : Instr} {v : Option FnValue} {s t : State} (h : functionOp i v s = .next t) : Continues s t := by
  obtain ⟨x, -, rfl⟩ := functionOp_eq_next.1 h
  exact (record s i).trans of_eq

theorem fire (s : State) (c : Armed) : Continues s (s.fire c) := by
  unfold State.fire
  rw [handler_eq]
  exact (enterCallback s c).trans (perform _ _)

theorem runDue {target fuel : Nat} {s t : State} (h : runDue target fuel s = some t) : Continues s t :=
  runDue_keeps (P := Continues s) (fun u c hu _ => hu.trans (fire u c)) h (refl s)

theorem dispatch {s t : State} (h : dispatch s = .next t) : Continues s t := by
  rcases dispatch_eq_next.1 h with ⟨-, rfl⟩ | ⟨-, hrun⟩
  · exact refl _
  · exact runDue hrun

/-- R272: time that passes up to a target does not run backwards where the target is not in the past. -/
theorem advanceTo {target : Nat} {s t : State} (hle : s.nowUs ≤ target) (h : advanceTo target s = .next t) :
    Continues s t := by
  obtain ⟨u, hrun, rfl⟩ := advanceTo_eq_next.1 h
  have hu := runDue hrun
  exact { hu with clock := hle }

theorem settleWait {s t : State} (h : settleWait s = .next t) : Continues s t := by
  obtain ⟨u, hadv, hrec⟩ := andThen_eq_next.1 h
  cases hrec
  exact (advanceTo (le_max_left _ _) hadv).trans (record u _)

theorem mainOp {i : Instr} {s t : State} (h : mainOp i (Machine.engineEffect i) s = .next t) : Continues s t :=
  (perform i s).trans (dispatch h)

/-- A row of MAIN operations, each with its own effect. -/
theorem mainOps {ops : List (Instr × (State → State))} (hops : ∀ o ∈ ops, o.2 = Machine.engineEffect o.1)
    {s t : State} (h : mainOps ops s = .next t) : Continues s t :=
  mainOps_keeps (P := Continues s) ops
    (fun o ho u v hu hv => hu.trans (mainOp (by rw [← hops o ho]; exact hv))) h (refl s)

end Continues

/-! ### What the rows and the words can do (R171, R272, R273, R275) -/

theorem pollOps_effect : ∀ o ∈ pollOps, o.2 = engineEffect o.1 := by
  simp [pollOps, engineEffect]

theorem sampleOps_effect : ∀ o ∈ sampleOps, o.2 = engineEffect o.1 := by
  simp [sampleOps, engineEffect]

/-- R275: what an iteration of the main loop can do: the five polls, and then a run where they leave `seq = S1`. -/
theorem iteration_eq_next {s t : State} :
    iteration s = .next t ↔ ∃ u, mainOps pollOps s = .next u ∧
      ((u.seq = .s1 ∧ runPipeline u = .next t) ∨ (u.seq ≠ .s1 ∧ u = t)) := by
  unfold iteration
  rw [andThen_eq_next]
  refine exists_congr fun u => and_congr_right fun _ => ?_
  by_cases h : u.seq = .s1 <;> simp [h]

/-- R275: what a run of the pipeline can do: `STEP.S1`, the settle wait, the eight other micro-steps. -/
theorem runPipeline_eq_next {s t : State} :
    runPipeline s = .next t ↔ ∃ u v, mainOp .stepS1 stepS1 s = .next u ∧ settleWait u = .next v ∧
      mainOps sampleOps v = .next t := by
  simp only [runPipeline, andThen_eq_next, exists_and_left]

/-- R275: `LOOP` is one recorded iteration, at its boundary. -/
theorem execLoop_eq_next {s t : State} :
    execLoop s = .next t ↔
      s.powered = true ∧ s.seq = .idle ∧ s.lpos = .pollsw ∧ iteration (s.record .loop) = .next t := by
  unfold execLoop
  split_ifs <;> simp_all

theorem execAdv_eq_next {d : BitVec 24} {s t : State} :
    execAdv d s = .next t ↔
      s.powered = true ∧ advanceTo (s.nowUs + d.toNat) (s.record (.adv d)) = .next t := by
  unfold execAdv
  split <;> simp_all

theorem execMuxSettle_eq_next {s t : State} :
    execMuxSettle s = .next t ↔ s.powered = true ∧ settleWait s = .next t := by
  unfold execMuxSettle
  split <;> simp_all

/-- R273: a `PIN` with a legal level drives the pin. -/
theorem execPin_eq_next {p : Pin} {level : BitVec 2} {s t : State} :
    execPin p level s = .next t ↔ ∃ v, pinSetting? p level = some v ∧ t = drivePin p level v s := by
  unfold execPin
  cases pinSetting? p level <;> simp [eq_comm]

namespace Continues

theorem iteration {s t : State} (h : iteration s = .next t) : Continues s t := by
  obtain ⟨u, hpolls, hrun⟩ := iteration_eq_next.1 h
  have hu : Continues s u := mainOps pollOps_effect hpolls
  rcases hrun with ⟨-, hrun⟩ | ⟨-, rfl⟩
  · obtain ⟨v, w, hv, hw, ht⟩ := runPipeline_eq_next.1 hrun
    exact ((hu.trans (mainOp (i := .stepS1) hv)).trans (settleWait hw)).trans (mainOps sampleOps_effect ht)
  · exact hu

theorem runEdge (p : Pin) (old new : BitVec 2) (s : State) : Continues s (runEdge p old new s) := by
  rcases runEdge_cases p old new s with ⟨i, body, hedge, hrun⟩ | ⟨-, hrun⟩ <;> rw [hrun]
  · obtain ⟨-, rfl⟩ := edgeHandler_eq_some hedge
    exact perform i s
  · exact refl s

theorem drivePin (p : Pin) (level : BitVec 2) (v : PinSetting) (s : State) : Continues s (drivePin p level v s) := by
  unfold Machine.drivePin
  split
  · refine .trans ((record s (.pin p level)).trans of_eq) (runEdge p _ level _)
  · exact (record s _).trans of_eq

/-- Every operation but `RESET`, by the agent that performs it. -/
theorem exec {i : Instr} {s t : State} (hi : i ≠ .reset) (h : exec i s = .next t) : Continues s t := by
  cases hagent : i.agent with
  | int => exact engineOp (exec_of_int hagent s ▸ h)
  | function =>
    obtain ⟨v, hv⟩ := exec_of_function hagent s
    exact functionOp (hv ▸ h)
  | main =>
    by_cases hm : i = .muxSettle
    · subst hm
      exact settleWait (execMuxSettle_eq_next.1 h).2
    · exact engineOp (exec_of_main hagent hm s ▸ h)
  | env =>
    cases i with
    | reset => exact absurd rfl hi
    | adv d =>
      obtain ⟨-, hadv⟩ := execAdv_eq_next.1 h
      exact (record s _).trans (advanceTo (by simp) hadv)
    | pin p level =>
      obtain ⟨v, -, rfl⟩ := execPin_eq_next.1 h
      exact drivePin p level v s
    | ain chan code =>
      cases h
      exact (record s _).trans of_eq
    | loop =>
      obtain ⟨-, -, -, hloop⟩ := execLoop_eq_next.1 h
      exact (record s _).trans (iteration hloop)
    | _ => cases hagent

end Continues

/-- Settles O56: the history grows along every operation but `RESET`. -/
theorem historyGrows : Obligations.HistoryGrows := by
  intro i s t hi h
  have hlater := Continues.exec hi h
  exact ⟨hlater.optrace, hlater.outtrace, hlater.clock⟩

/-! ## The invariant between the operations of a move

`Inv` speaks of the states between two moves, where no alarm is overdue.  Inside a move alarms may be overdue until the
dispatch, so the operations are shown to keep the other clauses of `EngineInv`, and the dispatch to bring back the last
one. -/

/-- The clauses of `EngineInv` but for `nothingDue`, of a powered engine in a well-formed configuration. -/
structure MoveInv (s : State) : Prop where
  configWf : s.cfg.wf = true
  powered : s.powered = true
  memoryWf : s.memory.wf = true
  codes : s.memory.cells.all (fun c => decide (c.2.toNat ≤ s.cfg.codeMax)) = true
  tempo : s.cfg.fastMs / 2 ≤ s.tempoDelayMs.toNat ∧ s.tempoDelayMs.toNat ≤ s.cfg.slowMs / 2
  scale : s.activeScale.toNat < s.cfg.nScales
  bank : s.muxInh1 = !s.muxInh0
  chain : s.alarm.beat.isSome = !s.externalTrigger
  externalEdge : s.edgeEn.xtR = s.externalTrigger
  fixedEdges : s.edgeEn.mbR = true ∧ s.edgeEn.mbF = true ∧ s.edgeEn.xmR = true
  debounce : s.edgeEn.tbR = s.alarm.debounce.isNone
  pulse : s.trigOut = s.alarm.trigOff.isSome
  periodic : s.alarm.tempo.any (fun d => d % (1000 * s.cfg.tempoReadMs) == 0) = true
  pins : s.pinLevel = s.pinDrive
  past : s.modeButtonPressTime ≤ s.nowUs ∧ s.muxSetTime ≤ s.nowUs
  noIndexFault : s.fault.index = false
  sample : s.sSample.toNat ≤ s.cfg.codeMax
  running : s.seq ≠ .idle → s.triggerPending = true ∧ s.lpos = .pollsw
  addressed : s.seq = .idle ∨ s.seq = .s1 ∨ s.seq = .s9 ∨ s.selectedSource = s.memoryIndex.toNat

theorem EngineInv.moveInv {s : State} (h : EngineInv s) (hcfg : s.cfg.wf = true) (hpow : s.powered = true) :
    MoveInv s :=
  { h with configWf := hcfg, powered := hpow }

theorem MoveInv.engineInv {s : State} (h : MoveInv s) (hdue : NothingDue s) : EngineInv s :=
  { h with nothingDue := hdue }

/-! ### Facts about the stored values -/

/-- What holds of every cell and of the cell written holds of every cell after the write. -/
theorem all_writeCells {p : MemCell → Bool} {a : Nat} {v : Sample} (hp : p (a, v) = true) (cells : List MemCell)
    (h : cells.all p = true) : (writeCells cells a v).all p = true := by
  have hcons (rest : List MemCell) (hrest : rest.all p = true) : (consCell a v rest).all p = true := by
    unfold consCell
    split
    · exact hrest
    · rw [List.all_cons, hp, hrest]; rfl
  induction cells with
  | nil => exact hcons [] rfl
  | cons c rest ih =>
    have hcell := h
    rw [List.all_cons, Bool.and_eq_true] at hcell
    simp only [writeCells]
    split_ifs
    · exact hcons _ h
    · exact hcons _ hcell.2
    · rw [List.all_cons, hcell.1, ih hcell.2]; rfl

/-- R32 (b): the hysteresis keeps the half-period within the bounds that the old and the new value have. -/
theorem hysteresis_mem {c : Cfg} {old : BitVec 16} {new lo hi : Nat} (hhi : hi < 65536)
    (hold : lo ≤ old.toNat ∧ old.toNat ≤ hi) (hnew : lo ≤ new ∧ new ≤ hi) :
    lo ≤ (hysteresis c old new).toNat ∧ (hysteresis c old new).toNat ≤ hi := by
  rcases hysteresis_cases c old new with ⟨-, h⟩ | ⟨-, h⟩ <;> rw [h]
  · rw [BitVec.toNat_ofNat, Nat.mod_eq_of_lt (by omega)]
    exact hnew
  · exact hold

theorem nextScale_lt {c : Cfg} (h : c.Bounds) (scale : BitVec 4) : (nextScale c scale).toNat < c.nScales := by
  have hn := h.nScales
  have hlt : (scale.toNat + 1) % c.nScales < c.nScales := Nat.mod_lt _ (by omega)
  rw [nextScale, BitVec.toNat_ofNat, Nat.mod_eq_of_lt (by omega)]
  exact hlt

/-- R20, R183: a code that is rescaled and stored in 16 bits is a code. -/
theorem rScale_sample_le {c : Cfg} (h : c.Bounds) (r : PotRange) {x : Nat} (hx : x ≤ c.codeMax) :
    (BitVec.ofInt 16 (rScale c r x)).toNat ≤ c.codeMax := by
  obtain ⟨hlo, hhi⟩ := rScale_mem h r hx
  have hmax := h.codeMax
  rw [BitVec.toNat_ofInt]
  omega

/-- The callback that goes next is armed in its slot. -/
theorem deadline_of_next {a : Alarms} {c : Armed} (h : a.next = some c) : a.deadline c.1.slot = some c.2 := by
  unfold Alarms.next at h
  rcases Armed.first_eq_some h with ⟨hbeat, -⟩ | ⟨h, -⟩
  · obtain ⟨b, hb, rfl⟩ := Option.map_eq_some_iff.1 hbeat
    simp [Event.slot, Alarms.deadline, hb]
  rcases Armed.first_eq_some h with ⟨hdebounce, -⟩ | ⟨h, -⟩
  · obtain ⟨d, hd, rfl⟩ := Option.map_eq_some_iff.1 hdebounce
    exact hd
  rcases Armed.first_eq_some h with ⟨htrigOff, -⟩ | ⟨htempo, -⟩
  · obtain ⟨d, hd, rfl⟩ := Option.map_eq_some_iff.1 htrigOff
    exact hd
  · obtain ⟨d, hd, rfl⟩ := Option.map_eq_some_iff.1 htempo
    exact hd

/-- Where an engine is powered, firing is the entry, the record and the handler. -/
theorem fire_of_powered {s : State} (hpow : s.powered = true) (c : Armed) :
    s.fire c = c.1.handler { s.enterCallback c with
      optrace := (s.enterCallback c).optrace ++ [((s.enterCallback c).nowUs, encode c.1.handlerOp)] } := by
  have hp : (s.enterCallback c).powered = true := by rw [enterCallback_frame]; exact hpow
  rw [State.fire, perform, record_of_powered _ _ hp]

/-! ### Records, edges and words -/

namespace MoveInv

variable {s t : State}

theorem bounds (h : MoveInv s) : s.cfg.Bounds := Cfg.bounds_of_wf h.configWf

theorem record (h : MoveInv s) (i : Instr) : MoveInv (s.record i) := by
  rw [record_of_powered _ i h.powered]
  exact { h with }

/-- R33: time passes. -/
theorem setClock (h : MoveInv s) {n : Nat} (hn : s.nowUs ≤ n) : MoveInv { s with nowUs := n } :=
  { h with past := ⟨h.past.1.trans hn, h.past.2.trans hn⟩ }

theorem tbRise (h : MoveInv s) : MoveInv (tbRise s) := { h with debounce := rfl }

theorem mbRise (h : MoveInv s) : MoveInv (mbRise s) := { h with past := ⟨le_rfl, h.past.2⟩ }

theorem mbFall (h : MoveInv s) : MoveInv (mbFall s) := by
  rcases mbFall_cases s with he | he | he <;> rw [he] <;> exact { h with }

/-- R141: the Trigger phase arms the next beat in internal-clock mode only. -/
theorem clkTrig (h : MoveInv s) : MoveInv (clkTrig s) := by
  have hrun (hn : s.seq ≠ .idle) : true = true ∧ s.lpos = .pollsw := ⟨rfl, (h.running hn).2⟩
  cases hext : s.externalTrigger
  · have hchain : true = !s.externalTrigger := by rw [hext]; rfl
    rw [clkTrig_internal hext]
    exact { h with running := hrun, chain := hchain }
  · rw [clkTrig_external hext]
    exact { h with running := hrun }

theorem xmRise (h : MoveInv s) : MoveInv (xmRise s) := { h with }

/-- R273: the handler of an edge. -/
theorem runEdge (h : MoveInv s) (p : Pin) (old new : BitVec 2) : MoveInv (runEdge p old new s) := by
  rcases runEdge_cases p old new s with ⟨i, body, hedge, he⟩ | ⟨-, he⟩ <;> rw [he]
  · obtain ⟨hi, rfl⟩ := edgeHandler_eq_some hedge
    have hr := h.record i
    simp only [List.mem_cons, List.not_mem_nil, or_false] at hi
    rcases hi with rfl | rfl | rfl | rfl | rfl
    · exact hr.tbRise
    · exact hr.mbRise
    · exact hr.mbFall
    · exact hr.clkTrig
    · exact hr.xmRise
  · exact h

/-- R42: a pin is driven and seen at once. -/
theorem drivePin (h : MoveInv s) (p : Pin) (level : BitVec 2) (v : PinSetting) : MoveInv (drivePin p level v s) := by
  have hr := h.record (.pin p level)
  have hput : s.pinLevel.put v = s.pinDrive.put v := by rw [h.pins]
  unfold Machine.drivePin
  rw [if_pos h.powered]
  have hdriven : MoveInv { s.record (.pin p level) with
      pinDrive := s.pinDrive.put v, pinLevel := s.pinLevel.put v } := { hr with pins := hput }
  exact hdriven.runEdge p _ level

theorem functionOp (h : MoveInv s) {i : Instr} {v : Option FnValue} (he : functionOp i v s = .next t) : MoveInv t := by
  obtain ⟨x, -, rfl⟩ := functionOp_eq_next.1 he
  exact { h.record i with }

/-! ### Callbacks, dispatch and the passage of time -/

/-- Every callback keeps the invariant: what the entry disarms, the handler arms anew or puts in accord. -/
theorem fire (h : MoveInv s) {c : Armed} (hnext : s.alarm.next = some c) : MoveInv (s.fire c) := by
  obtain ⟨ev, d⟩ := c
  have harmed := deadline_of_next hnext
  have hpast : s.modeButtonPressTime ≤ max s.nowUs d ∧ s.muxSetTime ≤ max s.nowUs d :=
    ⟨h.past.1.trans (le_max_left _ _), h.past.2.trans (le_max_left _ _)⟩
  rw [fire_of_powered h.powered]
  cases ev with
  | beat p =>
    have hint : s.externalTrigger = false := by
      obtain ⟨b, hb, -⟩ := Option.map_eq_some_iff.1 harmed
      simpa [hb] using h.chain
    have hchain : true = !s.externalTrigger := by rw [hint]; rfl
    cases p with
    | trigger =>
      simp only [Event.handler]
      rw [clkTrig_internal (by exact hint)]
      exact { h with chain := hchain, past := hpast, running := fun hn => ⟨rfl, (h.running hn).2⟩ }
    | anticipate => exact { h with chain := hchain, past := hpast }
  | debounce =>
    simp only [Event.handler]
    rcases tbRecheck_cases _ with he | he | he <;> rw [he]
    · exact { h with debounce := rfl, past := hpast }
    · exact { h with debounce := rfl, past := hpast }
    · exact { h with debounce := rfl, past := hpast, running := fun hn => ⟨rfl, (h.running hn).2⟩ }
  | trigOff => exact { h with pulse := rfl, past := hpast }
  | tempo =>
    have hslow := h.bounds.slowMs
    have htempo := hysteresis_mem (c := s.cfg) (by omega) h.tempo
      (tempoMap_mem h.bounds (code := (s.analogIn 16).toNat) (by have := (s.analogIn 16).isLt; omega))
    have hperiodic : ((d + 1000 * s.cfg.tempoReadMs) % (1000 * s.cfg.tempoReadMs) == 0) = true := by
      have hold := h.periodic
      rw [show s.alarm.tempo = some d from harmed, Option.any_some] at hold
      rwa [Nat.add_mod_right]
    exact { h with tempo := htempo, periodic := hperiodic, past := hpast }

/-- R276: firing what is due up to a time keeps the invariant and does not pass that time. -/
theorem runDue {target fuel : Nat} (h : MoveInv s) (hle : s.nowUs ≤ target) (he : runDue target fuel s = some t) :
    MoveInv t ∧ t.nowUs ≤ target := by
  refine runDue_keeps (P := fun u => MoveInv u ∧ u.nowUs ≤ target) ?_ he ⟨h, hle⟩
  rintro u c ⟨hu, hnow⟩ hdue
  obtain ⟨hnext, hdeadline⟩ := due_eq_some.1 hdue
  exact ⟨hu.fire hnext, by rw [fire_nowUs]; exact max_le hnow hdeadline⟩

/-- R276: the dispatch keeps the invariant and leaves nothing due. -/
theorem dispatch (h : MoveInv s) (he : dispatch s = .next t) : MoveInv t ∧ NothingDue t := by
  rcases dispatch_eq_next.1 he with ⟨hoff, -⟩ | ⟨-, hrun⟩
  · exact absurd (h.powered.symm.trans hoff) (by decide)
  · obtain ⟨ht, hle⟩ := h.runDue le_rfl hrun
    have hnow : t.nowUs = s.nowUs := le_antisymm hle (Continues.runDue hrun).clock
    exact ⟨ht, by rw [NothingDue, hnow]; exact runDue_done hrun⟩

/-- R272: the passage of time keeps the invariant. -/
theorem advanceTo {target : Nat} (h : MoveInv s) (hle : s.nowUs ≤ target) (he : advanceTo target s = .next t) :
    MoveInv t := by
  obtain ⟨u, hrun, rfl⟩ := advanceTo_eq_next.1 he
  obtain ⟨hu, hnow⟩ := h.runDue hle hrun
  exact hu.setClock hnow

theorem settleWait (h : MoveInv s) (he : settleWait s = .next t) : MoveInv t := by
  obtain ⟨u, hadv, hrec⟩ := andThen_eq_next.1 he
  cases hrec
  exact (h.advanceTo (le_max_left _ _) hadv).record _

/-! ### Operations of MAIN (R251, R254 to R257, R181 to R189) -/

/-- R148, R252, R253, R295: a transition of the clock source keeps the beat alarm and the enable bit in accord with
the mode. -/
theorem pollClockSource (h : MoveInv s) : MoveInv (pollClockSource s) := by
  rcases pollClockSource_cases s with ⟨-, -, he⟩ | ⟨-, -, he⟩ | ⟨-, he⟩ <;> rw [he]
  · exact { h with chain := rfl, externalEdge := rfl }
  · exact { h with chain := rfl, externalEdge := rfl }
  · exact h

theorem lPollsw (h : MoveInv s) (hseq : s.seq = .idle) : MoveInv (lPollsw s) :=
  { h.pollClockSource with running := fun hn => absurd ((pollClockSource_seq s).trans hseq) hn }

theorem lMode (h : MoveInv s) (hseq : s.seq = .idle) : MoveInv (lMode s) := by
  rcases lMode_cases s with ⟨-, he⟩ | ⟨-, he⟩ <;> rw [he] <;> exact { h with running := fun hn => absurd hseq hn }

theorem lScale (h : MoveInv s) (hseq : s.seq = .idle) : MoveInv (lScale s) := by
  rcases lScale_cases s with ⟨-, he⟩ | ⟨-, he⟩ <;> rw [he]
  · exact { h with scale := nextScale_lt h.bounds _, running := fun hn => absurd hseq hn }
  · exact { h with running := fun hn => absurd hseq hn }

theorem lRange (h : MoveInv s) (hseq : s.seq = .idle) : MoveInv (lRange s) := by
  rcases lRange_cases s with ⟨-, he⟩ | ⟨-, he⟩ <;> rw [he] <;> exact { h with running := fun hn => absurd hseq hn }

/-- R257: a run starts only with its trigger pending. -/
theorem lStep (h : MoveInv s) : MoveInv (lStep s) := by
  unfold Machine.lStep
  split_ifs with hp
  · exact { h with running := fun _ => ⟨hp, rfl⟩, addressed := .inr (.inl rfl) }
  · exact { h with running := fun hn => absurd (h.running hn).1 hp }

theorem stepS1 (h : MoveInv s) (hseq : s.seq = .s1) : MoveInv (stepS1 s) := by
  rw [stepS1_eq]
  exact { h with
    bank := rfl
    past := ⟨h.past.1, le_rfl⟩
    running := fun _ => h.running (by rw [hseq]; decide)
    addressed := .inr (.inr (.inr (muxAddress_muxBank _))) }

/-- The steps from `S2` to `S7` go on with the run that is in progress. -/
theorem run_goes_on (h : MoveInv s) (hseq : s.seq ∈ [.s2, .s3, .s4, .s5, .s6, .s7, .s8]) :
    (s.triggerPending = true ∧ s.lpos = .pollsw) ∧ s.selectedSource = s.memoryIndex.toNat := by
  refine ⟨h.running ?_, ?_⟩
  · rintro he
    simp [he] at hseq
  · rcases h.addressed with he | he | he | he
    · simp [he] at hseq
    · simp [he] at hseq
    · simp [he] at hseq
    · exact he

theorem stepS2 (h : MoveInv s) (hseq : s.seq = .s2) : MoveInv (stepS2 s) := by
  obtain ⟨hrun, haddr⟩ := h.run_goes_on (by simp [hseq])
  obtain ⟨code, k, he⟩ := stepS2_eq s
  have hmax := h.bounds.codeMax
  have hcode : (code.setWidth 16).toNat ≤ s.cfg.codeMax := by
    have := code.isLt
    rw [BitVec.toNat_setWidth]
    omega
  rw [he]
  exact { h with sample := hcode, running := fun _ => hrun, addressed := .inr (.inr (.inr haddr)) }

theorem stepS3 (h : MoveInv s) (hseq : s.seq = .s3) : MoveInv (stepS3 s) := by
  obtain ⟨hrun, haddr⟩ := h.run_goes_on (by simp [hseq])
  unfold Machine.stepS3
  split_ifs
  · exact { h with
      sample := rScale_sample_le h.bounds _ h.sample
      running := fun _ => hrun, addressed := .inr (.inr (.inr haddr)) }
  · exact { h with running := fun _ => hrun, addressed := .inr (.inr (.inr haddr)) }

theorem memoryIndex_lt (h : MoveInv s) : s.memoryIndex.toNat < s.cfg.memLen := by
  rw [h.bounds.memLen]
  exact s.memoryIndex.isLt

/-- R21, R184: what is stored is the sample, a code. -/
theorem stepS4 (h : MoveInv s) (hseq : s.seq = .s4) : MoveInv (stepS4 s) := by
  obtain ⟨hrun, haddr⟩ := h.run_goes_on (by simp [hseq])
  rcases stepS4_cases s with ⟨-, he⟩ | ⟨-, he⟩ <;> rw [he]
  · exact { h with running := fun _ => hrun, addressed := .inr (.inr (.inr haddr)) }
  · rw [memWrite_inside _ _ _ h.memoryIndex_lt]
    exact { h with
      memoryWf := Memory.write_wf _ _ _ s.memoryIndex.isLt h.memoryWf
      codes := all_writeCells (decide_eq_true h.sample) _ h.codes
      running := fun _ => hrun, addressed := .inr (.inr (.inr haddr)) }

theorem stepS5 (h : MoveInv s) (hseq : s.seq = .s5) : MoveInv (stepS5 s) := by
  obtain ⟨hrun, haddr⟩ := h.run_goes_on (by simp [hseq])
  obtain ⟨q, k, he⟩ := stepS5_eq s
  rw [he, memRead_inside _ _ h.memoryIndex_lt]
  exact { h with running := fun _ => hrun, addressed := .inr (.inr (.inr haddr)) }

/-- R186, R292: the DAC's range fault is not the index fault. -/
theorem stepS6 (h : MoveInv s) (hseq : s.seq = .s6) : MoveInv (stepS6 s) := by
  obtain ⟨hrun, haddr⟩ := h.run_goes_on (by simp [hseq])
  rcases stepS6_cases s with ⟨-, -, he⟩ | ⟨-, he⟩
  · rw [he, dacWrite_eq]
    exact { h with running := fun _ => hrun, addressed := .inr (.inr (.inr haddr)) }
  · obtain ⟨b0, b1, b2, hframe⟩ := dacWriteUnspecified_eq s.raiseDacRange
    rw [he, hframe]
    exact { h with running := fun _ => hrun, addressed := .inr (.inr (.inr haddr)) }

theorem stepS7 (h : MoveInv s) (hseq : s.seq = .s7) : MoveInv (stepS7 s) := by
  obtain ⟨hrun, haddr⟩ := h.run_goes_on (by simp [hseq])
  rw [stepS7_eq]
  exact { h with pulse := rfl, running := fun _ => hrun, addressed := .inr (.inr (.inr haddr)) }

theorem stepS8 (h : MoveInv s) (hseq : s.seq = .s8) : MoveInv (stepS8 s) := by
  obtain ⟨hrun, -⟩ := h.run_goes_on (by simp [hseq])
  exact { h with running := fun _ => hrun, addressed := .inr (.inr (.inl rfl)) }

theorem stepS9 (h : MoveInv s) : MoveInv (stepS9 s) :=
  { h with running := fun hn => absurd rfl hn, addressed := .inl rfl }

/-- The operation that MAIN's place selects keeps the invariant. -/
theorem mainSelected (h : MoveInv s) : MoveInv (engineEffect (mainSelected s) s) := by
  unfold Machine.mainSelected
  cases hseq : s.seq with
  | idle =>
    cases s.lpos with
    | pollsw => exact h.lPollsw hseq
    | mode => exact h.lMode hseq
    | scale => exact h.lScale hseq
    | range => exact h.lRange hseq
    | step => exact h.lStep
  | s1 => exact h.stepS1 hseq
  | s2 => exact h.stepS2 hseq
  | s3 => exact h.stepS3 hseq
  | s4 => exact h.stepS4 hseq
  | s5 => exact h.stepS5 hseq
  | s6 => exact h.stepS6 hseq
  | s7 => exact h.stepS7 hseq
  | s8 => exact h.stepS8 hseq
  | s9 => exact h.stepS9

end MoveInv

/-! ## MAIN's place, and the rows of the reference schedule (R30, R250, R275, R277)

A `LOOP` performs the very operations that MAIN's place selects, one after another; a callback does not move that
place. -/

/-- `seq` and `lpos` are the same. -/
structure SamePlace (s t : State) : Prop where
  seq : t.seq = s.seq
  lpos : t.lpos = s.lpos

theorem SamePlace.mainSelected {s t : State} (h : SamePlace s t) : mainSelected t = mainSelected s := by
  unfold Machine.mainSelected
  rw [h.seq, h.lpos]

theorem mainSelected_record (s : State) (i : Instr) : mainSelected (s.record i) = mainSelected s :=
  SamePlace.mainSelected ⟨record_seq s i, record_lpos s i⟩

theorem runDue_samePlace {target fuel : Nat} {s t : State} (h : runDue target fuel s = some t) : SamePlace s t := by
  refine runDue_keeps (P := SamePlace s) ?_ h ⟨rfl, rfl⟩
  intro u c hu _
  rw [fire_frame]
  exact ⟨hu.seq, hu.lpos⟩

theorem dispatch_samePlace {s t : State} (h : dispatch s = .next t) : SamePlace s t := by
  rcases dispatch_eq_next.1 h with ⟨-, rfl⟩ | ⟨-, hrun⟩
  · exact ⟨rfl, rfl⟩
  · exact runDue_samePlace hrun

theorem settleWait_samePlace {s t : State} (h : settleWait s = .next t) : SamePlace s t := by
  obtain ⟨u, hadv, hrec⟩ := andThen_eq_next.1 h
  obtain ⟨v, hrun, rfl⟩ := advanceTo_eq_next.1 hadv
  cases hrec
  have hv := runDue_samePlace hrun
  exact ⟨(record_seq _ _).trans hv.seq, (record_lpos _ _).trans hv.lpos⟩

/-- After operation `i`, performed where MAIN's place selects it, the place selects `j`. -/
def Follows (i j : Instr) : Prop :=
  ∀ s t, mainSelected s = i → SamePlace (engineEffect i s) t → mainSelected t = j

/-- R250: a poll is selected only outside a run. -/
theorem seq_idle_of_poll {s : State} {i : Instr} (hi : i ∈ [.lPollsw, .lMode, .lScale, .lRange])
    (h : mainSelected s = i) : s.seq = .idle := by
  unfold mainSelected at h
  cases hseq : s.seq <;> simp [hseq, ← h] at hi ⊢

theorem lMode_seq (s : State) : (lMode s).seq = s.seq := by
  rcases lMode_cases s with ⟨-, h⟩ | ⟨-, h⟩ <;> rw [h]

theorem lScale_seq (s : State) : (lScale s).seq = s.seq := by
  rcases lScale_cases s with ⟨-, h⟩ | ⟨-, h⟩ <;> rw [h]

theorem lRange_seq (s : State) : (lRange s).seq = s.seq := by
  rcases lRange_cases s with ⟨-, h⟩ | ⟨-, h⟩ <;> rw [h]

/-- A poll that keeps `seq` is followed by the operation at the loop position it sets. -/
theorem follows_of_poll {i j : Instr} (hi : i ∈ [.lPollsw, .lMode, .lScale, .lRange])
    (hseq : ∀ s, (engineEffect i s).seq = s.seq)
    (hsel : ∀ s t : State, t.seq = .idle → t.lpos = (engineEffect i s).lpos → mainSelected t = j) : Follows i j :=
  fun s t h hplace => hsel s t (hplace.seq.trans ((hseq s).trans (seq_idle_of_poll hi h))) hplace.lpos

/-- A micro-step is followed by the operation at the `seq` it sets. -/
theorem follows_of_seq {i j : Instr} (hsel : ∀ s t : State, t.seq = (engineEffect i s).seq → mainSelected t = j) :
    Follows i j :=
  fun s t _ hplace => hsel s t hplace.seq

/-- The polls of an iteration stand in the order in which MAIN's place selects them. -/
theorem pollOps_follow : (pollOps.map Prod.fst).IsChain Follows := by
  simp only [pollOps, List.map_cons, List.map_nil, List.isChain_cons_cons, List.isChain_singleton, and_true]
  refine ⟨?mode, ?scale, ?range, ?step⟩
  case mode =>
    refine follows_of_poll (by simp) pollClockSource_seq fun s t hseq hlpos => ?_
    rw [mainSelected, hseq, hlpos]
    rfl
  case scale =>
    refine follows_of_poll (by simp) lMode_seq fun s t hseq hlpos => ?_
    rw [mainSelected, hseq, hlpos]
    rfl
  case range =>
    refine follows_of_poll (by simp) lScale_seq fun s t hseq hlpos => ?_
    rw [mainSelected, hseq, hlpos]
    rfl
  case step =>
    refine follows_of_poll (by simp) lRange_seq fun s t hseq hlpos => ?_
    rw [mainSelected, hseq, hlpos]
    rfl

/-- The micro-steps after the settle wait stand in the order in which MAIN's place selects them. -/
theorem sampleOps_follow : (sampleOps.map Prod.fst).IsChain Follows := by
  simp only [sampleOps, List.map_cons, List.map_nil, List.isChain_cons_cons, List.isChain_singleton, and_true]
  refine ⟨?_, ?_, ?_, ?_, ?_, ?_, ?_⟩ <;>
    exact follows_of_seq fun s t hseq => by rw [mainSelected, hseq]; rfl

/-- R277 (c): what MAIN's place selects is an operation of MAIN other than the settle wait. -/
theorem exec_mainSelected (s u : State) :
    exec (mainSelected s) u = engineOp (mainSelected s) (engineEffect (mainSelected s)) u := by
  unfold mainSelected
  cases s.seq with
  | idle => cases s.lpos <;> rfl
  | s1 | s2 | s3 | s4 | s5 | s6 | s7 | s8 | s9 => rfl

/-- R277 (c): a move of MAIN is the operation that its place selects, at `S2` after the settle wait. -/
theorem mainMove_eq_next {s t : State} (h : mainMove s = .next t) :
    ∃ u, (u = s ∨ settleWait s = .next u) ∧ mainSelected u = mainSelected s ∧ u.powered = true ∧
      t = engineEffect (mainSelected u) (u.record (mainSelected u)) := by
  obtain ⟨u, hwait, hop⟩ := andThen_eq_next.1 h
  obtain ⟨hpow, rfl⟩ := engineOp_eq_next.1 (exec_mainSelected s u ▸ hop)
  have hu : (u = s ∨ settleWait s = .next u) ∧ mainSelected u = mainSelected s := by
    split_ifs at hwait with hseq
    · have hsettle := (execMuxSettle_eq_next.1 hwait).2
      exact ⟨.inr hsettle, (settleWait_samePlace hsettle).mainSelected⟩
    · cases hwait
      exact ⟨.inl rfl, rfl⟩
  exact ⟨u, hu.1, hu.2, hpow, by rw [hu.2]⟩

theorem Continues.mainMove {s t : State} (h : mainMove s = .next t) : Continues s t := by
  obtain ⟨u, hwait, -, -, rfl⟩ := mainMove_eq_next h
  have hu : Continues s u := by
    rcases hwait with rfl | hwait
    · exact refl _
    · exact settleWait hwait
  exact hu.trans (perform _ u)

namespace MoveInv

variable {s t : State}

/-- One operation that MAIN's place selects, with the dispatch after it, as a part of an iteration. -/
theorem mainOp (h : MoveInv s) {i : Instr} (hsel : Machine.mainSelected s = i)
    (he : mainOp i (engineEffect i) s = .next t) : MoveInv t ∧ SamePlace (engineEffect i (s.record i)) t := by
  have hbody : MoveInv (engineEffect i (s.record i)) := by
    have hr := (h.record i).mainSelected
    rwa [mainSelected_record, hsel] at hr
  exact ⟨(hbody.dispatch he).1, dispatch_samePlace he⟩

/-- A row of operations that MAIN's place selects one after another. -/
theorem mainOps {ops : List (Instr × (State → State))} (h : MoveInv s)
    (hops : ∀ o ∈ ops, o.2 = engineEffect o.1) (hrow : (ops.map Prod.fst).IsChain Follows)
    (hhead : ∀ o ∈ ops.head?, Machine.mainSelected s = o.1) (he : mainOps ops s = .next t) : MoveInv t := by
  induction ops generalizing s with
  | nil => cases he; exact h
  | cons o rest ih =>
    obtain ⟨i, body⟩ := o
    obtain rfl : body = engineEffect i := hops (i, body) List.mem_cons_self
    rw [mainOps_cons, andThen_eq_next] at he
    obtain ⟨u, hop, hrest⟩ := he
    have hsel : Machine.mainSelected s = i := hhead _ rfl
    obtain ⟨hu, hplace⟩ := h.mainOp hsel hop
    refine ih hu (fun o ho => hops o (List.mem_cons_of_mem _ ho)) hrow.tail ?_ hrest
    intro o ho
    cases rest with
    | nil => cases ho
    | cons next rest =>
      cases ho
      have hfollows : Follows i o.1 := (List.isChain_cons_cons.1 hrow).1
      exact hfollows _ _ ((mainSelected_record s i).trans hsel) hplace

/-- R275: one iteration from the boundary keeps the invariant. -/
theorem iteration (h : MoveInv s) (hseq : s.seq = .idle) (hlpos : s.lpos = .pollsw)
    (he : iteration s = .next t) : MoveInv t := by
  obtain ⟨u, hpolls, hrun⟩ := iteration_eq_next.1 he
  have hu : MoveInv u := h.mainOps pollOps_effect pollOps_follow
    (by rintro o ⟨⟩; simp [Machine.mainSelected, hseq, hlpos]) hpolls
  rcases hrun with ⟨hs1, hrun⟩ | ⟨-, rfl⟩
  · obtain ⟨v, w, hv, hw, ht⟩ := runPipeline_eq_next.1 hrun
    obtain ⟨hvi, hvp⟩ := hu.mainOp (i := .stepS1) (by simp [Machine.mainSelected, hs1]) hv
    have hws : w.seq = .s2 := (settleWait_samePlace hw).seq.trans hvp.seq
    exact (hvi.settleWait hw).mainOps sampleOps_effect sampleOps_follow
      (by rintro o ⟨⟩; simp [Machine.mainSelected, hws]) ht
  · exact hu

/-- R277 (c): MAIN's move by itself. -/
theorem mainMove (h : MoveInv s) (he : mainMove s = .next t) : MoveInv t := by
  obtain ⟨u, hwait, -, -, rfl⟩ := mainMove_eq_next he
  have hu : MoveInv u := by
    rcases hwait with rfl | hwait
    · exact h
    · exact h.settleWait hwait
  have hr := (hu.record (Machine.mainSelected u)).mainSelected
  rwa [mainSelected_record] at hr

end MoveInv

/-! ## Reset (R332) and the words of a script -/

/-- R332 step 6: the boot arms the beat alarm exactly in internal-clock mode. -/
theorem bootClock_eq {s : State} (h : s.alarm.beat = none) :
    bootClock s =
      { s with alarm := { s.alarm with beat := if s.externalTrigger then none else some ⟨.trigger, s.nowUs⟩ } } := by
  unfold bootClock
  split_ifs
  · rw [← h]
  · rfl

/-- R44, R332: the boot ends with the invariant, from any state at all. -/
theorem boot_moveInv {s : State} (hcfg : s.cfg.wf = true) : MoveInv (boot ((resetValues s).record .reset)) := by
  have hb := Cfg.bounds_of_wf hcfg
  have hslow := hb.slowMs
  have hfast := hb.fastSlow
  have htempo : s.cfg.fastMs / 2 ≤ (BitVec.ofNat 16 (s.cfg.slowMs / 2)).toNat ∧
      (BitVec.ofNat 16 (s.cfg.slowMs / 2)).toNat ≤ s.cfg.slowMs / 2 := by
    rw [BitVec.toNat_ofNat, Nat.mod_eq_of_lt (by omega)]
    omega
  have hsample : ((s.freeValue.setWidth 12).setWidth 16).toNat ≤ s.cfg.codeMax := by
    have := (s.freeValue.setWidth 12).isLt
    have := hb.codeMax
    rw [BitVec.toNat_setWidth]
    omega
  have hchain : (if s.pinDrive.extClkEn = true then none else some (⟨.trigger, 0⟩ : BeatAlarm)).isSome =
      !s.pinDrive.extClkEn := by
    cases s.pinDrive.extClkEn <;> rfl
  rw [record_of_powered _ _ rfl, boot, muxSet_eq, bootClock_eq rfl]
  exact {
    configWf := hcfg, powered := rfl, memoryWf := rfl, codes := rfl, tempo := htempo, scale := hb.nScales.1
    bank := rfl, chain := hchain, externalEdge := rfl, fixedEdges := ⟨rfl, rfl, rfl⟩, debounce := rfl, pulse := rfl
    periodic := by simp [bootTempo, State.schedule, Alarms.arm, bootEdges, bootSwitches, resetValues]
    pins := rfl, past := ⟨le_rfl, le_rfl⟩, noIndexFault := rfl, sample := hsample
    running := fun hn => absurd rfl hn, addressed := .inl rfl }

/-- `RESET` begins a run in its own configuration and agenda, with the invariant. -/
theorem execReset_moveInv {s t : State} (hcfg : s.cfg.wf = true) (he : execReset s = .next t) :
    MoveInv t ∧ t.cfg = s.cfg ∧ t.agenda = s.agenda := by
  have hboot := boot_moveInv hcfg
  have hlater := Continues.dispatch he
  have hframe : (boot ((resetValues s).record .reset)).cfg = s.cfg ∧
      (boot ((resetValues s).record .reset)).agenda = s.agenda := by
    rw [boot, muxSet_eq, bootClock_eq (by rfl)]
    exact ⟨rfl, rfl⟩
  exact ⟨(hboot.dispatch he).1, hlater.cfg.trans hframe.1, hlater.agenda.trans hframe.2⟩

/-- Every word of a script but `RESET` keeps the invariant of a powered engine. -/
theorem MoveInv.exec {i : Instr} {s t : State} (h : MoveInv s) (hi : i.injectable = true) (hne : i ≠ .reset)
    (he : exec i s = .next t) : MoveInv t := by
  rcases agent_of_injectable hi with hagent | hagent
  · cases i with
    | reset => exact absurd rfl hne
    | adv d =>
      obtain ⟨-, hadv⟩ := execAdv_eq_next.1 he
      exact (h.record _).advanceTo (by simp) hadv
    | pin p level =>
      obtain ⟨v, -, rfl⟩ := execPin_eq_next.1 he
      exact h.drivePin p level v
    | ain chan code =>
      cases he
      exact { h.record (.ain chan code) with }
    | loop =>
      obtain ⟨-, hseq, hlpos, hloop⟩ := execLoop_eq_next.1 he
      exact (h.record .loop).iteration ((record_seq _ _).trans hseq) ((record_lpos _ _).trans hlpos) hloop
    | _ => cases hagent
  · obtain ⟨v, hv⟩ := exec_of_function hagent s
    exact h.functionOp (hv ▸ he)

/-! ## Every step keeps the invariant (O58) -/

/-- The parts of `Inv` that a turn has to bring: the frame, and the invariant of a powered engine with nothing due. -/
theorem Inv.of_frame {s t : State} (h : Inv s) (hcfg : t.cfg = s.cfg) (hagenda : t.agenda = s.agenda)
    (hengine : t.powered = true → MoveInv t ∧ NothingDue t) : Inv t where
  configWf := hcfg ▸ h.configWf
  agenda := hagenda ▸ h.agenda
  engine hp := (hengine hp).1.engineInv (hengine hp).2

/-- A word of a script, with the dispatch after it, keeps the invariant of the machine. -/
theorem Inv.scriptWord {i : Instr} {s t u : State} (h : Inv s) (hi : i.injectable = true)
    (he : exec i s = .next t) (hd : dispatch t = .next u) : Inv u := by
  have hdispatch := Continues.dispatch hd
  by_cases hreset : i = .reset
  · subst hreset
    obtain ⟨ht, hcfg, hagenda⟩ := execReset_moveInv h.configWf he
    exact h.of_frame (hdispatch.cfg.trans hcfg) (hdispatch.agenda.trans hagenda) fun _ => ht.dispatch hd
  · have hlater := (Continues.exec hreset he).trans hdispatch
    refine h.of_frame hlater.cfg hlater.agenda fun hp => ?_
    have hpow : s.powered = true := hlater.powered ▸ hp
    have hs := (h.engine hpow).moveInv h.configWf hpow
    exact (hs.exec hi hreset he).dispatch hd

/-- A turn of MAIN, held or not, keeps the invariant of the machine. -/
theorem Inv.mainTurn {s t : State} (h : Inv s) (hpow : s.powered = true) (he : mainStep s = .next t) : Inv t := by
  unfold mainStep at he
  split at he
  · obtain ⟨u, hmove, hd⟩ := andThen_eq_next.1 he
    have hlater := (Continues.mainMove hmove).trans (Continues.dispatch hd)
    have hs := (h.engine hpow).moveInv h.configWf hpow
    exact h.of_frame hlater.cfg hlater.agenda fun _ => (hs.mainMove hmove).dispatch hd
  · cases he
    exact h

/-- The invariant after the next turn has been taken off the agenda. -/
theorem Inv.popTurn {s : State} {turn : Turn} {rest : List Turn} (h : Inv s) (hag : s.agenda = turn :: rest) :
    turn.ofSpec = true ∧ Inv { s with agenda := rest } := by
  have hall := h.agenda
  rw [hag, List.all_cons, Bool.and_eq_true] at hall
  exact ⟨hall.1, { configWf := h.configWf, agenda := hall.2, engine := fun hp => { h.engine hp with } }⟩

theorem takeTurn_main_eq_next {s t : State} :
    takeTurn .main s = .next t ↔ s.powered = true ∧ mainStep s = .next t := by
  cases hpow : s.powered <;> simp [takeTurn, hpow]

/-- A turn of the spec keeps the invariant of the machine. -/
theorem Inv.takeTurn {turn : Turn} {s t : State} (h : Inv s) (hspec : turn.ofSpec = true)
    (he : takeTurn turn s = .next t) : Inv t := by
  cases turn with
  | script w =>
    obtain ⟨i, m, hword, hexec, hd⟩ := performTurn_eq_next.1 he
    exact h.scriptWord (decodeScript_eq_ok.1 hword).2 hexec hd
  | main =>
    obtain ⟨hpow, hmain⟩ := takeTurn_main_eq_next.1 he
    exact h.mainTurn hpow hmain
  | direct w => cases hspec

/-- Settles O58: a step takes the next turn of the agenda, or none. -/
theorem stepKeepsInv : Obligations.StepKeepsInv := by
  intro s t h hstep
  unfold step at hstep
  split at hstep
  next =>
    cases hstep
    exact h
  next turn rest hag =>
    obtain ⟨hspec, hpop⟩ := h.popTurn hag
    exact hpop.takeTurn hspec (checkedTurn_eq_next.1 hstep).2

end Sys2Proof.Machine

/-! # Proofs: the operation word (O1 to O4, O30, O55)

First what each format of R82 reads, one `↔` per format; then the map of R86, arm by arm; then `decode_eq_ok`, that a
word decodes exactly to the well-formed operation it encodes, of which O1 and O2 are the two directions. -/

namespace Sys2Proof

/-! ## Words put together from fields -/

/-- A word is two fields in a row exactly where they are what is cut out of it. -/
theorem append_eq_iff {a b : Nat} {u : BitVec a} {v : BitVec b} {x : BitVec (a + b)} :
    u ++ v = x ↔ x.extractLsb' b a = u ∧ x.extractLsb' 0 b = v := by
  constructor
  · rintro rfl
    exact ⟨BitVec.extractLsb'_append_eq_left, BitVec.extractLsb'_append_eq_right⟩
  · rintro ⟨rfl, rfl⟩
    exact BitVec.extractLsb'_append_extractLsb'

theorem extractLsb'_extractLsb' {w : Nat} (x : BitVec w) {k m start len : Nat} (h : start + len ≤ m) :
    (x.extractLsb' k m).extractLsb' start len = x.extractLsb' (k + start) len := by
  apply BitVec.eq_of_getLsbD_eq
  intro i hi
  have him : start + i < m := by omega
  simp [hi, him, Nat.add_assoc]

theorem append_three_eq_iff {a b c : Nat} {u : BitVec a} {v : BitVec b} {z : BitVec c} {x : BitVec (a + b + c)} :
    u ++ v ++ z = x ↔ x.extractLsb' (c + b) a = u ∧ x.extractLsb' c b = v ∧ x.extractLsb' 0 c = z := by
  rw [append_eq_iff, eq_comm, append_eq_iff, extractLsb'_extractLsb' x (by omega),
    extractLsb'_extractLsb' x (by omega), and_assoc, Nat.add_zero]

theorem append_four_eq_iff {a b c d : Nat} {u : BitVec a} {v : BitVec b} {z : BitVec c} {y : BitVec d}
    {x : BitVec (a + b + c + d)} :
    u ++ v ++ z ++ y = x ↔
      x.extractLsb' (d + (c + b)) a = u ∧ x.extractLsb' (d + c) b = v ∧ x.extractLsb' d c = z ∧
        x.extractLsb' 0 d = y := by
  rw [append_eq_iff, eq_comm, append_three_eq_iff, extractLsb'_extractLsb' x (by omega),
    extractLsb'_extractLsb' x (by omega), extractLsb'_extractLsb' x (by omega), and_assoc, and_assoc, Nat.add_zero]

/-! ## The formats (R82)

A format answers an operation exactly where the operand field is the row of the operation's fields, with zeros in the
positions that the format does not name, and the operands are legal. -/

/-- A condition that R90 puts before the rest of a format. -/
theorem guard_eq_ok {p : Prop} [Decidable p] {r : Except Invalid Instr} {e : Invalid} {i : Instr} :
    (if p then r else .error e) = .ok i ↔ p ∧ r = .ok i := by
  split <;> simp [*]

/-- Such a condition does not refuse a word for its opcode where the rest does not. -/
theorem guard_ne_opcode {p : Prop} [Decidable p] {r : Except Invalid Instr} {e : Invalid} (he : e ≠ .opcode)
    (hr : r ≠ .error .opcode) : (if p then r else .error e) ≠ .error .opcode := by
  split
  · exact hr
  · simpa using he

theorem formZ_eq_ok {x : BitVec 24} {i j : Instr} : formZ x i = .ok j ↔ x = 0 ∧ i = j := by
  rw [formZ, guard_eq_ok, Except.ok.injEq]

/-- A format with one field, at the low end, as `I`, `C` and `D` have it. -/
theorem lowField_eq_ok {m k : Nat} {x : BitVec (m + k)} {f : BitVec k → Instr} {e : Invalid} {i : Instr} :
    (if x.extractLsb' k m = 0 then Except.ok (f (x.extractLsb' 0 k)) else .error e) = .ok i ↔
      ∃ v, 0#m ++ v = x ∧ f v = i := by
  simp [guard_eq_ok, append_eq_iff, and_assoc]

theorem formI_eq_ok {x : BitVec 24} {f : BitVec 4 → Instr} {i : Instr} :
    formI x f = .ok i ↔ ∃ idx, 0#20 ++ idx = x ∧ f idx = i := lowField_eq_ok (m := 20)

theorem formC_eq_ok {x : BitVec 24} {f : Code → Instr} {i : Instr} :
    formC x f = .ok i ↔ ∃ code, 0#12 ++ code = x ∧ f code = i := lowField_eq_ok (m := 12)

theorem formD_eq_ok {x : BitVec 24} {f : BitVec 16 → Instr} {i : Instr} :
    formD x f = .ok i ↔ ∃ val, 0#8 ++ val = x ∧ f val = i := lowField_eq_ok (m := 8)

theorem formP_eq_ok {x : BitVec 24} {i : Instr} :
    formP x = .ok i ↔ ∃ p level, p.number ++ 0#14 ++ level = x ∧ legalLevel p level = true ∧ .pin p level = i := by
  have hfields {p : Pin} {level : BitVec 2} : p.number ++ 0#14 ++ level = x ↔
      x.extractLsb' 16 8 = p.number ∧ x.extractLsb' 2 14 = 0 ∧ x.extractLsb' 0 2 = level := append_three_eq_iff
  simp only [hfields]
  constructor
  · intro h
    obtain ⟨hzero, h⟩ := guard_eq_ok.1 h
    split at h
    next => cases h
    next p hp =>
      obtain ⟨hlevel, h⟩ := guard_eq_ok.1 h
      exact ⟨p, _, ⟨(Pin.ofNumber?_eq_some.1 hp).symm, hzero, rfl⟩, hlevel, Except.ok.inj h⟩
  · rintro ⟨p, level, ⟨hpin, hzero, rfl⟩, hlevel, rfl⟩
    simp [formP, hpin, hzero, hlevel]

theorem formA_eq_ok {x : BitVec 24} {i : Instr} :
    formA x = .ok i ↔ ∃ (c : Fin 17) (code : Code), BitVec.ofNat 8 c.val ++ 0#4 ++ code = x ∧ .ain c code = i := by
  have hfields {c : Fin 17} {code : Code} : BitVec.ofNat 8 c.val ++ 0#4 ++ code = x ↔
      x.extractLsb' 16 8 = BitVec.ofNat 8 c.val ∧ x.extractLsb' 12 4 = 0 ∧ x.extractLsb' 0 12 = code :=
    append_three_eq_iff
  have hsource {y : BitVec 8} {c : Fin 17} : sourceOfNumber? y = some c ↔ y = BitVec.ofNat 8 c.val := by
    rw [sourceOfNumber?_eq_some]
    have := c.isLt
    constructor <;> intro h <;> bv_omega
  simp only [hfields]
  constructor
  · intro h
    obtain ⟨hzero, h⟩ := guard_eq_ok.1 h
    split at h
    next => cases h
    next c hc => exact ⟨c, _, ⟨hsource.1 hc, hzero, rfl⟩, Except.ok.inj h⟩
  · rintro ⟨c, code, ⟨hchan, hzero, rfl⟩, rfl⟩
    simp [formA, hsource.2 hchan, hzero]

theorem formSC_eq_ok {n : Nat} {x : BitVec 24} {i : Instr} :
    formSC n x = .ok i ↔
      ∃ scale code, 0#8 ++ scale ++ code = x ∧ legalScale n scale = true ∧ .qSnap scale code = i := by
  have hfields {scale : BitVec 4} {code : Code} : 0#8 ++ scale ++ code = x ↔
      x.extractLsb' 16 8 = 0 ∧ x.extractLsb' 12 4 = scale ∧ x.extractLsb' 0 12 = code := append_three_eq_iff
  simp only [hfields]
  constructor
  · intro h
    obtain ⟨hzero, h⟩ := guard_eq_ok.1 h
    obtain ⟨hscale, h⟩ := guard_eq_ok.1 h
    exact ⟨_, _, ⟨hzero, rfl, rfl⟩, hscale, Except.ok.inj h⟩
  · rintro ⟨scale, code, ⟨hzero, rfl, rfl⟩, hscale, rfl⟩
    simp [formSC, hzero, hscale]

theorem formMSC_eq_ok {n : Nat} {x : BitVec 24} {i : Instr} :
    formMSC n x = .ok i ↔
      ∃ m scale code, 0#6 ++ m.number ++ scale ++ code = x ∧ legalScale n scale = true ∧ .qApply m scale code = i := by
  have hfields {m : QMode} {scale : BitVec 4} {code : Code} : 0#6 ++ m.number ++ scale ++ code = x ↔
      x.extractLsb' 18 6 = 0 ∧ x.extractLsb' 16 2 = m.number ∧ x.extractLsb' 12 4 = scale ∧
        x.extractLsb' 0 12 = code := append_four_eq_iff
  simp only [hfields]
  constructor
  · intro h
    obtain ⟨hzero, h⟩ := guard_eq_ok.1 h
    split at h
    next => cases h
    next m hm =>
      obtain ⟨hscale, h⟩ := guard_eq_ok.1 h
      exact ⟨m, _, _, ⟨hzero, (QMode.ofNumber?_eq_some.1 hm).symm, rfl, rfl⟩, hscale, Except.ok.inj h⟩
  · rintro ⟨m, scale, code, ⟨hzero, hmode, rfl, rfl⟩, hscale, rfl⟩
    simp [formMSC, hzero, hmode, hscale]

theorem formRC_eq_ok {x : BitVec 24} {i : Instr} :
    formRC x = .ok i ↔ ∃ r code, 0#10 ++ r.number ++ code = x ∧ .rScale r code = i := by
  have hfields {r : PotRange} {code : Code} : 0#10 ++ r.number ++ code = x ↔
      x.extractLsb' 14 10 = 0 ∧ x.extractLsb' 12 2 = r.number ∧ x.extractLsb' 0 12 = code := append_three_eq_iff
  simp only [hfields]
  constructor
  · intro h
    obtain ⟨hzero, h⟩ := guard_eq_ok.1 h
    split at h
    next => cases h
    next r hr => exact ⟨r, _, ⟨hzero, (PotRange.ofNumber?_eq_some.1 hr).symm, rfl⟩, Except.ok.inj h⟩
  · rintro ⟨r, code, ⟨hzero, hrange, rfl⟩, rfl⟩
    simp [formRC, hzero, hrange]

/-! ## The map of R86 -/

/-- The opcodes of the 43 operations. -/
def opcodeMap : List Nat :=
  [0x01, 0x02, 0x03, 0x04, 0x05, 0x10, 0x11, 0x12, 0x13, 0x14, 0x15, 0x20, 0x21, 0x22, 0x23, 0x24, 0x25,
   0x30, 0x31, 0x41, 0x42, 0x43, 0x44, 0x45, 0x46, 0x47, 0x48, 0x49, 0x4A, 0x4B, 0x50, 0x51, 0x52, 0x53,
   0x54, 0x60, 0x70, 0x71, 0x72, 0x73, 0x74, 0x75, 0x76]

/-- What an arm of the map answers for opcode `k` and operand field `x`: an operation of that opcode with these
operands, well-formed, or another refusal than that of the opcode. -/
structure Reads (n k : Nat) (x : BitVec 24) (r : Except Invalid Instr) : Prop where
  inMap : r ≠ .error .opcode
  sound : ∀ i, r = .ok i → i.opcode.toNat = k ∧ i.operands = x ∧ wellFormed n i = true

section

variable {n k : Nat} {x : BitVec 24}

theorem reads_adv : Reads n 0x02 x (.ok (.adv x)) where
  inMap := nofun
  sound := by
    rintro _ ⟨⟩
    exact ⟨rfl, rfl, rfl⟩

theorem reads_formZ {i : Instr} (hop : i.opcode.toNat = k) (harg : i.operands = 0) (hwf : wellFormed n i = true) :
    Reads n k x (formZ x i) where
  inMap := guard_ne_opcode nofun nofun
  sound := by
    rintro j h
    obtain ⟨rfl, rfl⟩ := formZ_eq_ok.1 h
    exact ⟨hop, harg, hwf⟩

/-- An arm of format `I`, `C` or `D`. -/
theorem reads_lowField {m w : Nat} {y : BitVec (m + w)} {x : BitVec 24} {f : BitVec w → Instr} {e : Invalid}
    (he : e ≠ .opcode)
    (hf : ∀ v, 0#m ++ v = y → (f v).opcode.toNat = k ∧ (f v).operands = x ∧ wellFormed n (f v) = true) :
    Reads n k x (if y.extractLsb' w m = 0 then .ok (f (y.extractLsb' 0 w)) else .error e) where
  inMap := guard_ne_opcode he nofun
  sound := by
    rintro j h
    obtain ⟨v, hv, rfl⟩ := lowField_eq_ok.1 h
    exact hf v hv

theorem reads_formP : Reads n 0x03 x (formP x) where
  inMap := guard_ne_opcode nofun (by split; exacts [nofun, guard_ne_opcode nofun nofun])
  sound := by
    rintro i h
    obtain ⟨p, level, rfl, hlevel, rfl⟩ := formP_eq_ok.1 h
    exact ⟨rfl, rfl, hlevel⟩

theorem reads_formA : Reads n 0x04 x (formA x) where
  inMap := guard_ne_opcode nofun (by split <;> exact nofun)
  sound := by
    rintro i h
    obtain ⟨c, code, rfl, rfl⟩ := formA_eq_ok.1 h
    exact ⟨rfl, rfl, rfl⟩

theorem reads_formSC : Reads n 0x53 x (formSC n x) where
  inMap := guard_ne_opcode nofun (guard_ne_opcode nofun nofun)
  sound := by
    rintro i h
    obtain ⟨scale, code, rfl, hscale, rfl⟩ := formSC_eq_ok.1 h
    exact ⟨rfl, rfl, hscale⟩

theorem reads_formMSC : Reads n 0x54 x (formMSC n x) where
  inMap := guard_ne_opcode nofun (by split; exacts [nofun, guard_ne_opcode nofun nofun])
  sound := by
    rintro i h
    obtain ⟨m, scale, code, rfl, hscale, rfl⟩ := formMSC_eq_ok.1 h
    exact ⟨rfl, rfl, hscale⟩

theorem reads_formRC : Reads n 0x60 x (formRC x) where
  inMap := guard_ne_opcode nofun (by split <;> exact nofun)
  sound := by
    rintro i h
    obtain ⟨r, code, rfl, rfl⟩ := formRC_eq_ok.1 h
    exact ⟨rfl, rfl, rfl⟩

end

/-- R86: an opcode of the map is read by its arm, and every other opcode is refused. -/
theorem decodeFields_cases (n : Nat) (op : BitVec 8) (x : BitVec 24) :
    (op.toNat ∈ opcodeMap ∧ Reads n op.toNat x (decodeFields n op x)) ∨
      (op.toNat ∉ opcodeMap ∧ decodeFields n op x = .error .opcode) := by
  unfold decodeFields
  generalize op.toNat = k
  split -- the arms are numbered in the order of `decodeFields`
  case h_2 => exact .inl ⟨by decide, reads_adv⟩
  case h_3 => exact .inl ⟨by decide, reads_formP⟩
  case h_4 => exact .inl ⟨by decide, reads_formA⟩
  case h_17 | h_30 | h_33 => exact .inl ⟨by decide, reads_lowField (m := 12) nofun fun _ hx => ⟨rfl, hx, rfl⟩⟩
  case h_18 => exact .inl ⟨by decide, reads_lowField (m := 20) nofun fun _ hx => ⟨rfl, hx, rfl⟩⟩
  case h_31 | h_32 => exact .inl ⟨by decide, reads_lowField (m := 8) nofun fun _ hx => ⟨rfl, hx, rfl⟩⟩
  case h_34 => exact .inl ⟨by decide, reads_formSC⟩
  case h_35 => exact .inl ⟨by decide, reads_formMSC⟩
  case h_36 => exact .inl ⟨by decide, reads_formRC⟩
  case h_44 =>
    refine .inr ⟨?_, rfl⟩
    simp only [imp_false] at *
    simp [opcodeMap, *]
  all_goals exact .inl ⟨by decide, reads_formZ rfl rfl rfl⟩

/-- R90 (a): a word is refused for its opcode exactly where the map does not have it. -/
theorem decode_eq_opcode_error {n : Nat} {w : Word} :
    decode n w = .error .opcode ↔ (opcodeField w).toNat ∉ opcodeMap := by
  rcases decodeFields_cases n (opcodeField w) (operandField w) with ⟨hmem, hreads⟩ | ⟨hmem, herr⟩
  · exact ⟨fun h => absurd h hreads.inMap, fun h => absurd hmem h⟩
  · exact ⟨fun _ => hmem, fun _ => herr⟩

/-! ## The decoder inverts the encoder -/

/-- The operands of a well-formed operation are read back by the arm of its opcode. -/
theorem decodeFields_opcode_operands {n : Nat} {i : Instr} (h : wellFormed n i = true) :
    decodeFields n i.opcode i.operands = .ok i := by
  cases i with
  | adv tUs => rfl
  | pin p level => exact formP_eq_ok.2 ⟨p, level, rfl, h, rfl⟩
  | ain c code => exact formA_eq_ok.2 ⟨c, code, rfl, rfl⟩
  | muxSet idx => exact formI_eq_ok.2 ⟨idx, rfl, rfl⟩
  | tempoMap code | dacFrame code | qChrom code => exact formC_eq_ok.2 ⟨code, rfl, rfl⟩
  | qD2S val | qS2D val => exact formD_eq_ok.2 ⟨val, rfl, rfl⟩
  | qSnap scale code => exact formSC_eq_ok.2 ⟨scale, code, rfl, h, rfl⟩
  | qApply m scale code => exact formMSC_eq_ok.2 ⟨m, scale, code, rfl, h, rfl⟩
  | rScale r code => exact formRC_eq_ok.2 ⟨r, code, rfl, rfl⟩
  | _ => exact formZ_eq_ok.2 ⟨rfl, rfl⟩

/-- R80: a word is an operation's exactly where its two fields are the operation's opcode and operands. -/
theorem encode_eq_iff {i : Instr} {w : Word} : encode i = w ↔ opcodeField w = i.opcode ∧ operandField w = i.operands :=
  append_eq_iff (a := 8) (b := 24)

/-- A word decodes exactly to the well-formed operation whose word it is. -/
theorem decode_eq_ok {n : Nat} {w : Word} {i : Instr} : decode n w = .ok i ↔ encode i = w ∧ wellFormed n i = true := by
  constructor
  · intro h
    rcases decodeFields_cases n (opcodeField w) (operandField w) with ⟨-, hreads⟩ | ⟨-, herr⟩
    · obtain ⟨hop, harg, hwf⟩ := hreads.sound i h
      exact ⟨encode_eq_iff.2 ⟨(BitVec.eq_of_toNat_eq hop).symm, harg.symm⟩, hwf⟩
    · cases herr.symm.trans h
  · rintro ⟨rfl, hwf⟩
    rw [decode_encode_fields, decodeFields_opcode_operands hwf]

/-- Settles O1, the direction of `decode_eq_ok` from an operation to its word. -/
theorem decodeOfEncode : Obligations.DecodeOfEncode :=
  fun _ _ hwf => decode_eq_ok.2 ⟨rfl, hwf⟩

/-- Settles O2, the direction of `decode_eq_ok` from a word to its operation. -/
theorem decodeOnlyEncodings : Obligations.DecodeOnlyEncodings :=
  fun _ _ _ => decode_eq_ok.1

/-! ## Words of a script (R90, R91) -/

/-- R91: the operations a script may hold are told by their opcode. -/
theorem injectable_iff (i : Instr) :
    i.injectable = true ↔
      i.opcode.toNat ∈ [0x01, 0x02, 0x03, 0x04, 0x05, 0x25, 0x4B, 0x50, 0x51, 0x52, 0x53, 0x54, 0x60] := by
  cases i <;> simp [Instr.injectable, Instr.opcode]

/-- R90 (f): a word that decodes is refused by a script exactly where its operation is internal. -/
theorem decodeScript_of_decode {n : Nat} {w : Word} {i : Instr} (h : decode n w = .ok i) :
    decodeScript n w = if i.injectable then .ok i else .error .internal := by
  simp only [decodeScript, h]

/-- Settles O3: the opcode of a word that decodes is its operation's, and tells whether a script may hold it. -/
theorem scriptWords : Obligations.ScriptWords := by
  intro n w
  refine ⟨decode_eq_opcode_error, fun i h => ?_⟩
  obtain ⟨hop, -⟩ := encode_eq_iff.1 (decode_eq_ok.1 h).1
  have hopcode : w.extractLsb' 24 8 = i.opcode := hop
  simp only [decodeScript_of_decode h, injectable_iff, hopcode]

/-- Settles O4: the words are closed, so the decoder runs on them. -/
theorem wordsOfTheSpec : Obligations.WordsOfTheSpec := by
  unfold Obligations.WordsOfTheSpec
  decide

end Sys2Proof

/-! ## Single operations: the multiplexer lines (O30) and the pure functions (O55) -/

namespace Sys2Proof.Machine

theorem encode_muxSet (idx : BitVec 4) : encode (.muxSet idx) = 0x3000000#28 ++ idx := by
  revert idx; decide

/-- R88: the bank bit says whether the index is in the upper half. -/
theorem muxBank_iff (idx : BitVec 4) : muxBank idx = true ↔ 8 ≤ idx.toNat := by
  revert idx; decide

/-- Settles O30: the operation is recorded, and `muxSet` writes the lines. -/
theorem muxLines : Obligations.MuxLines := by
  intro s idx hpow
  have hexec : exec (.muxSet idx) s = .next (muxSet idx (s.noted (0x3000000#28 ++ idx))) := by
    rw [← encode_muxSet]
    exact engineOp_of_powered _ _ s hpow
  refine ⟨_, hexec, muxSet_eq idx _, muxSet_selectedSource idx _, ?_, ?_⟩ <;> rw [muxSet_eq]
  · exact muxBank_iff idx
  · exact Bool.xor_not_self _

/-- Settles O55: the operation is recorded, as far as there is a trace, and its value held. -/
theorem functionWords : Obligations.FunctionWords := by
  intro i s t hagent h
  obtain ⟨v, hexec⟩ := exec_of_function hagent s
  obtain ⟨x, -, rfl⟩ := functionOp_eq_next.1 (hexec ▸ h)
  unfold State.record
  split <;> rfl

end Sys2Proof.Machine

/-! # Proofs: the input decoder (O13, O21 to O25)

First what a callback writes and that dispatch ends, then single operations (O21 to O24) and edges (O13), then the
course of a debounced press (O25). -/

/-! ## The times of a well-formed configuration (R9, R10) -/

namespace Sys2Proof

/-- The constraints of R9 on the times that the input decoder and the beat chain use. -/
structure Cfg.Times (c : Cfg) : Prop where
  debounceMs : c.debounceMs = 20
  bounceMs : c.bounceMs = 20
  longPressMs : c.longPressMs = 600
  fastMs : 2 ≤ c.fastMs

theorem Cfg.times_of_wf {c : Cfg} (h : c.wf = true) : c.Times := by
  simp only [Cfg.wf, Bool.and_eq_true, decide_eq_true_eq, beq_iff_eq] at h
  exact { debounceMs := by omega, bounceMs := by omega, longPressMs := by omega, fastMs := by omega }

end Sys2Proof

namespace Sys2Proof.Machine

/-! ## The callback that goes next (R276, R297) -/

/-- The first of two callbacks is no later than a time that one of them is no later than. -/
theorem Armed.first_le {x y : Option Armed} {n : Nat}
    (h : (∃ c, x = some c ∧ c.2 ≤ n) ∨ ∃ c, y = some c ∧ c.2 ≤ n) : ∃ c, Armed.first x y = some c ∧ c.2 ≤ n := by
  cases hfirst : Armed.first x y with
  | none =>
    obtain ⟨rfl, rfl⟩ := Armed.first_eq_none.1 hfirst
    simp at h
  | some c =>
    refine ⟨c, rfl, ?_⟩
    rcases Armed.first_eq_some hfirst with ⟨rfl, hle⟩ | ⟨rfl, hlt⟩ <;> rcases h with ⟨e, he, hn⟩ | ⟨e, he, hn⟩
    · cases he; exact hn
    · exact (hle e he).trans hn
    · exact (hlt e he).le.trans hn
    · cases he; exact hn

/-- R276, R297: the callback that goes next is no later than any armed slot. -/
theorem Alarms.next_le_deadline {a : Alarms} {slot : Slot} {d : Nat} (h : a.deadline slot = some d) :
    ∃ c, a.next = some c ∧ c.2 ≤ d := by
  unfold Alarms.next
  cases slot with
  | beat =>
    obtain ⟨b, hb, rfl⟩ := Option.map_eq_some_iff.1 h
    exact Armed.first_le (.inl ⟨_, by rw [hb]; rfl, le_rfl⟩)
  | debounce =>
    have hslot : a.debounce = some d := h
    exact Armed.first_le (.inr (Armed.first_le (.inl ⟨_, by rw [hslot]; rfl, le_rfl⟩)))
  | trigOff =>
    have hslot : a.trigOff = some d := h
    exact Armed.first_le (.inr (Armed.first_le (.inr (Armed.first_le (.inl ⟨_, by rw [hslot]; rfl, le_rfl⟩)))))
  | tempo =>
    have hslot : a.tempo = some d := h
    exact Armed.first_le (.inr (Armed.first_le (.inr (Armed.first_le (.inr ⟨_, by rw [hslot]; rfl, le_rfl⟩)))))

/-- Where the deadline of a slot has come, a callback is due. -/
theorem due_ne_none_of_deadline {s : State} {slot : Slot} {d target : Nat} (h : s.alarm.deadline slot = some d)
    (hle : d ≤ target) : s.due target ≠ none := by
  obtain ⟨c, hnext, hc⟩ := Alarms.next_le_deadline h
  intro hnone
  have := due_eq_none.1 hnone c hnext
  omega

/-! ## What each callback writes (R141, R142, R113, R190, R146 with R302, R303) -/

/-- R141, R142: a beat callback arms the other phase one half-period later, but for the Trigger phase in
external-trigger mode, which leaves the slot disarmed. -/
theorem fire_beat_alarm (s : State) (p : Phase) (d : Nat) :
    (s.fire (.beat p, d)).alarm = { s.alarm with
      beat :=
        if p = .trigger ∧ s.externalTrigger = true then none
        else some ⟨if p = .trigger then .anticipate else .trigger, max s.nowUs d + 1000 * s.tempoDelayMs.toNat⟩ } := by
  cases p with
  | trigger =>
    simp only [State.fire, perform, Event.handler]
    cases hext : s.externalTrigger
    · rw [clkTrig_internal (by simpa [State.enterCallback] using hext)]
      simp [State.enterCallback, Alarms.arm, Alarms.disarm, Event.slot]
    · rw [clkTrig_external (by simpa [State.enterCallback] using hext)]
      simp [State.enterCallback, Alarms.disarm, Event.slot]
  | anticipate =>
    simp [State.fire, perform, Event.handler, clkAnt, State.enterCallback, Alarms.arm, Alarms.disarm, Event.slot]

@[simp] theorem tbRecheck_alarm (s : State) : (tbRecheck s).alarm = s.alarm := by
  rcases tbRecheck_cases s with h | h | h <;> rw [h] <;> rfl

@[simp] theorem tbRecheck_tempoDelayMs (s : State) : (tbRecheck s).tempoDelayMs = s.tempoDelayMs := by
  rcases tbRecheck_cases s with h | h | h <;> rw [h] <;> rfl

@[simp] theorem clkTrig_tempoDelayMs (s : State) : (clkTrig s).tempoDelayMs = s.tempoDelayMs := by
  cases h : s.externalTrigger
  · rw [clkTrig_internal h]
  · rw [clkTrig_external h]

/-- R302: the re-check leaves its own slot disarmed. -/
theorem fire_debounce_alarm (s : State) (d : Nat) :
    (s.fire (.debounce, d)).alarm = { s.alarm with debounce := none } := by
  simp [State.fire, perform, Event.handler, State.enterCallback, Alarms.disarm, Event.slot]

/-- R302: the end of the pulse leaves its own slot disarmed. -/
theorem fire_trigOff_alarm (s : State) (d : Nat) :
    (s.fire (.trigOff, d)).alarm = { s.alarm with trigOff := none } := by
  simp [State.fire, perform, Event.handler, trigOff, State.enterCallback, Alarms.disarm, Event.slot]

/-- R303: the periodic read is armed one period after its own deadline. -/
theorem fire_tempo_alarm (s : State) (d : Nat) :
    (s.fire (.tempo, d)).alarm = { s.alarm with tempo := some (d + 1000 * s.cfg.tempoReadMs) } := by
  simp [State.fire, perform, Event.handler, tempoRead, adcRead_tempo, State.enterCallback, Alarms.arm]

/-- R146: only the periodic read may change the half-period. -/
theorem fire_tempoDelayMs (s : State) (ev : Event) (d : Nat) :
    (s.fire (ev, d)).tempoDelayMs =
      if ev = .tempo then hysteresis s.cfg s.tempoDelayMs (tempoMap s.cfg (s.analogIn 16).toNat)
      else s.tempoDelayMs := by
  cases ev with
  | beat p => cases p <;> simp [State.fire, perform, Event.handler, clkAnt, State.enterCallback]
  | debounce => simp [State.fire, perform, Event.handler, State.enterCallback]
  | trigOff => simp [State.fire, perform, Event.handler, trigOff, State.enterCallback]
  | tempo =>
    simp [State.fire, perform, Event.handler, tempoRead, adcRead_tempo, State.enterCallback, State.analogIn]

/-- The end of the pulse and the periodic read leave the flags. -/
theorem fire_flags {s : State} {c : Armed} (h : c.1 = .trigOff ∨ c.1 = .tempo) :
    (s.fire c).triggerPending = s.triggerPending ∧ (s.fire c).rangeTogglePending = s.rangeTogglePending := by
  obtain ⟨ev, d⟩ := c
  rcases h with rfl | rfl
  · simp [State.fire, perform, Event.handler, trigOff, State.enterCallback]
  · simp [State.fire, perform, Event.handler, tempoRead, adcRead_tempo, State.enterCallback]

/-- The end of the pulse and the periodic read leave the slot of the re-check. -/
theorem fire_debounce_slot {s : State} {c : Armed} (h : c.1 = .trigOff ∨ c.1 = .tempo) :
    (s.fire c).alarm.debounce = s.alarm.debounce := by
  obtain ⟨ev, d⟩ := c
  rcases h with rfl | rfl
  · rw [fire_trigOff_alarm]
  · rw [fire_tempo_alarm]

/-! ## The dispatch of callbacks comes to an end (R276, D37)

Each callback moves its own slot on: a one-shot slot is disarmed, a beat is armed at least 1 ms later and the periodic
read 100 ms later.  So the number of callbacks that can still fall due up to a time decreases with each firing. -/

/-- A powered engine's half-period is at least half the fast bound, so its beat chain advances. -/
theorem MoveInv.chainLive {s : State} (h : MoveInv s) : ChainLive s := by
  have hfast := (Cfg.times_of_wf h.configWf).fastMs
  have htempo := h.tempo.1
  exact ⟨h.configWf, by omega⟩

/-- R145, R146: a callback leaves the half-period at least 1 ms. -/
theorem ChainLive.fire {s : State} (h : ChainLive s) (c : Armed) : ChainLive (s.fire c) := by
  obtain ⟨hcfg, htempo⟩ := h
  obtain ⟨ev, d⟩ := c
  refine ⟨by rw [fire_cfg]; exact hcfg, ?_⟩
  have hb := Cfg.bounds_of_wf hcfg
  have hslow := hb.slowMs
  have hfast := (Cfg.times_of_wf hcfg).fastMs
  have hmap := tempoMap_mem hb (code := (s.analogIn 16).toNat) (by have := (s.analogIn 16).isLt; omega)
  rw [fire_tempoDelayMs]
  split_ifs
  · exact (hysteresis_mem (lo := 1) (hi := 65535) (by omega) ⟨htempo, by have := s.tempoDelayMs.isLt; omega⟩
      (by omega)).1
  · exact htempo

/-- How many callbacks of a slot can fall due up to a time, where each arms the slot a period later. -/
def slotFirings (target period : Nat) : Option Nat → Nat
  | none => 0
  | some d => (target + period - d) / period

@[simp] theorem slotFirings_none (target period : Nat) : slotFirings target period none = 0 := rfl

theorem slotFirings_later {target period d e : Nat} (hp : 0 < period) (hd : d ≤ target) (he : d + period ≤ e) :
    slotFirings target period (some e) < slotFirings target period (some d) := by
  have hle : (target + period - e) / period ≤ (target - d) / period := Nat.div_le_div_right (by omega)
  have hsucc : (target + period - d) / period = (target - d) / period + 1 := by
    rw [← Nat.add_div_right _ hp]
    congr 1
    omega
  simp only [slotFirings]
  omega

/-- How many callbacks can fall due up to a time while `tempo_delay_ms` is not 0. -/
def Alarms.firings (a : Alarms) (target : Nat) : Nat :=
  slotFirings target 1000 (a.beat.map BeatAlarm.deadline) + a.debounce.toList.length + a.trigOff.toList.length +
    slotFirings target 100000 a.tempo

theorem Alarms.firings_le (a : Alarms) (target : Nat) : a.firings target ≤ firingBound target := by
  have hslot (period : Nat) (x : Option Nat) : slotFirings target period x ≤ (target + period) / period := by
    cases x with
    | none => exact Nat.zero_le _
    | some d => exact Nat.div_le_div_right (Nat.sub_le _ _)
  have honce (x : Option Nat) : x.toList.length ≤ 1 := by cases x <;> simp
  have hbeat := hslot 1000 (a.beat.map BeatAlarm.deadline)
  have htempo := hslot 100000 a.tempo
  have hdebounce := honce a.debounce
  have htrigOff := honce a.trigOff
  unfold Alarms.firings firingBound
  omega

/-- Each firing leaves fewer callbacks to fire. -/
theorem firings_fire_lt {s : State} {target : Nat} {c : Armed} (hlive : ChainLive s) (hdue : s.due target = some c) :
    (s.fire c).alarm.firings target < s.alarm.firings target := by
  obtain ⟨hnext, hle⟩ := due_eq_some.1 hdue
  obtain ⟨ev, d⟩ := c
  have hd : d ≤ target := hle
  have harmed := deadline_of_next hnext
  cases ev with
  | beat p =>
    have hslot : s.alarm.beat.map BeatAlarm.deadline = some d := harmed
    have htempo := hlive.2
    have hlater := slotFirings_later (period := 1000) (e := max s.nowUs d + 1000 * s.tempoDelayMs.toNat) (by omega) hd
      (by omega)
    rw [fire_beat_alarm]
    by_cases hlast : p = .trigger ∧ s.externalTrigger = true
    · simp only [Alarms.firings, hslot, if_pos hlast, Option.map_none, slotFirings_none]
      omega
    · simp only [Alarms.firings, hslot, if_neg hlast, Option.map_some]
      omega
  | debounce =>
    have hslot : s.alarm.debounce = some d := harmed
    rw [fire_debounce_alarm]
    simp [Alarms.firings, hslot]
  | trigOff =>
    have hslot : s.alarm.trigOff = some d := harmed
    rw [fire_trigOff_alarm]
    simp [Alarms.firings, hslot]
  | tempo =>
    have hslot : s.alarm.tempo = some d := harmed
    have hlater := slotFirings_later (period := 100000) (e := d + 1000 * 100) (by omega) hd (by omega)
    rw [fire_tempo_alarm, (Cfg.bounds_of_wf hlive.1).tempoReadMs]
    simp only [Alarms.firings, hslot]
    omega

theorem runDue_of_firings {target fuel : Nat} {s : State} (hlive : ChainLive s)
    (hfuel : s.alarm.firings target ≤ fuel) : ∃ t, runDue target fuel s = some t := by
  induction fuel generalizing s with
  | zero =>
    cases hdue : s.due target with
    | none => exact ⟨s, runDue_of_none _ _ _ hdue⟩
    | some c => have := firings_fire_lt hlive hdue; omega
  | succ n ih =>
    cases hdue : s.due target with
    | none => exact ⟨s, runDue_of_none _ _ _ hdue⟩
    | some c =>
      have hless := firings_fire_lt hlive hdue
      obtain ⟨t, ht⟩ := ih (hlive.fire c) (by omega)
      exact ⟨t, by simp only [runDue, hdue]; exact ht⟩

/-- R276: the fuel that the model gives suffices for every callback that falls due. -/
theorem exists_runDue {s : State} (hlive : ChainLive s) (target : Nat) :
    ∃ t, runDue target (firingBound target) s = some t :=
  runDue_of_firings hlive (s.alarm.firings_le target)

/-- R272: where the beat chain advances, `ADV` is performed; the callbacks due fire and the clock stands at its end. -/
theorem exists_exec_adv {s : State} (d : BitVec 24) (hpow : s.powered = true) (hlive : ChainLive s) :
    ∃ u, runDue (s.nowUs + d.toNat) (firingBound (s.nowUs + d.toNat)) (s.record (.adv d)) = some u ∧
      exec (.adv d) s = .next { u with nowUs := s.nowUs + d.toNat } := by
  have hrec : ChainLive (s.record (.adv d)) := by simpa [ChainLive] using hlive
  obtain ⟨u, hu⟩ := exists_runDue hrec (s.nowUs + d.toNat)
  exact ⟨u, hu, execAdv_eq_next.2 ⟨hpow, advanceTo_eq_next.2 ⟨u, hu, rfl⟩⟩⟩

/-! ## The operations of class 1 (O21 to O24) -/

theorem tbRise_eq {s : State} (hcfg : s.cfg.wf = true) :
    tbRise s = { s with
      edgeEn := { s.edgeEn with tbR := false }, alarm := { s.alarm with debounce := some (s.nowUs + 20000) } } := by
  rw [tbRise, (Cfg.times_of_wf hcfg).debounceMs]
  rfl

theorem pinRead_trigBtn_eq_one (s : State) : s.pinRead .trigBtn = 1 ↔ s.pinLevel.trigBtn = true := by
  cases h : s.pinLevel.trigBtn <;> simp [State.pinRead, PinLevels.level, h]

/-- R113: the flag that `pot_mode` selects is set where the button is high. -/
theorem tbRecheck_eq (s : State) :
    tbRecheck s = { s with
      rangeTogglePending := s.rangeTogglePending || (s.pinLevel.trigBtn && s.potMode)
      triggerPending := s.triggerPending || (s.pinLevel.trigBtn && !s.potMode)
      edgeEn := { s.edgeEn with tbR := true } } := by
  unfold tbRecheck
  simp only [pinRead_trigBtn_eq_one]
  cases s.pinLevel.trigBtn <;> cases hmode : s.potMode <;>
    simp [State.enableTbR, State.setRangeTogglePending, State.setTriggerPending, hmode]

/-- Settles O21: both operations are recorded, and `tbRise_eq` and `tbRecheck_eq` say what they write. -/
theorem triggerButton : Obligations.TriggerButton := by
  intro s hpow hcfg
  constructor
  · refine (engineOp_of_powered .tbRise tbRise s hpow).trans ?_
    rw [tbRise_eq (by exact hcfg)]
    rfl
  · refine (engineOp_of_powered .tbRecheck tbRecheck s hpow).trans ?_
    rw [tbRecheck_eq]
    rfl

/-- R115: the three ranges of a hold, in microseconds. -/
theorem mbFall_eq {s : State} (hcfg : s.cfg.wf = true) :
    mbFall s =
      s.setHoldFlag
        (if 600000 < s.nowUs - s.modeButtonPressTime then .long
        else if 20000 ≤ s.nowUs - s.modeButtonPressTime then .short else .bounce) := by
  have htimes := Cfg.times_of_wf hcfg
  rw [mbFall, classifyHold, htimes.longPressMs, htimes.bounceMs]

/-- Settles O22: a hold lies in one of the three ranges of `mbFall_eq`. -/
theorem modeButton : Obligations.ModeButton := by
  intro s hpow hcfg
  have hfall : exec .mbFall s = .next (mbFall (s.noted 0x13000000#32)) := engineOp_of_powered .mbFall mbFall s hpow
  rw [hfall, mbFall_eq (by exact hcfg)]
  refine ⟨engineOp_of_powered .mbRise mbRise s hpow, fun hlong => ?_, fun hlow hhigh => ?_, fun hpast hshort => ?_⟩
  · rw [if_pos (by simp only; omega)]
    rfl
  · rw [if_neg (by simp only; omega), if_pos (by simp only; omega)]
    rfl
  · rw [if_neg (by simp only; omega), if_neg (by simp only; omega)]
    rfl

/-- Settles O23: `XT.RISE` is the Trigger phase in either mode. -/
theorem pulseInputs : Obligations.PulseInputs := by
  intro s hpow
  have hrise : exec .xtRise s = .next (clkTrig (s.noted 0x14000000#32)) := engineOp_of_powered .xtRise xtRise s hpow
  refine ⟨fun hext => ?_, fun hint => ?_, engineOp_of_powered .xmRise xmRise s hpow⟩
  · rw [hrise, clkTrig_external (by exact hext)]
  · rw [hrise, clkTrig_internal (by exact hint)]
    rfl

/-- R120: what the operations of class 1 may write, and that they only set the flags. -/
structure DecoderWrites (s t : State) : Prop where
  frame : t = { s with
    triggerPending := t.triggerPending, modeTogglePending := t.modeTogglePending
    scaleTogglePending := t.scaleTogglePending, rangeTogglePending := t.rangeTogglePending
    edgeEn := { s.edgeEn with tbR := t.edgeEn.tbR }
    alarm := { s.alarm with debounce := t.alarm.debounce }
    modeButtonPressTime := t.modeButtonPressTime, statusLed := t.statusLed, optrace := t.optrace }
  trigger : s.triggerPending = true → t.triggerPending = true
  modeToggle : s.modeTogglePending = true → t.modeTogglePending = true
  scaleToggle : s.scaleTogglePending = true → t.scaleTogglePending = true
  rangeToggle : s.rangeTogglePending = true → t.rangeTogglePending = true

namespace DecoderWrites

variable (s : State) (trace : List (Nat × Word))

theorem tbRise : DecoderWrites s (tbRise { s with optrace := trace }) := ⟨rfl, id, id, id, id⟩

theorem tbRecheck : DecoderWrites s (tbRecheck { s with optrace := trace }) := by
  rw [tbRecheck_eq]
  exact ⟨rfl, fun h => by simp [h], id, id, fun h => by simp [h]⟩

theorem mbRise : DecoderWrites s (mbRise { s with optrace := trace }) := ⟨rfl, id, id, id, id⟩

theorem mbFall : DecoderWrites s (mbFall { s with optrace := trace }) := by
  rcases mbFall_cases { s with optrace := trace } with h | h | h <;> rw [h]
  · exact ⟨rfl, id, id, fun _ => rfl, id⟩
  · exact ⟨rfl, id, fun _ => rfl, id, id⟩
  · exact ⟨rfl, id, id, id, id⟩

theorem xtRise (hext : s.externalTrigger = true) : DecoderWrites s (xtRise { s with optrace := trace }) := by
  rw [Machine.xtRise, clkTrig_external (by exact hext)]
  exact ⟨rfl, fun _ => rfl, id, id, id⟩

theorem xmRise : DecoderWrites s (xmRise { s with optrace := trace }) := ⟨rfl, id, fun _ => rfl, id, id⟩

end DecoderWrites

/-- Settles O24: one case for each operation of class 1. -/
theorem inputDecoderWrites : Obligations.InputDecoderWrites := by
  intro i s t hi hexec
  have hwrites : DecoderWrites s t := by
    rcases hi with rfl | rfl | rfl | rfl | ⟨rfl, hext⟩ | rfl <;>
      obtain ⟨hpow, rfl⟩ := engineOp_eq_next.1 hexec <;> rw [record_of_powered _ _ hpow]
    · exact .tbRise s _
    · exact .tbRecheck s _
    · exact .mbRise s _
    · exact .mbFall s _
    · exact .xtRise s _ hext
    · exact .xmRise s _
  exact ⟨hwrites.frame, hwrites.trigger, hwrites.modeToggle, hwrites.scaleToggle, hwrites.rangeToggle⟩

/-! ## Edges (O13) -/

/-- R273: a powered engine with the two levels of a pin changed, before the edge. -/
def State.driven (s : State) (p : Pin) (level : BitVec 2) (v : PinSetting) : State :=
  { s.noted (encode (.pin p level)) with pinDrive := s.pinDrive.put v, pinLevel := s.pinLevel.put v }

/-- R111, R119: the edge runs the operation of its handler as an outermost one, or nothing. -/
theorem next_runEdge {s : State} (hpow : s.powered = true) (p : Pin) (old new : BitVec 2) :
    .next (runEdge p old new s) =
      ((edgeHandler s.edgeEn p old new).map Prod.fst).elim (.next s) (exec · s) := by
  rcases runEdge_cases p old new s with ⟨i, body, hedge, he⟩ | ⟨hedge, he⟩ <;> rw [he, hedge]
  · obtain ⟨hi, rfl⟩ := edgeHandler_eq_some hedge
    have hagent : i.agent = .int := by
      simp only [List.mem_cons, List.not_mem_nil, or_false] at hi
      rcases hi with rfl | rfl | rfl | rfl | rfl <;> rfl
    have hexec : exec i s = .next (engineEffect i (s.record i)) := by
      rw [exec_of_int hagent]
      exact engineOp_eq_next.2 ⟨hpow, rfl⟩
    exact hexec.symm
  · rfl

/-- R273: a `PIN` of a powered engine changes the two levels, and then runs the handler of the edge it makes, if there
is one. -/
theorem exec_pin_of_powered {s : State} {p : Pin} {level : BitVec 2} {v : PinSetting} (hpow : s.powered = true)
    (hv : pinSetting? p level = some v) :
    exec (.pin p level) s =
      ((edgeHandler s.edgeEn p (s.pinRead p) level).map Prod.fst).elim (.next (s.driven p level v))
        (exec · (s.driven p level v)) := by
  have hdrive : exec (.pin p level) s = .next (runEdge p (s.pinRead p) level (s.driven p level v)) := by
    refine execPin_eq_next.2 ⟨v, hv, ?_⟩
    rw [drivePin, if_pos hpow, record_of_powered _ _ hpow]
    rfl
  rw [hdrive, next_runEdge (by exact hpow)]
  rfl

/-- Settles O13: one case for each pin. -/
theorem pinEdges : Obligations.PinEdges := by
  intro s t p level v hpow hv ht
  obtain rfl : t = s.driven p level v := ht
  rw [exec_pin_of_powered hpow hv]
  cases p with
  | trigBtn | modeBtn | extTrig | extMode =>
    simp only [edgeHandler, reduceCtorEq, false_and, true_and, if_false]
    split_ifs <;> rfl
  | extClkEn | potModeSw | qmodeSel => rfl

/-! ## A debounced press (O25) -/

/-- An engine in external-clock mode with the trigger button at a level, and with `pot_mode` as given: what the
re-check reads (R113), and what no callback changes. -/
structure ButtonAt (level toRange : Bool) (s : State) : Prop where
  inv : MoveInv s
  external : s.externalTrigger = true
  button : s.pinLevel.trigBtn = level
  selects : s.potMode = toRange

/-- The re-check is armed, and neither flag is set. -/
structure AwaitsRecheck (level toRange : Bool) (deadline : Nat) (s : State) : Prop
    extends ButtonAt level toRange s where
  armed : s.alarm.debounce = some deadline
  noTrigger : s.triggerPending = false
  noToggle : s.rangeTogglePending = false

/-- The re-check has run: a button that was high has set the flag that `pot_mode` selects. -/
structure Rechecked (level toRange : Bool) (s : State) : Prop extends ButtonAt level toRange s where
  disarmed : s.alarm.debounce = none
  trigger : s.triggerPending = (level && !toRange)
  toggle : s.rangeTogglePending = (level && toRange)

section

variable {level toRange : Bool} {deadline target : Nat} {s t : State} {c : Armed}

/-- R148: in external-clock mode no beat is due, so a callback is the re-check, or one that has nothing to do with the
button. -/
theorem ButtonAt.due_cases (h : ButtonAt level toRange s) (hdue : s.due target = some c) :
    (c.1 = .debounce ∧ s.alarm.debounce = some c.2) ∨ c.1 = .trigOff ∨ c.1 = .tempo := by
  have harmed := deadline_of_next (due_eq_some.1 hdue).1
  obtain ⟨ev, d⟩ := c
  cases ev with
  | beat p =>
    obtain ⟨b, hb, -⟩ := Option.map_eq_some_iff.1 harmed
    have hchain := h.inv.chain
    rw [hb, h.external] at hchain
    cases hchain
  | debounce => exact .inl ⟨rfl, harmed⟩
  | trigOff => exact .inr (.inl rfl)
  | tempo => exact .inr (.inr rfl)

theorem ButtonAt.fire (h : ButtonAt level toRange s) (hdue : s.due target = some c) :
    ButtonAt level toRange (s.fire c) := by
  refine ⟨h.inv.fire (due_eq_some.1 hdue).1, ?_, ?_, ?_⟩ <;> rw [fire_frame]
  · exact h.external
  · exact h.button
  · exact h.selects

theorem AwaitsRecheck.fire_other (h : AwaitsRecheck level toRange deadline s) (hdue : s.due target = some c)
    (hc : c.1 = .trigOff ∨ c.1 = .tempo) : AwaitsRecheck level toRange deadline (s.fire c) where
  toButtonAt := h.toButtonAt.fire hdue
  armed := (fire_debounce_slot hc).trans h.armed
  noTrigger := (fire_flags hc).1.trans h.noTrigger
  noToggle := (fire_flags hc).2.trans h.noToggle

theorem Rechecked.fire (h : Rechecked level toRange s) (hdue : s.due target = some c) :
    Rechecked level toRange (s.fire c) := by
  rcases h.due_cases hdue with ⟨-, harmed⟩ | hc
  · cases h.disarmed.symm.trans harmed
  · exact {
      toButtonAt := h.toButtonAt.fire hdue
      disarmed := (fire_debounce_slot hc).trans h.disarmed
      trigger := (fire_flags hc).1.trans h.trigger
      toggle := (fire_flags hc).2.trans h.toggle }

/-- R113: the re-check judges the level it finds. -/
theorem AwaitsRecheck.fire_debounce (h : AwaitsRecheck level toRange deadline s) (hdue : s.due target = some c)
    (hc : c.1 = .debounce) : Rechecked level toRange (s.fire c) := by
  have hat := h.toButtonAt.fire hdue
  obtain ⟨ev, d⟩ := c
  cases hc
  refine ⟨hat, by rw [fire_debounce_alarm], ?_, ?_⟩ <;>
    rw [fire_of_powered h.inv.powered, ← h.button, ← h.selects] <;> simp only [Event.handler, tbRecheck_eq]
  · exact (congrArg (· || _) h.noTrigger).trans (Bool.false_or _)
  · exact (congrArg (· || _) h.noToggle).trans (Bool.false_or _)

/-- Before its deadline the re-check does not run. -/
theorem AwaitsRecheck.runDue_before {fuel : Nat} (h : AwaitsRecheck level toRange deadline s)
    (hlt : target < deadline) (hrun : runDue target fuel s = some t) : AwaitsRecheck level toRange deadline t := by
  refine runDue_keeps (P := AwaitsRecheck level toRange deadline) (fun u c hu hdue => ?_) hrun h
  rcases hu.due_cases hdue with ⟨-, harmed⟩ | hc
  · have hdeadline : deadline = c.2 := Option.some.inj (hu.armed.symm.trans harmed)
    have := (due_eq_some.1 hdue).2
    omega
  · exact hu.fire_other hdue hc

/-- By its deadline the re-check has run. -/
theorem AwaitsRecheck.runDue_after {fuel : Nat} (h : AwaitsRecheck level toRange deadline s)
    (hle : deadline ≤ target) (hrun : runDue target fuel s = some t) : Rechecked level toRange t := by
  have heither : AwaitsRecheck level toRange deadline t ∨ Rechecked level toRange t := by
    refine runDue_keeps (P := fun u => AwaitsRecheck level toRange deadline u ∨ Rechecked level toRange u)
      (fun u c hu hdue => ?_) hrun (.inl h)
    rcases hu with hu | hu
    · rcases hu.due_cases hdue with ⟨hc, -⟩ | hc
      · exact .inr (hu.fire_debounce hdue hc)
      · exact .inl (hu.fire_other hdue hc)
    · exact .inr (hu.fire hdue)
  rcases heither with ht | ht
  · exact absurd (runDue_done hrun) (due_ne_none_of_deadline (slot := .debounce) ht.armed hle)
  · exact ht

theorem ButtonAt.record (h : ButtonAt level toRange s) (i : Instr) : ButtonAt level toRange (s.record i) :=
  ⟨h.inv.record i, by simpa using h.external, by simpa using h.button, by simpa using h.selects⟩

theorem AwaitsRecheck.record (h : AwaitsRecheck level toRange deadline s) (i : Instr) :
    AwaitsRecheck level toRange deadline (s.record i) :=
  ⟨h.toButtonAt.record i, by simpa using h.armed, by simpa using h.noTrigger, by simpa using h.noToggle⟩

theorem ButtonAt.setClock (h : ButtonAt level toRange s) {n : Nat} (hn : s.nowUs ≤ n) :
    ButtonAt level toRange { s with nowUs := n } :=
  { h with inv := h.inv.setClock hn }

/-- R272: an `ADV` that ends before the deadline leaves the re-check to come. -/
theorem AwaitsRecheck.exec_adv_before {d : BitVec 24} (h : AwaitsRecheck level toRange deadline s)
    (hlt : s.nowUs + d.toNat < deadline) :
    ∃ u, exec (.adv d) s = .next u ∧ u.nowUs = s.nowUs + d.toNat ∧ AwaitsRecheck level toRange deadline u := by
  have hrec := h.record (.adv d)
  obtain ⟨u, hrun, hexec⟩ := exists_exec_adv d h.inv.powered h.inv.chainLive
  have hu := hrec.runDue_before hlt hrun
  have hnow := (hrec.inv.runDue (by simp) hrun).2
  exact ⟨_, hexec, rfl, { hu with toButtonAt := hu.toButtonAt.setClock hnow }⟩

/-- R272: by the end of an `ADV` that reaches the deadline the re-check has run. -/
theorem AwaitsRecheck.exec_adv_after {d : BitVec 24} (h : AwaitsRecheck level toRange deadline s)
    (hle : deadline ≤ s.nowUs + d.toNat) :
    ∃ u, exec (.adv d) s = .next u ∧ u.nowUs = s.nowUs + d.toNat ∧ Rechecked level toRange u := by
  have hrec := h.record (.adv d)
  obtain ⟨u, hrun, hexec⟩ := exists_exec_adv d h.inv.powered h.inv.chainLive
  have hu := hrec.runDue_after hle hrun
  have hnow := (hrec.inv.runDue (by simp) hrun).2
  exact ⟨_, hexec, rfl, { hu with toButtonAt := hu.toButtonAt.setClock hnow }⟩

/-- R111, R112: the button rises, and the re-check is armed 20 ms later. -/
theorem exec_press (h : ButtonAt false toRange s) (hen : s.edgeEn.tbR = true) (htrigger : s.triggerPending = false)
    (htoggle : s.rangeTogglePending = false) :
    ∃ t, exec (.pin .trigBtn 1) s = .next t ∧ t.nowUs = s.nowUs ∧ AwaitsRecheck true toRange (s.nowUs + 20000) t := by
  have hedge : edgeHandler s.edgeEn .trigBtn (s.pinRead .trigBtn) 1 = some (.tbRise, tbRise) := by
    simp [edgeHandler, State.pinRead, PinLevels.level, h.button, hen]
  have hexec : exec (.pin .trigBtn 1) s = exec .tbRise (s.driven .trigBtn 1 (.trigBtn true)) := by
    rw [exec_pin_of_powered h.inv.powered rfl, hedge]
    rfl
  rw [(triggerButton (s.driven _ _ _) h.inv.powered h.inv.configWf).1] at hexec
  exact ⟨_, hexec, rfl, {
    inv := h.inv.exec rfl (by simp) hexec, external := h.external, button := rfl, selects := h.selects
    armed := rfl, noTrigger := htrigger, noToggle := htoggle }⟩

/-- R111: the fall of the button has no handler. -/
theorem AwaitsRecheck.exec_release (h : AwaitsRecheck level toRange deadline s) :
    ∃ t, exec (.pin .trigBtn 0) s = .next t ∧ t.nowUs = s.nowUs ∧ AwaitsRecheck false toRange deadline t := by
  have hedge : edgeHandler s.edgeEn .trigBtn (s.pinRead .trigBtn) 0 = none := by simp [edgeHandler]
  have hexec : exec (.pin .trigBtn 0) s = .next (s.driven .trigBtn 0 (.trigBtn false)) := by
    rw [exec_pin_of_powered h.inv.powered rfl, hedge]
    rfl
  exact ⟨_, hexec, rfl, {
    inv := h.inv.exec rfl (by simp) hexec, external := h.external, button := rfl, selects := h.selects
    armed := h.armed, noTrigger := h.noTrigger, noToggle := h.noToggle }⟩

/-- R35, R113: once the re-check has run, the edge is enabled again. -/
theorem Rechecked.enabled (h : Rechecked level toRange s) : s.edgeEn.tbR = true := by
  rw [h.inv.debounce, h.disarmed]
  rfl

end

/-- Settles O25: the press arms the re-check, which an `ADV` to its deadline runs, on the level it then finds. -/
theorem debouncedPress : Obligations.DebouncedPress := by
  intro s d hpow hcfg hinv hext hen hlow htrigger htoggle hd
  have hrest : (20000 - d).toNat = 20000 - d.toNat := by bv_omega
  have hs : ButtonAt false s.potMode s := ⟨hinv.moveInv hcfg hpow, hext, hlow, rfl⟩
  obtain ⟨t, ht, htnow, htwait⟩ := exec_press hs hen htrigger htoggle
  obtain ⟨u, hu, hunow, huwait⟩ := htwait.exec_adv_before (d := d) (by omega)
  obtain ⟨v, hv, hvnow, hvdone⟩ := huwait.exec_adv_after (d := 20000 - d) (by omega)
  obtain ⟨w, hw, hwnow, hwwait⟩ := huwait.exec_release
  obtain ⟨x, hx, -, hxdone⟩ := hwwait.exec_adv_after (d := 20000 - d) (by omega)
  exact ⟨t, u, v, w, x, ht, hu, huwait.noTrigger, huwait.noToggle, hv, by omega, hvdone.trigger, hvdone.toggle,
    hvdone.enabled, hw, hx, hxdone.trigger, hxdone.toggle, hxdone.enabled⟩

end Sys2Proof.Machine

/-! # Proofs: the tempo clock (O26 to O29)

First the operations of class 2 by themselves (O26 to O28), then what the callbacks write of the beat, then the course
of the beat chain while the potentiometer is steady (O29). -/

namespace Sys2Proof.Machine

/-! ## The operations of class 2 (O26 to O28) -/

/-- R141: the next beat is armed in internal-clock mode only. -/
theorem clkTrig_eq (s : State) :
    clkTrig s = { s with
      triggerPending := true, statusLed := true
      alarm := { s.alarm with
        beat :=
          if s.externalTrigger then s.alarm.beat
          else some ⟨.anticipate, s.nowUs + 1000 * s.tempoDelayMs.toNat⟩ } } := by
  by_cases hext : s.externalTrigger = true
  · rw [clkTrig_external hext, if_pos hext]
  · rw [clkTrig_internal (by simpa using hext), if_neg hext]
    rfl

/-- Settles O26: each operation is recorded; of the four only the Trigger phase has two cases. -/
theorem beatClock : Obligations.BeatClock := by
  intro s hpow
  have htrig : exec .clkTrig s = .next (clkTrig (s.noted 0x20000000#32)) := engineOp_of_powered .clkTrig clkTrig s hpow
  exact ⟨htrig.trans (by rw [clkTrig_eq]), engineOp_of_powered .clkAnt clkAnt s hpow,
    engineOp_of_powered .clkReset clkReset s hpow, engineOp_of_powered .clkCancel clkCancel s hpow⟩

theorem analogIn_of_lt (s : State) {c : Nat} (h : c < 17) : s.analogIn c = s.ain[c] := by
  simp [State.analogIn, h]

/-- R146: the read selects its channel, and the hysteresis judges the value mapped. -/
theorem tempoRead_eq (s : State) :
    tempoRead s = { s with
      adcSel := .tempo, tempoDelayMs := hysteresis s.cfg s.tempoDelayMs (tempoMap s.cfg s.ain[16].toNat) } := by
  rw [← analogIn_of_lt s (by decide)]
  rfl

/-- R9: the constraint on `TEMPO_HYST_MS`. -/
theorem tempoHystMs_of_wf {c : Cfg} (h : c.wf = true) : c.tempoHystMs = 20 := by
  simp only [Cfg.wf, Bool.and_eq_true, decide_eq_true_eq, beq_iff_eq] at h
  omega

/-- R146: a value that fits the field replaces the old one exactly where it is more than 20 ms away. -/
theorem toNat_hysteresis {c : Cfg} (h : c.wf = true) (old : BitVec 16) {new : Nat} (hnew : new < 65536) :
    (hysteresis c old new).toNat =
      if old.toNat + 20 < new ∨ new + 20 < old.toNat then new else old.toNat := by
  have hfar : 20 < distance new old.toNat ↔ old.toNat + 20 < new ∨ new + 20 < old.toNat := by unfold distance; omega
  rw [hysteresis, tempoHystMs_of_wf h]
  simp only [hfar]
  split_ifs
  · rw [BitVec.toNat_ofNat, Nat.mod_eq_of_lt hnew]
  · rfl

/-- R146: a value no more than 20 ms away is not taken. -/
theorem hysteresis_of_near {c : Cfg} (h : c.wf = true) {old : BitVec 16} {new : Nat}
    (hnear : distance new old.toNat ≤ 20) : hysteresis c old new = old := by
  rw [hysteresis, tempoHystMs_of_wf h, if_neg (by omega)]

/-- R145, with `ADC_MAX` at the value R9 gives it. -/
theorem tempoMap_eq {c : Cfg} (h : c.Bounds) (code : Nat) :
    tempoMap c code = (c.slowMs - code * (c.slowMs - c.fastMs) / 4095) / 2 := by
  rw [tempoMap, h.adcMax]

/-- Settles O27: `tempoRead_eq` has the frame, `toNat_hysteresis` the value. -/
theorem tempoReadHysteresis : Obligations.TempoReadHysteresis := by
  intro s hpow hcfg
  have hb := Cfg.bounds_of_wf hcfg
  have hcode : s.ain[16].toNat ≤ 4095 := by have := s.ain[16].isLt; omega
  have hfits : tempoMap s.cfg s.ain[16].toNat < 65536 := by
    have := (tempoMap_mem hb hcode).2
    have := hb.slowMs
    omega
  have hread : exec .tempoRead s = .next (tempoRead (s.noted 0x24000000#32)) :=
    engineOp_of_powered .tempoRead tempoRead s hpow
  refine ⟨_, hread, ?_, ?_⟩ <;> rw [tempoRead_eq]
  rw [← tempoMap_eq hb]
  exact toNat_hysteresis hcfg _ hfits

/-- R145: a higher code is not slower. -/
theorem tempoMap_antitone (c : Cfg) : Antitone (tempoMap c) := fun _ _ hle =>
  Nat.div_le_div_right (Nat.sub_le_sub_left (Nat.div_le_div_right (Nat.mul_le_mul_right _ hle)) _)

/-- Settles O28: the bounds are `tempoMap_mem`, the order `tempoMap_antitone`, the ends the formula at its two ends. -/
theorem tempoMapProperties : Obligations.TempoMapProperties := by
  intro s hcfg
  have hb := Cfg.bounds_of_wf hcfg
  refine ⟨fun code => ⟨_, rfl, ?_⟩, ?_, ?_, fun _ _ hab _ => tempoMap_antitone s.cfg hab,
    fun _ ha => tempoMap_mem hb ha⟩
  · rw [← tempoMap_eq hb]
    rfl
  · simp [tempoMap]
  · rw [tempoMap_eq hb, Nat.mul_div_cancel_left _ (by decide), Nat.sub_sub_self hb.fastSlow]

/-! ## What the callbacks write of the beat (R141, R142) -/

/-- R39: a callback is recorded at the time it runs. -/
theorem fire_optrace {s : State} (hpow : s.powered = true) (c : Armed) :
    (s.fire c).optrace = s.optrace ++ [(max s.nowUs c.2, encode c.1.handlerOp)] := by
  obtain ⟨ev, d⟩ := c
  rw [fire_of_powered hpow, enterCallback_nowUs]
  cases ev with
  | beat p =>
    cases p with
    | trigger => simp only [Event.handler, clkTrig_eq]; rfl
    | anticipate => rfl
  | debounce => simp only [Event.handler, tbRecheck_eq]; rfl
  | trigOff => rfl
  | tempo => rfl

/-- R141, R142: the indicator is on after the Trigger phase and off after the Anticipate phase. -/
theorem fire_beat_statusLed {s : State} (hpow : s.powered = true) (p : Phase) (d : Nat) :
    (s.fire (.beat p, d)).statusLed = decide (p = .trigger) := by
  rw [fire_of_powered hpow]
  cases p with
  | trigger => simp only [Event.handler, clkTrig_eq]; rfl
  | anticipate => rfl

/-- R141: the Trigger phase sets the flag. -/
theorem fire_trigger_triggerPending {s : State} (hpow : s.powered = true) (d : Nat) :
    (s.fire (.beat .trigger, d)).triggerPending = true := by
  rw [fire_of_powered hpow]
  simp only [Event.handler, clkTrig_eq]

section

variable {s : State} {c : Armed}

/-- Only a beat writes the indicator. -/
theorem fire_statusLed_other (hpow : s.powered = true) (h : c.1.slot ≠ .beat) : (s.fire c).statusLed = s.statusLed := by
  obtain ⟨ev, d⟩ := c
  rw [fire_of_powered hpow]
  cases ev with
  | beat p => exact absurd rfl h
  | debounce => simp only [Event.handler, tbRecheck_eq]; rfl
  | trigOff => rfl
  | tempo => rfl

/-- R29: a callback other than a beat at most sets the flag. -/
theorem fire_triggerPending_other (hpow : s.powered = true) (h : c.1.slot ≠ .beat) (hset : s.triggerPending = true) :
    (s.fire c).triggerPending = true := by
  obtain ⟨ev, d⟩ := c
  rw [fire_of_powered hpow]
  cases ev with
  | beat p => exact absurd rfl h
  | debounce => simp only [Event.handler, tbRecheck_eq]; exact (congrArg (· || _) hset).trans (Bool.true_or _)
  | trigOff => exact hset
  | tempo => exact hset

/-- R36: only a beat moves the beat slot. -/
theorem fire_beat_slot_other (h : c.1.slot ≠ .beat) : (s.fire c).alarm.beat = s.alarm.beat := by
  obtain ⟨ev, d⟩ := c
  cases ev with
  | beat p => exact absurd rfl h
  | debounce => rw [fire_debounce_alarm]
  | trigOff => rw [fire_trigOff_alarm]
  | tempo => rw [fire_tempo_alarm]

/-- Of the callbacks, the next one is the beat that is armed, or it is of another slot and no later than that beat. -/
theorem beat_or_other_of_next {b : BeatAlarm} (harmed : s.alarm.beat = some b) (hnext : s.alarm.next = some c) :
    c = (.beat b.phase, b.deadline) ∨ c.1.slot ≠ .beat ∧ c.2 ≤ b.deadline := by
  rw [Alarms.next, harmed, Option.map_some] at hnext
  rcases Armed.first_eq_some hnext with ⟨hbeat, -⟩ | ⟨hother, hbefore⟩
  · exact .inl (Option.some.inj hbeat).symm
  · refine .inr ⟨?_, (hbefore _ rfl).le⟩
    rcases Armed.first_eq_some hother with ⟨hslot, -⟩ | ⟨hother, -⟩
    · obtain ⟨d, -, rfl⟩ := Option.map_eq_some_iff.1 hslot
      exact nofun
    rcases Armed.first_eq_some hother with ⟨hslot, -⟩ | ⟨hslot, -⟩ <;>
      obtain ⟨d, -, rfl⟩ := Option.map_eq_some_iff.1 hslot <;> exact nofun

end

/-! ## The beat chain with a steady potentiometer (O29)

Of the beats since a Trigger phase at `t0`, the `n`-th runs `n` half-periods after it.  `BeatsRun t0 half n` says that
`n` of them have run and the next one is armed; each firing keeps it, for the same `n` or the next. -/

/-- The phase of the `n`-th beat after a Trigger phase. -/
def phaseAt : Nat → Phase
  | 0 => .trigger
  | n + 1 => if phaseAt n = .trigger then .anticipate else .trigger

theorem phaseAt_two_mul (n : Nat) : phaseAt (2 * n) = .trigger := by
  induction n with
  | zero => rfl
  | succ n ih => simp [Nat.mul_add, phaseAt, ih]

theorem phaseAt_two_mul_add_one (n : Nat) : phaseAt (2 * n + 1) = .anticipate := by
  simp [phaseAt, phaseAt_two_mul]

/-- The time of the `n`-th beat after a Trigger phase at `t0`. -/
def beatTime (t0 : Nat) (half : BitVec 16) (n : Nat) : Nat := t0 + 1000 * n * half.toNat

theorem beatTime_succ (t0 : Nat) (half : BitVec 16) (n : Nat) :
    beatTime t0 half (n + 1) = beatTime t0 half n + 1000 * half.toNat := by
  unfold beatTime
  ring

theorem beatTime_strictMono {t0 : Nat} {half : BitVec 16} (h : 1 ≤ half.toNat) : StrictMono (beatTime t0 half) :=
  strictMono_nat_of_lt_succ fun n => by rw [beatTime_succ]; omega

/-- An engine on its internal clock whose potentiometer leaves the half-period as it is (R146). -/
structure SteadyTempo (half : BitVec 16) (s : State) : Prop where
  powered : s.powered = true
  configWf : s.cfg.wf = true
  internal : s.externalTrigger = false
  half_eq : s.tempoDelayMs = half
  steady : distance (tempoMap s.cfg s.ain[16].toNat) half.toNat ≤ 20

/-- What a beat of phase `p` at time `d` has left. -/
structure AfterBeat (p : Phase) (d : Nat) (s : State) : Prop where
  recorded : (d, encode (Event.beat p).handlerOp) ∈ s.optrace
  indicator : s.statusLed = decide (p = .trigger)
  pending : p = .trigger → s.triggerPending = true

/-- Since a Trigger phase at `t0`, `n` beats have run, and the next one is armed. -/
structure BeatsRun (t0 : Nat) (half : BitVec 16) (n : Nat) (s : State) : Prop extends SteadyTempo half s where
  armed : s.alarm.beat = some ⟨phaseAt (n + 1), beatTime t0 half (n + 1)⟩
  notPast : s.nowUs ≤ beatTime t0 half (n + 1)
  last : n ≠ 0 → AfterBeat (phaseAt n) (beatTime t0 half n) s

section

variable {t0 n m target fuel d : Nat} {half : BitVec 16} {p : Phase} {s t : State} {c : Armed}

/-- R146: no callback changes a steady half-period. -/
theorem SteadyTempo.fire (h : SteadyTempo half s) (c : Armed) : SteadyTempo half (s.fire c) := by
  have hain : (s.fire c).ain = s.ain := by rw [fire_frame]
  have hhalf : (s.fire c).tempoDelayMs = s.tempoDelayMs := by
    rw [fire_tempoDelayMs, analogIn_of_lt s (by decide),
      hysteresis_of_near h.configWf (by rw [h.half_eq]; exact h.steady), ite_self]
  exact {
    powered := by rw [fire_powered, h.powered]
    configWf := by rw [fire_cfg, h.configWf]
    internal := by rw [fire_frame]; exact h.internal
    half_eq := hhalf.trans h.half_eq
    steady := by simpa only [fire_cfg, hain] using h.steady }

theorem AfterBeat.of_fire (hpow : s.powered = true) (hd : s.nowUs ≤ d) : AfterBeat p d (s.fire (.beat p, d)) where
  recorded := by simp [fire_optrace hpow, hd]
  indicator := fire_beat_statusLed hpow p d
  pending := by rintro rfl; exact fire_trigger_triggerPending hpow d

theorem AfterBeat.fire_other (h : AfterBeat p d s) (hpow : s.powered = true) (hc : c.1.slot ≠ .beat) :
    AfterBeat p d (s.fire c) where
  recorded := by rw [fire_optrace hpow]; exact List.mem_append_left _ h.recorded
  indicator := (fire_statusLed_other hpow hc).trans h.indicator
  pending hp := fire_triggerPending_other hpow hc (h.pending hp)

/-- R141, R142: the beat that is armed runs at its deadline, and arms the one after it. -/
theorem BeatsRun.fire_beat (h : BeatsRun t0 half n s) :
    BeatsRun t0 half (n + 1) (s.fire (.beat (phaseAt (n + 1)), beatTime t0 half (n + 1))) where
  toSteadyTempo := h.toSteadyTempo.fire _
  armed := by
    rw [fire_beat_alarm, max_eq_right h.notPast, h.internal, h.half_eq, ← beatTime_succ]
    simp [phaseAt]
  notPast := by
    rw [fire_nowUs, max_eq_right h.notPast, beatTime_succ t0 half (n + 1)]
    exact Nat.le_add_right _ _
  last _ := .of_fire h.powered h.notPast

theorem BeatsRun.fire_other (h : BeatsRun t0 half n s) (hc : c.1.slot ≠ .beat) (hle : c.2 ≤ beatTime t0 half (n + 1)) :
    BeatsRun t0 half n (s.fire c) where
  toSteadyTempo := h.toSteadyTempo.fire c
  armed := (fire_beat_slot_other hc).trans h.armed
  notPast := by rw [fire_nowUs]; exact max_le h.notPast hle
  last hn := (h.last hn).fire_other h.powered hc

/-- Firing what is due up to the time of the `m`-th beat runs the beats up to the `m`-th, and no more. -/
theorem BeatsRun.runDue (h : BeatsRun t0 half n s) (hhalf : 1 ≤ half.toNat) (hnm : n ≤ m)
    (hrun : runDue (beatTime t0 half m) fuel s = some t) : BeatsRun t0 half m t := by
  have hmono := beatTime_strictMono (t0 := t0) hhalf
  have hruns : ∃ k ≤ m, BeatsRun t0 half k t := by
    refine runDue_keeps (P := fun u => ∃ k ≤ m, BeatsRun t0 half k u) ?_ hrun ⟨n, hnm, h⟩
    rintro u c ⟨k, hk, hu⟩ hdue
    obtain ⟨hnext, hle⟩ := due_eq_some.1 hdue
    rcases beat_or_other_of_next hu.armed hnext with rfl | ⟨hc, hbefore⟩
    · exact ⟨k + 1, hmono.le_iff_le.1 hle, hu.fire_beat⟩
    · exact ⟨k, hk, hu.fire_other hc hbefore⟩
  obtain ⟨k, hk, ht⟩ := hruns
  have hdeadline : t.alarm.deadline .beat = some (beatTime t0 half (k + 1)) := by simp [Alarms.deadline, ht.armed]
  have hnotDue : ¬ beatTime t0 half (k + 1) ≤ beatTime t0 half m :=
    fun hle => due_ne_none_of_deadline hdeadline hle (runDue_done hrun)
  obtain rfl : k = m := by have := mt hmono.le_iff_le.2 hnotDue; omega
  exact ht

/-- R272: when time has passed up to the `m`-th beat, that beat has run. -/
theorem BeatsRun.exists_advanceTo (h : BeatsRun t0 half n s) (hhalf : 1 ≤ half.toNat) (hnm : n ≤ m) :
    ∃ t, advanceTo (beatTime t0 half m) s = .next t ∧ t.nowUs = beatTime t0 half m ∧ BeatsRun t0 half m t := by
  obtain ⟨u, hrun⟩ := exists_runDue ⟨h.configWf, h.half_eq ▸ hhalf⟩ (beatTime t0 half m)
  have hu := h.runDue hhalf hnm hrun
  exact ⟨_, advanceTo_eq_next.2 ⟨u, hrun, rfl⟩, rfl,
    { hu with notPast := (beatTime_strictMono hhalf).monotone m.le_succ, last := fun hm => { hu.last hm with } }⟩

end

/-- Settles O29: the `2 * (k + 1)`-th beat is a Trigger phase, the one after it an Anticipate phase. -/
theorem beatPeriod : Obligations.BeatPeriod := by
  intro s k hpow hlive _ hint harmed hsteady
  obtain ⟨hcfg, hhalf⟩ := hlive
  have hs : BeatsRun s.nowUs s.tempoDelayMs 0 s := {
    powered := hpow, configWf := hcfg, internal := hint, half_eq := rfl, steady := hsteady
    armed := by simpa [phaseAt, beatTime] using harmed
    notPast := by simp [beatTime]
    last := fun h => absurd rfl h }
  obtain ⟨t, hadv, htnow, ht⟩ := hs.exists_advanceTo hhalf (Nat.zero_le (2 * (k + 1)))
  obtain ⟨u, hadv', -, hu⟩ := ht.exists_advanceTo hhalf (Nat.le_succ _)
  have htrigger := phaseAt_two_mul (k + 1)
  have hanticipate := phaseAt_two_mul_add_one (k + 1)
  have htlast := ht.last (by omega)
  have hulast := hu.last (by omega)
  have hnext : t.nowUs + 1000 * s.tempoDelayMs.toNat = beatTime s.nowUs s.tempoDelayMs (2 * (k + 1) + 1) := by
    rw [htnow, beatTime_succ]
  have hafter : t.nowUs + 2000 * s.tempoDelayMs.toNat = beatTime s.nowUs s.tempoDelayMs (2 * (k + 1) + 1 + 1) := by
    rw [beatTime_succ, ← hnext]
    ring
  have htime : s.nowUs + 2000 * (k + 1) * s.tempoDelayMs.toNat = beatTime s.nowUs s.tempoDelayMs (2 * (k + 1)) := by
    unfold beatTime
    ring
  rw [htrigger] at htlast
  rw [hanticipate] at hulast
  refine ⟨t, u, ?_⟩
  rw [hnext, hafter, htime]
  exact ⟨hadv, htlast.recorded, htlast.indicator, htlast.pending rfl, ht.half_eq, hanticipate ▸ ht.armed,
    hadv', hulast.recorded, hulast.indicator, by rw [hu.armed, phaseAt, hanticipate]; rfl⟩

end Sys2Proof.Machine

/-! # Proofs: the settle wait (O31)

The frame of the callbacks, which firing and the passage of time keep, and then the wait of `MUX.SETTLE`. -/

namespace Sys2Proof.Machine

/-! ## What the callbacks on the way leave unchanged (R299) -/

/-- `t` is `s` but for the fields that callbacks write; of the edge enables that is the trigger button's (R113). -/
def CallbackFrame (s t : State) : Prop :=
  t = { s with
    triggerPending := t.triggerPending, rangeTogglePending := t.rangeTogglePending
    tempoDelayMs := t.tempoDelayMs, nowUs := t.nowUs, edgeEn := { s.edgeEn with tbR := t.edgeEn.tbR }
    alarm := t.alarm, adcSel := t.adcSel, trigOut := t.trigOut, statusLed := t.statusLed
    optrace := t.optrace }

/-- R113: of the edge enables a callback writes only the trigger button's. -/
theorem fire_edgeEn (s : State) (c : Armed) :
    (s.fire c).edgeEn = { s.edgeEn with tbR := (s.fire c).edgeEn.tbR } := by
  obtain ⟨ev, d⟩ := c
  cases ev with
  | beat p =>
    cases p with
    | trigger => simp [State.fire, perform, Event.handler, clkTrig_eq, State.enterCallback]
    | anticipate => simp [State.fire, perform, Event.handler, clkAnt, State.enterCallback]
  | debounce => simp [State.fire, perform, Event.handler, tbRecheck_eq, State.enterCallback]
  | trigOff => simp [State.fire, perform, Event.handler, trigOff, State.enterCallback]
  | tempo => simp [State.fire, perform, Event.handler, tempoRead_eq, State.enterCallback]

namespace CallbackFrame

variable {s t u : State}

theorem refl (s : State) : CallbackFrame s s := rfl

theorem trans (hst : CallbackFrame s t) (htu : CallbackFrame t u) : CallbackFrame s u := by
  unfold CallbackFrame at hst
  refine Eq.trans htu ?_
  rw [hst]

theorem fire (s : State) (c : Armed) : CallbackFrame s (s.fire c) := by
  unfold CallbackFrame
  rw [← fire_edgeEn]
  exact fire_frame s c

theorem runDue {target fuel : Nat} (h : runDue target fuel s = some t) : CallbackFrame s t :=
  runDue_keeps (P := CallbackFrame s) (fun u c hu _ => hu.trans (fire u c)) h (refl s)

theorem advanceTo {target : Nat} (h : advanceTo target s = .next t) : CallbackFrame s t := by
  obtain ⟨u, hrun, rfl⟩ := advanceTo_eq_next.1 h
  exact (runDue hrun).trans rfl

theorem powered_eq (h : CallbackFrame s t) : t.powered = s.powered := by rw [h]

theorem cfg_eq (h : CallbackFrame s t) : t.cfg = s.cfg := by rw [h]

theorem muxSetTime_eq (h : CallbackFrame s t) : t.muxSetTime = s.muxSetTime := by rw [h]

/-- R171: the address stands as long as no `MUX.SET` is performed, so at the end of the wait it has settled. -/
theorem settled (h : CallbackFrame s t) (hnow : t.nowUs = settleEnd s) : t.settled = true := by
  rw [State.settled, h.muxSetTime_eq, h.cfg_eq, hnow, decide_eq_true_eq]
  exact le_max_right _ _

end CallbackFrame

/-! ## The wait (R171, R275) -/

/-- R272: where the beat chain advances, time passes up to any target. -/
theorem exists_advanceTo {s : State} (hlive : ChainLive s) (target : Nat) :
    ∃ t, advanceTo target s = .next t ∧ t.nowUs = target := by
  obtain ⟨u, hrun⟩ := exists_runDue hlive target
  exact ⟨_, advanceTo_eq_next.2 ⟨u, hrun, rfl⟩, rfl⟩

/-- R171, R39: the wait lets time pass up to its end, and is then recorded. -/
theorem settleWait_of_advanceTo {s t : State} (hpow : t.powered = true) (h : advanceTo (settleEnd s) s = .next t) :
    settleWait s = .next (t.noted 0x31000000#32) := by
  rw [settleWait, h, andThen_next, record_of_powered t _ hpow]
  rfl

/-- Settles O31: `settleWait_of_settled` is the case without a wait; else the callbacks on the way have their frame,
and the operation is recorded where the clock then stands. -/
theorem muxSettleWaits : Obligations.MuxSettleWaits := by
  intro s hpow hlive
  refine ⟨fun hsettled hdue => ?_, ?_⟩
  · have hexec := execMuxSettle_eq_next.2 ⟨hpow, settleWait_of_settled s hsettled hdue⟩
    rwa [record_of_powered s _ hpow] at hexec
  · obtain ⟨t, hadv, hnow⟩ := exists_advanceTo hlive (settleEnd s)
    have hframe := CallbackFrame.advanceTo hadv
    have hwait := settleWait_of_advanceTo (hframe.powered_eq.trans hpow) hadv
    have hnoted : CallbackFrame s (t.noted 0x31000000#32) := hframe.trans rfl
    exact ⟨_, execMuxSettle_eq_next.2 ⟨hpow, hwait⟩, hnow, hnoted.settled hnow, List.getLast?_concat, hnoted⟩

end Sys2Proof.Machine

/-! # Proofs: the pipeline (O32 to O40)

First the micro-steps and the DAC frame by themselves (O32 to O39), then the rows of a `LOOP` that find nothing due, and
from them one whole run (O40). -/

namespace Sys2Proof.Machine

/-! ## The sample (O32, O33) -/

/-- R182, R66: once the lines have settled, the sample is the code of the selected source. -/
theorem stepS2_of_settled {s : State} (h : s.settled = true) :
    stepS2 s = { s with adcSel := .cv, sSample := (s.analogIn s.selectedSource).setWidth 16, seq := .s3 } := by
  rw [stepS2, adcRead_settled s h]

/-- Settles O32: `stepS1_eq` has the lines, `stepS2_of_settled` the settled read, `stepS2_eq` any read. -/
theorem stepSamples : Obligations.StepSamples := by
  intro s hpow
  have hsample : exec .stepS2 s = .next (stepS2 (s.noted 0x42000000#32)) := engineOp_of_powered .stepS2 stepS2 s hpow
  refine ⟨?_, fun c hsettled hc => ?_, fun _ => ?_⟩
  · have haddress : exec .stepS1 s = .next (stepS1 (s.noted 0x41000000#32)) :=
      engineOp_of_powered .stepS1 stepS1 s hpow
    rw [haddress, stepS1_eq]
    rfl
  · have hcode : s.analogIn s.selectedSource = s.ain[c.val] := by
      rw [State.selectedSource, ← hc]
      exact analogIn_of_lt s c.isLt
    rw [hsample, stepS2_of_settled (by exact decide_eq_true hsettled), ← hcode]
    rfl
  · obtain ⟨code, k, hread⟩ := stepS2_eq (s.noted 0x42000000#32)
    have hlt := code.isLt
    refine ⟨code.setWidth 16, k, ?_, by rw [hsample, hread]⟩
    rw [BitVec.toNat_setWidth]
    omega

/-- R240: the steps that a range spans, with `RANGE_OCT` at the values R9 gives it. -/
theorem targetSpan_eq {c : Cfg} (h : c.Bounds) (r : PotRange) :
    targetSpan c r = (match r with | .oct1 => 1 | .oct2 => 2 | .oct5 => 5) * c.spo := by
  rw [targetSpan, rangeOctaves, h.rangeOct]
  cases r <;> rfl

/-- R183, R240: the sample holds the rescaled code itself, which is a code again. -/
theorem toNat_rScale {c : Cfg} (h : c.Bounds) (r : PotRange) {x : Nat} (hx : x ≤ c.codeMax) :
    (BitVec.ofInt 16 (rScale c r x)).toNat =
      if c.mid ≤ x then c.mid + (x - c.mid) * targetSpan c r / 4096
      else c.mid - (c.mid - x) * targetSpan c r / 4096 := by
  obtain ⟨hlo, hhi⟩ := rScale_mem h r hx
  have hmax := h.codeMax
  rw [BitVec.toNat_ofInt, ← h.fullSpan]
  rcases rScale_cases c r x with ⟨hside, he⟩ | ⟨hside, he⟩
  · rw [if_pos hside]
    omega
  · rw [if_neg (by omega)]
    omega

/-- Settles O33: the sample is the rescaled code, which `toNat_rScale` gives on each side of the midpoint. -/
theorem stepRescales : Obligations.StepRescales := by
  intro s hpow hcfg hsample
  have hb := Cfg.bounds_of_wf hcfg
  have hexec : exec .stepS3 s = .next (stepS3 (s.noted 0x43000000#32)) := engineOp_of_powered .stepS3 stepS3 s hpow
  have hvalue := toNat_rScale hb s.potRange (hb.codeMax ▸ hsample)
  rw [targetSpan_eq hb] at hvalue
  refine ⟨fun hpot => ?_, fun hpot => ⟨_, ?_, fun hge => hvalue.trans (if_pos hge),
    fun hlt => hvalue.trans (if_neg (by omega))⟩⟩
  · rw [hexec, stepS3, if_neg (by simp [hpot])]
  · rw [hexec, stepS3, if_pos hpot]

/-! ## The store, the quantized word and the frame (O34 to O36, O39) -/

/-- R61: the index of a step is inside the memory. -/
theorem memoryIndex_lt_memLen {s : State} (hcfg : s.cfg.wf = true) : s.memoryIndex.toNat < s.cfg.memLen := by
  rw [(Cfg.bounds_of_wf hcfg).memLen]
  exact s.memoryIndex.isLt

/-- R184: the record step as one update. -/
theorem stepS4_eq {s : State} (hcfg : s.cfg.wf = true) :
    stepS4 s = { s with
      memory := if s.recording then s.memory.write s.memoryIndex.toNat s.sSample else s.memory
      outtrace := s.outtrace ++ if s.recording then [(s.nowUs, .flash)] else []
      seq := .s5 } := by
  rcases stepS4_cases s with ⟨hrec, he⟩ | ⟨hrec, he⟩ <;> rw [he]
  · simp [hrec]
  · rw [memWrite_inside _ _ _ (memoryIndex_lt_memLen hcfg)]
    simp [hrec, State.emit]

/-- Settles O34: `stepS4_eq` has the frame, the laws of the memory the words. -/
theorem stepRecords : Obligations.StepRecords := by
  intro s hpow hcfg hmem
  have hexec : exec .stepS4 s = .next (stepS4 (s.noted 0x44000000#32)) := engineOp_of_powered .stepS4 stepS4 s hpow
  rw [stepS4_eq (by exact hcfg)] at hexec
  refine ⟨fun hrec => ?_, fun hrec => ⟨s.memory.write s.memoryIndex.toNat s.sSample, ?_,
    Memory.write_wf _ _ _ s.memoryIndex.isLt hmem, Memory.read_write_same _ _ _ hmem,
    fun a ha => Memory.read_write_other _ _ _ _ hmem ha⟩⟩
  · simp [hexec, hrec]
  · simp [hexec, hrec]

/-- R13: a quotient rounded to nearest is no greater in magnitude than the dividend. -/
theorem natAbs_rdiv_le (n : Int) {d : Nat} (hd : 0 < d) : (rdiv n d).natAbs ≤ n.natAbs := by
  have hnonneg {m : Int} (hm : 0 ≤ m) : (rdiv m d).natAbs ≤ m.natAbs := by
    have hgrow : m ≤ m * d := le_mul_of_one_le_right hm (by omega)
    have hlt : fdiv (m + (d / 2 : Nat)) d < m + 1 :=
      Int.ediv_lt_of_lt_mul (by omega) (by rw [Int.add_mul]; omega)
    have hpos : 0 ≤ fdiv (m + (d / 2 : Nat)) d := Int.ediv_nonneg (by omega) (by omega)
    rw [rdiv_of_nonneg m d hm]
    omega
  rcases le_or_gt 0 n with hn | hn
  · exact hnonneg hn
  · have hneg := hnonneg (m := -n) (by omega)
    rwa [rdiv_neg n d hd, Int.natAbs_neg, Int.natAbs_neg] at hneg

/-- R214: a table moves a count by at most an octave. -/
theorem natAbs_snapSemis_le {t : ScaleTable} (h : t.wf = true) (semis : Int) :
    (snapSemis t semis).natAbs ≤ semis.natAbs + 12 := by
  have hentry : t.entry (noteOf semis) < 12 := by
    simp only [ScaleTable.wf, Bool.and_eq_true, List.all_eq_true, decide_eq_true_eq] at h
    obtain ⟨⟨⟨⟨⟨-, hall⟩, -⟩, -⟩, -⟩, -⟩ := h
    rw [ScaleTable.entry, List.getD_eq_getElem?_getD]
    cases hget : t[noteOf semis]? with
    | none => decide
    | some e => exact hall e (List.mem_of_getElem? hget)
  have hnote := noteOf_lt semis
  have hoctave := octave_note semis
  unfold snapSemis
  simp only
  split_ifs <;> omega

/-- R9: the constraint on `SPO`. -/
theorem spo_of_wf {c : Cfg} (h : c.wf = true) : 12 ≤ c.spo := by
  simp only [Cfg.wf, Bool.and_eq_true, decide_eq_true_eq] at h
  omega

/-- R10: every table of a well-formed configuration meets R221. -/
theorem scaleTable_wf {c : Cfg} (h : c.wf = true) {t : ScaleTable} (ht : t ∈ c.scaleTable) : t.wf = true := by
  simp only [Cfg.wf, Bool.and_eq_true, List.all_eq_true] at h
  obtain ⟨⟨⟨⟨-, htables⟩, -⟩, -⟩, -⟩ := h
  exact htables t ht

/-- R185: every quantized word, of whatever 16 bits, fits the 32 bits of the latch. -/
theorem quantize_bounds {c : Cfg} (hcfg : c.wf = true) {mode : QMode} {scale x : Nat} {q : Int} (hx : x < 65536)
    (hq : quantize c mode scale x = some q) : -2 ^ 31 ≤ q ∧ q < 2 ^ 31 := by
  have hb := Cfg.bounds_of_wf hcfg
  have hmid := hb.mid
  have hfive := hb.fiveOctaves
  have hcount : (qD2S c (deviation c x)).natAbs ≤ 70000 * 12 := by
    have hle := natAbs_rdiv_le (deviation c x * 12) (d := c.spo) (by have := spo_of_wf hcfg; omega)
    rw [qD2S]
    unfold deviation at hle ⊢
    omega
  have hvalue {k : Int} (hk : k.natAbs ≤ 70000 * 12 + 12) : (c.mid + qS2D c k).natAbs < 2 ^ 31 := by
    have hle := natAbs_rdiv_le (k * c.spo) (d := 12) (by decide)
    have hprod : k.natAbs * c.spo ≤ (70000 * 12 + 12) * 820 := Nat.mul_le_mul hk (by omega)
    rw [Int.natAbs_mul, Int.natAbs_natCast] at hle
    rw [qS2D]
    omega
  rcases quantize_cases c mode scale x with ⟨-, he⟩ | ⟨-, he⟩ | ⟨-, he⟩ <;> rw [he] at hq
  · cases hq
    omega
  · cases hq
    have := hvalue (k := qD2S c (deviation c x)) (by omega)
    rw [qChrom]
    omega
  · obtain ⟨t, ht, rfl⟩ := Option.map_eq_some_iff.1 hq
    have hsnap := natAbs_snapSemis_le (scaleTable_wf hcfg (List.mem_of_getElem? ht)) (qD2S c (deviation c x))
    have := hvalue (k := snapSemis t (qD2S c (deviation c x))) (by omega)
    rw [qSnap]
    omega

/-- R185: where the mode quantizes the word, the latch holds the result. -/
theorem toInt_quantizeOut {s : State} (hcfg : s.cfg.wf = true) {v : Sample} {q : Int}
    (hq : quantize s.cfg s.quantizeMode s.activeScale.toNat v.toNat = some q) : (quantizeOut s v).1.toInt = q := by
  obtain ⟨hlo, hhi⟩ := quantize_bounds hcfg v.isLt hq
  simp only [quantizeOut, hq]
  exact BitVec.toInt_ofInt_eq_self (by decide) hlo hhi

/-- R185: the step reads inside the memory, so it latches the quantized word and raises no fault. -/
theorem stepS5_eq_quantizeOut {s : State} (hcfg : s.cfg.wf = true) :
    stepS5 s = { (quantizeOut s (s.memory.read s.memoryIndex.toNat)).2 with
      sOut := (quantizeOut s (s.memory.read s.memoryIndex.toNat)).1, seq := .s6 } := by
  rw [stepS5, memRead_inside _ _ (memoryIndex_lt_memLen hcfg)]

/-- R185: the step latches what the quantizer answers for its word. -/
theorem stepS5_of_quantize {s : State} (hcfg : s.cfg.wf = true) {q : Int}
    (hq : quantize s.cfg s.quantizeMode s.activeScale.toNat (s.memory.read s.memoryIndex.toNat).toNat = some q) :
    stepS5 s = { s with sOut := BitVec.ofInt 32 q, seq := .s6 } := by
  rw [stepS5_eq_quantizeOut hcfg, quantizeOut, hq]

/-- Settles O35: `stepS5_eq_quantizeOut` has the frame, `toInt_quantizeOut` the value, which each mode gives. -/
theorem stepQuantizes : Obligations.StepQuantizes := by
  intro s hpow hcfg
  have hexec : exec .stepS5 s = .next (stepS5 (s.noted 0x45000000#32)) := engineOp_of_powered .stepS5 stepS5 s hpow
  rw [stepS5_eq_quantizeOut (by exact hcfg), quantizeOut_state] at hexec
  have hvalue {q : Int}
      (hq : quantize s.cfg s.quantizeMode s.activeScale.toNat (s.memory.read s.memoryIndex.toNat).toNat = some q) :=
    toInt_quantizeOut (s := s.noted 0x45000000#32) hcfg hq
  refine ⟨_, _, hexec, fun hmode => hvalue ?_, fun hmode => hvalue ?_, fun table hmode htable => hvalue ?_⟩
  all_goals rw [hmode, quantize]
  rw [htable, Option.map_some]

/-- Four zeros behind a field multiply it by 16. -/
theorem toNat_append_zeros {n : Nat} (x : BitVec n) : (x ++ 0#4).toNat = x.toNat * 16 := by
  rw [BitVec.toNat_append, BitVec.toNat_ofNat, Nat.zero_mod, Nat.or_zero, Nat.shiftLeft_eq]

/-- R87, R191: the second and the third byte of a frame are the bits 11 to 4 of the code, and the bits 3 to 0 before
four zeros. -/
theorem dacFrame_code (c : Cfg) (v : Code) :
    dacFrame c v.toNat = (c.dacCmd, v.extractLsb' 4 8, v.extractLsb' 0 4 ++ 0#4) := by
  have hv := v.isLt
  have hhigh : BitVec.ofNat 8 (v.toNat / 16) = v.extractLsb' 4 8 := by
    apply BitVec.eq_of_toNat_eq
    rw [BitVec.toNat_ofNat, BitVec.extractLsb'_toNat, Nat.shiftRight_eq_div_pow]
  have hlow : BitVec.ofNat 8 (v.toNat % 16 * 16) = v.extractLsb' 0 4 ++ 0#4 := by
    apply BitVec.eq_of_toNat_eq
    have hbits : (v.extractLsb' 0 4 ++ 0#4).toNat = v.toNat % 16 * 16 := by
      rw [toNat_append_zeros, BitVec.extractLsb'_toNat, Nat.shiftRight_zero]
    rw [BitVec.toNat_ofNat]
    refine Eq.trans ?_ hbits.symm
    omega
  rw [dacFrame, hhigh, hlow]

/-- R87: the second and the third byte together are the code before four zeros. -/
theorem frameBytes_append (v : Code) : v.extractLsb' 4 8 ++ (v.extractLsb' 0 4 ++ 0#4) = v ++ 0#4 := by
  have hcode : v.extractLsb' 4 8 ++ v.extractLsb' 0 4 = v := append_eq_iff.2 ⟨rfl, rfl⟩
  exact (BitVec.append_assoc (x₁ := v.extractLsb' 4 8)).symm.trans (congrArg (· ++ 0#4) hcode)

/-- R87: the bytes of a frame as numbers. -/
theorem toNat_dacFrame (c : Cfg) (v : Code) :
    (dacFrame c v.toNat).2.1.toNat = v.toNat / 16 ∧ (dacFrame c v.toNat).2.2.toNat = v.toNat % 16 * 16 := by
  have hv := v.isLt
  simp only [dacFrame, BitVec.toNat_ofNat]
  omega

/-- R186: a code is sent as its frame. -/
theorem stepS6_of_code {s : State} (hcfg : s.cfg.wf = true) {v : Code} (hv : s.sOut.toInt = v.toNat) :
    stepS6 s = { s with
      outtrace := s.outtrace ++ [(s.nowUs, .dac s.cfg.dacCmd (v.extractLsb' 4 8) (v.extractLsb' 0 4 ++ 0#4))]
      seq := .s7 } := by
  have hmax := (Cfg.bounds_of_wf hcfg).codeMax
  have hlt := v.isLt
  rcases stepS6_cases s with ⟨-, -, he⟩ | ⟨hout, -⟩
  · rw [he, hv, Int.toNat_natCast, State.dacWrite, dacFrame_code]
    rfl
  · omega

/-- Settles O36: `stepS6_of_code` in range, `stepS6_cases` outside; `dacFrame_code` has the bytes of the word. -/
theorem stepWritesDac : Obligations.StepWritesDac := by
  refine ⟨fun s hpow hcfg => ?_, fun s v => ?_⟩
  · have hexec : exec .stepS6 s = .next (stepS6 (s.noted 0x46000000#32)) := engineOp_of_powered .stepS6 stepS6 s hpow
    refine ⟨fun v hv => ?_, fun hout => ?_⟩
    · rw [hexec, stepS6_of_code (by exact hcfg) (by exact hv)]
    · have hmax := (Cfg.bounds_of_wf hcfg).codeMax
      rcases stepS6_cases (s.noted 0x46000000#32) with ⟨hlo, hhi, -⟩ | ⟨-, he⟩
      · simp only at hlo hhi
        omega
      · obtain ⟨b0, b1, b2, hframe⟩ := dacWriteUnspecified_eq (s.noted 0x46000000#32).raiseDacRange
        refine ⟨b0, b1, b2, s.freeCount + 1, ?_⟩
        rw [hexec, he, hframe]
        rfl
  · obtain ⟨hb1, hb2⟩ := toNat_dacFrame s.cfg v
    refine ⟨_, _, _, rfl, rfl, hb1, hb2, ?_, rfl⟩
    rw [show codeOperand v = v.toNat from rfl, dacFrame_code]
    exact frameBytes_append v

/-- R80, R191: the word of `DAC.FRAME`. -/
theorem encode_dacFrame (v : Code) : encode (.dacFrame v) = 0x4B000#20 ++ v :=
  (BitVec.append_assoc (x₁ := 0x4B#8) (x₂ := 0#12) (x₃ := v)).symm

/-- Settles O39: `dacFrame_code` has the bytes as bits, `toNat_dacFrame` as numbers; the word writes the trace and its
value only. -/
theorem dacFrameFunction : Obligations.DacFrameFunction := by
  intro c v
  obtain ⟨hb1, hb2⟩ := toNat_dacFrame c v
  have hv := v.isLt
  have hbits := dacFrame_code c v
  refine ⟨⟨_, _, rfl, hb1, congrArg (·.2.1) hbits, hb1.trans_le (by omega), hb2,
    congrArg (·.2.2) hbits, hb2.trans_le (by omega)⟩, encode_dacFrame v, fun s => ⟨_, rfl, ?_⟩⟩
  simp

/-! ## The end of a run (O37, O38) -/

/-- R9: the constraint on `TRIG_PULSE_MS`. -/
theorem trigPulseMs_of_wf {c : Cfg} (h : c.wf = true) : c.trigPulseMs = 10 := by
  simp only [Cfg.wf, Bool.and_eq_true, beq_iff_eq] at h
  omega

/-- R187: the step raises the output and arms the end of the pulse, which is 10 ms long. -/
theorem stepS7_of_wf {s : State} (hcfg : s.cfg.wf = true) :
    stepS7 s = { s with
      trigOut := true, alarm := { s.alarm with trigOff := some (s.nowUs + 10000) }, seq := .s8 } := by
  rw [stepS7_eq, trigPulseMs_of_wf hcfg]
  rfl

/-- Settles O37: both operations are recorded, and `stepS7_of_wf` has the pulse. -/
theorem triggerPulse : Obligations.TriggerPulse := by
  intro s hpow hcfg
  have hexec : exec .stepS7 s = .next (stepS7 (s.noted 0x47000000#32)) := engineOp_of_powered .stepS7 stepS7 s hpow
  refine ⟨?_, engineOp_of_powered .trigOff trigOff s hpow⟩
  rw [hexec, stepS7_of_wf (by exact hcfg)]

theorem exec_stepS8 {s : State} (hpow : s.powered = true) :
    exec .stepS8 s = .next { s.noted 0x48000000#32 with memoryIndex := s.memoryIndex + 1, seq := .s9 } :=
  engineOp_of_powered .stepS8 stepS8 s hpow

/-- R188: `k` advances in a row add `k` to the index, modulo 16. -/
theorem iterate_stepS8 {s : State} (hpow : s.powered = true) (k : Nat) :
    ∃ t, (fun o => andThen o (exec .stepS8))^[k] (.next s) = .next t ∧ t.powered = true ∧
      t.memoryIndex.toNat = (s.memoryIndex.toNat + k) % 16 := by
  induction k with
  | zero => exact ⟨s, rfl, hpow, (Nat.mod_eq_of_lt s.memoryIndex.isLt).symm⟩
  | succ k ih =>
    obtain ⟨t, hrun, htpow, hindex⟩ := ih
    have hadvance : (t.memoryIndex + 1).toNat = (s.memoryIndex.toNat + (k + 1)) % 16 := by
      rw [BitVec.toNat_add, hindex, ← Nat.add_assoc]
      exact Nat.mod_add_mod _ _ _
    have hlast : (fun o => andThen o (exec .stepS8))^[k + 1] (.next s) = exec .stepS8 t := by
      rw [Function.iterate_succ_apply', hrun, andThen_next]
    exact ⟨_, hlast.trans (exec_stepS8 htpow), htpow, hadvance⟩

/-- Settles O38: `exec_stepS8` advances the index, `iterate_stepS8` the row of advances. -/
theorem runEnds : Obligations.RunEnds := by
  intro s hpow
  refine ⟨⟨_, BitVec.toNat_add _ _, exec_stepS8 hpow⟩, fun k => ?_, engineOp_of_powered .stepS9 stepS9 s hpow⟩
  obtain ⟨t, hrun, -, hindex⟩ := iterate_stepS8 hpow k
  exact ⟨t, hrun, hindex⟩

/-! ## Rows of a `LOOP` that find nothing due (R276)

Every operation writes `optrace` and none reads it, so a row is followed through states that leave it open. -/

/-- An operation of a row, after which nothing is due. -/
theorem mainOp_of_nothingDue {i : Instr} {body : State → State} {s t : State}
    (hbody : ∀ ops, body { s with optrace := ops } = { t with optrace := ops }) (hpow : s.powered = true)
    (hdue : NothingDue t) (ops : List (Nat × Word)) :
    mainOp i body { s with optrace := ops } = .next { t with optrace := ops ++ [(s.nowUs, encode i)] } := by
  rw [mainOp, perform, record_of_powered _ _ (by exact hpow)]
  exact (congrArg dispatch (hbody _)).trans (dispatch_of_none _ hdue)

/-- From `s` the row leads to `t`, whatever the trace before it, and but for the trace after it. -/
def RowLeads (row : List (Instr × (State → State))) (s t : State) : Prop :=
  ∀ ops, ∃ ops', mainOps row { s with optrace := ops } = .next { t with optrace := ops' }

theorem RowLeads.nil (s : State) : RowLeads [] s s := fun ops => ⟨ops, rfl⟩

theorem RowLeads.cons {i : Instr} {body : State → State} {rest : List (Instr × (State → State))} {s u : State}
    (t : State) (hbody : ∀ ops, body { s with optrace := ops } = { t with optrace := ops }) (hpow : s.powered = true)
    (hdue : NothingDue t) (hrest : RowLeads rest t u) : RowLeads ((i, body) :: rest) s u := by
  intro ops
  obtain ⟨ops', hrun⟩ := hrest (ops ++ [(s.nowUs, encode i)])
  exact ⟨ops', by rw [mainOps_cons, mainOp_of_nothingDue hbody hpow hdue, andThen_next, hrun]⟩

/-- R276: an alarm armed for later is not due. -/
theorem nothingDue_arm {s : State} (h : NothingDue s) (ev : Event) {d : Nat} (hd : s.nowUs < d) :
    NothingDue { s with alarm := s.alarm.arm ev d } := by
  refine due_eq_none.2 fun c hnext => ?_
  by_contra hle
  have hslot := deadline_of_next hnext
  by_cases hev : c.1.slot = ev.slot
  · rw [hev, Alarms.deadline_arm_same] at hslot
    cases hslot
    exact hle hd
  · rw [Alarms.deadline_arm_other _ _ _ _ hev] at hslot
    exact due_ne_none_of_deadline hslot (not_lt.1 hle) h

/-! ## The polls with nothing to do (R251, R254 to R257) -/

/-- The switches are where they were polled, and no toggle is pending. -/
structure NothingToPoll (s : State) : Prop where
  clock : s.pinLevel.extClkEn = s.externalTrigger
  pot : s.pinLevel.potModeSw = s.potMode
  quantize : s.pinLevel.qmodeSel = s.quantizeMode
  mode : s.modeTogglePending = false
  scale : s.scaleTogglePending = false
  range : s.rangeTogglePending = false

namespace NothingToPoll

variable {s : State}

theorem lPollsw (h : NothingToPoll s) : lPollsw s = { s with lpos := .mode } := by
  have hclock : pollClockSource s = s := by
    rcases pollClockSource_cases s with ⟨hsw, hext, -⟩ | ⟨hsw, hext, -⟩ | ⟨-, he⟩
    · simp [h.clock, hext] at hsw
    · simp [h.clock, hext] at hsw
    · exact he
  simp only [Machine.lPollsw, hclock, h.pot, h.quantize]

theorem lMode (h : NothingToPoll s) : lMode s = { s with lpos := .scale } := by
  simp [Machine.lMode, h.mode]

theorem lScale (h : NothingToPoll s) : lScale s = { s with lpos := .range } := by
  simp [Machine.lScale, h.scale]

theorem lRange (h : NothingToPoll s) : lRange s = { s with lpos := .step } := by
  simp [Machine.lRange, h.range]

end NothingToPoll

/-- R257: a pending trigger starts a run. -/
theorem lStep_of_triggerPending {s : State} (h : s.triggerPending = true) :
    lStep s = { s with seq := .s1, lpos := .pollsw } := by
  simp [lStep, h]

/-- R250: with a trigger pending and nothing to poll, the five polls lead to the start of a run. -/
theorem pollOps_leads {s : State} (h : NothingToPoll s) (hpow : s.powered = true) (htrig : s.triggerPending = true)
    (hdue : NothingDue s) : RowLeads pollOps s { s with seq := .s1, lpos := .pollsw } :=
  .cons { s with lpos := .mode } (fun _ => NothingToPoll.lPollsw { h with }) hpow hdue <|
  .cons { s with lpos := .scale } (fun _ => NothingToPoll.lMode { h with }) hpow hdue <|
  .cons { s with lpos := .range } (fun _ => NothingToPoll.lScale { h with }) hpow hdue <|
  .cons { s with lpos := .step } (fun _ => NothingToPoll.lRange { h with }) hpow hdue <|
  .cons { s with seq := .s1, lpos := .pollsw } (fun _ => lStep_of_triggerPending htrig) hpow hdue <|
  .nil _

/-! ## The micro-steps in a row (R180) -/

/-- R182: the sample of a run whose lines have settled. -/
def State.sampled (s : State) : Sample := (s.analogIn s.selectedSource).setWidth 16

/-- R183: the sample a run records. -/
def State.runSample (s : State) : Sample :=
  if s.potMode then BitVec.ofInt 16 (rScale s.cfg s.potRange s.sampled.toNat) else s.sampled

/-- R184: the memory that a run leaves. -/
def State.runMemory (s : State) : Memory :=
  if s.recording then s.memory.write s.memoryIndex.toNat s.runSample else s.memory

/-- R184: the output events up to the flash. -/
def State.flashed (s : State) : List (Nat × OutEvent) :=
  s.outtrace ++ if s.recording then [(s.nowUs, .flash)] else []

/-- R186: the output events of a run that sends a code. -/
def State.runOuttrace (s : State) (v : Code) : List (Nat × OutEvent) :=
  s.flashed ++ [(s.nowUs, .dac s.cfg.dacCmd (v.extractLsb' 4 8) (v.extractLsb' 0 4 ++ 0#4))]

/-- R186: the latch holds a code as it is. -/
theorem toInt_ofInt_code (v : Code) : (BitVec.ofInt 32 (v.toNat : Int)).toInt = v.toNat :=
  BitVec.toInt_ofInt_eq_self (by decide) (by omega) (by omega)

/-- The state of `s` after `STEP.S6`, in a run that sends a code. -/
def State.sent (s : State) (v : Code) : State :=
  { s with
    adcSel := .cv, sSample := s.runSample, memory := s.runMemory, sOut := BitVec.ofInt 32 v.toNat
    outtrace := s.runOuttrace v, seq := .s7 }

/-- The state of `s` after `STEP.S9`, in a run that sends a code. -/
def State.ended (s : State) (v : Code) : State :=
  { s.sent v with
    trigOut := true, alarm := { s.alarm with trigOff := some (s.nowUs + 10000) }, memoryIndex := s.memoryIndex + 1
    triggerPending := false, seq := .idle }

/-- R180: with the lines settled and a code as the quantized word, the eight micro-steps sample, rescale, record,
quantize, send, raise the trigger output, advance the index and clear the flag. -/
theorem sampleOps_leads {s : State} (hpow : s.powered = true) (hcfg : s.cfg.wf = true) (hsettled : s.settled = true)
    (hdue : NothingDue s) {v : Code}
    (hq : quantize s.cfg s.quantizeMode s.activeScale.toNat (s.runMemory.read s.memoryIndex.toNat).toNat =
      some (v.toNat : Int)) :
    RowLeads sampleOps s (s.ended v) :=
  have harmed : NothingDue { s with alarm := { s.alarm with trigOff := some (s.nowUs + 10000) } } :=
    nothingDue_arm hdue .trigOff (by omega)
  .cons { s with adcSel := .cv, sSample := s.sampled, seq := .s3 }
    (fun _ => stepS2_of_settled hsettled) hpow hdue <|
  .cons { s with adcSel := .cv, sSample := s.runSample, seq := .s4 }
    (fun _ => rfl) hpow hdue <|
  .cons { s with adcSel := .cv, sSample := s.runSample, memory := s.runMemory, outtrace := s.flashed, seq := .s5 }
    (fun _ => stepS4_eq hcfg) hpow hdue <|
  .cons { s with
      adcSel := .cv, sSample := s.runSample, memory := s.runMemory, outtrace := s.flashed
      sOut := BitVec.ofInt 32 v.toNat, seq := .s6 }
    (fun _ => stepS5_of_quantize (by exact hcfg) (by exact hq)) hpow hdue <|
  .cons (s.sent v) (fun _ => stepS6_of_code (by exact hcfg) (by exact toInt_ofInt_code v)) hpow hdue <|
  .cons { s.sent v with
      trigOut := true, alarm := { s.alarm with trigOff := some (s.nowUs + 10000) }, seq := .s8 }
    (fun _ => stepS7_of_wf hcfg) hpow harmed <|
  .cons { s.sent v with
      trigOut := true, alarm := { s.alarm with trigOff := some (s.nowUs + 10000) }, memoryIndex := s.memoryIndex + 1
      seq := .s9 }
    (fun _ => rfl) hpow harmed <|
  .cons (s.ended v) (fun _ => rfl) hpow harmed <|
  .nil _

/-! ## A whole run (O40) -/

/-- The state of `s` after `STEP.S1`, in a run that starts at the boundary. -/
def State.addressed (s : State) : State :=
  { s with
    muxA := muxAddress s.memoryIndex, muxInh0 := muxBank s.memoryIndex, muxInh1 := !muxBank s.memoryIndex
    muxSetTime := s.nowUs, seq := .s2, lpos := .pollsw }

/-- R171, R275: where the beat chain advances, the settle wait of a powered engine comes to its end, with nothing due
there. -/
theorem exists_settleWait {s : State} (hpow : s.powered = true) (hlive : ChainLive s) :
    ∃ t, settleWait s = .next t ∧ CallbackFrame s t ∧ t.nowUs = settleEnd s ∧ NothingDue t := by
  obtain ⟨u, hrun⟩ := exists_runDue hlive (settleEnd s)
  have hadv : advanceTo (settleEnd s) s = .next { u with nowUs := settleEnd s } := advanceTo_eq_next.2 ⟨u, hrun, rfl⟩
  have hframe := CallbackFrame.advanceTo hadv
  have hnone : u.due (settleEnd s) = none := runDue_done hrun
  exact ⟨_, settleWait_of_advanceTo (hframe.powered_eq.trans hpow) hadv, hframe.trans rfl, rfl, hnone⟩

/-- R194: from a boundary with a trigger pending and nothing to poll, one `LOOP` waits until the lines have settled,
while only callbacks write, and then ends the run. -/
theorem exists_exec_loop {s : State} (hpow : s.powered = true) (hlive : ChainLive s) (hdue : NothingDue s)
    (hseq : s.seq = .idle) (hlpos : s.lpos = .pollsw) (htrig : s.triggerPending = true) (hpoll : NothingToPoll s) :
    ∃ w, CallbackFrame s.addressed w ∧ w.nowUs = s.nowUs + s.cfg.muxSettleUs ∧
      ∀ v : Code, quantize w.cfg w.quantizeMode w.activeScale.toNat (w.runMemory.read w.memoryIndex.toNat).toNat =
          some (v.toNat : Int) →
        ∃ ops, exec .loop s = .next { w.ended v with optrace := ops } := by
  obtain ⟨polls, hpolls⟩ := pollOps_leads hpoll hpow htrig hdue (s.optrace ++ [(s.nowUs, encode .loop)])
  have haddress := mainOp_of_nothingDue (i := .stepS1) (s := { s with seq := .s1, lpos := .pollsw }) (t := s.addressed)
    (fun _ => stepS1_eq _) hpow hdue polls
  obtain ⟨w, hwait, hframe, hnow, hnone⟩ := exists_settleWait
    (s := { s.addressed with optrace := polls ++ [(s.nowUs, encode .stepS1)] }) hpow hlive
  have hnoted : CallbackFrame s.addressed { s.addressed with optrace := polls ++ [(s.nowUs, encode .stepS1)] } := rfl
  refine ⟨w, hnoted.trans hframe, hnow.trans (by simp [settleEnd, State.addressed]), fun v hv => ?_⟩
  have hwcfg : w.cfg.wf = true := by rw [hframe.cfg_eq]; exact hlive.1
  have hwpow : w.powered = true := hframe.powered_eq.trans hpow
  obtain ⟨ops, hsample⟩ := sampleOps_leads hwpow hwcfg (hframe.settled hnow) hnone hv w.optrace
  refine ⟨ops, execLoop_eq_next.2 ⟨hpow, hseq, hlpos, ?_⟩⟩
  rw [record_of_powered _ _ hpow]
  exact iteration_eq_next.2 ⟨_, hpolls, .inl ⟨rfl, runPipeline_eq_next.2 ⟨_, w, haddress, hwait, hsample⟩⟩⟩

/-- R182, R66: after the wait the lines select the source of the step's own index. -/
theorem toNat_sampled {s w : State} (h : CallbackFrame s.addressed w) :
    w.sampled.toNat = s.ain[s.memoryIndex.toNat].toNat := by
  have hindex := s.memoryIndex.isLt
  have hsource : w.selectedSource = s.memoryIndex.toNat := by
    rw [h]
    exact muxAddress_muxBank s.memoryIndex
  have hcode : w.analogIn s.memoryIndex.toNat = s.ain[s.memoryIndex.toNat] := by
    have hain : w.ain = s.ain := (congrArg State.ain h :)
    rw [analogIn_of_lt w (by omega), hain]
  have hlt := s.ain[s.memoryIndex.toNat].isLt
  rw [State.sampled, hsource, hcode, BitVec.toNat_setWidth]
  omega

/-- R182, R183: the sample that a run records, from the code `x` of its source. -/
theorem runSample_eq {s : State} {x x' : Nat} (hx : s.sampled.toNat = x)
    (hx' : (x' : Int) = if s.potMode then rScale s.cfg s.potRange x else x) : s.runSample = BitVec.ofNat 16 x' := by
  subst hx
  unfold State.runSample
  split_ifs at hx' ⊢
  · rw [← hx', BitVec.ofInt_natCast]
  · rw [Int.natCast_inj.1 hx', BitVec.ofNat_toNat, BitVec.setWidth_eq]

/-- R20, R183: the sample of a run is a code, rescaled or not. -/
theorem runCode_le {c : Cfg} (h : c.Bounds) {r : PotRange} {pot : Bool} {x x' : Nat} (hx : x ≤ c.codeMax)
    (hx' : (x' : Int) = if pot then rScale c r x else x) : x' ≤ c.codeMax := by
  split_ifs at hx'
  · have := (rScale_mem h r hx).2
    omega
  · omega

/-- R184, R61: the words that a run leaves. -/
theorem runMemory_read {s : State} (h : s.memory.wf = true) (a : Nat) :
    s.runMemory.read a =
      if s.recording = true ∧ a = s.memoryIndex.toNat then s.runSample else s.memory.read a := by
  unfold State.runMemory
  by_cases hrec : s.recording = true
  · by_cases ha : a = s.memoryIndex.toNat
    · rw [if_pos hrec, if_pos ⟨hrec, ha⟩, ha, Memory.read_write_same _ _ _ h]
    · rw [if_pos hrec, if_neg (fun hand => ha hand.2), Memory.read_write_other _ _ _ _ h ha]
  · rw [if_neg hrec, if_neg (fun hand => hrec hand.1)]

/-- R191: the bytes of a code's frame, computed from the code as an integer. -/
theorem ofInt_frameBytes (v : Code) :
    BitVec.ofInt 8 ((v.toNat : Int) / 16) = v.extractLsb' 4 8 ∧
      BitVec.ofInt 8 ((v.toNat : Int) % 16 * 16) = v.extractLsb' 0 4 ++ 0#4 := by
  have hbytes := dacFrame_code Cfg.tc0 v
  simp only [dacFrame, Prod.mk.injEq, true_and] at hbytes
  obtain ⟨hhigh, hlow⟩ := hbytes
  rw [← hhigh, ← hlow, ← BitVec.ofInt_natCast, ← BitVec.ofInt_natCast]
  exact ⟨rfl, rfl⟩

/-- Settles O40: `exists_exec_loop` has the course of the run, from the state `w` at the end of the settle wait, where
the switches and the words are those of `s`. -/
theorem wholeRun : Obligations.WholeRun := by
  intro s out x x' hpow hcfg hinv hseq hlpos htrig hmode hscale hrange hclock hpot hquant hx hx' hq hlo hhi
  obtain ⟨v, rfl⟩ : ∃ v : Code, out = v.toNat :=
    ⟨BitVec.ofNat 12 out.toNat, by rw [BitVec.toNat_ofNat]; omega⟩
  have hlive := (hinv.moveInv hcfg hpow).chainLive
  obtain ⟨w, hframe, hnow, hloop⟩ := exists_exec_loop hpow hlive hinv.nothingDue hseq hlpos htrig
    ⟨hclock.symm, hpot.symm, hquant.symm, hmode, hscale, hrange⟩
  have hrecording : w.recording = s.recording := (congrArg State.recording hframe :)
  have hmemory : w.memory = s.memory := (congrArg State.memory hframe :)
  have hindex : w.memoryIndex = s.memoryIndex := (congrArg State.memoryIndex hframe :)
  have houttrace : w.outtrace = s.outtrace := (congrArg State.outtrace hframe :)
  have hsample : w.runSample = BitVec.ofNat 16 x' :=
    runSample_eq ((toNat_sampled hframe).trans hx.symm) (by rw [hframe]; exact hx')
  have hread (a : Nat) : w.runMemory.read a =
      if s.recording = true ∧ a = s.memoryIndex.toNat then BitVec.ofNat 16 x' else s.memory.read a := by
    rw [runMemory_read (hmemory ▸ hinv.memoryWf), hsample, hrecording, hmemory, hindex]
  have hfits : x' < 2 ^ 16 := by
    have hb := Cfg.bounds_of_wf hcfg
    have hmax := hb.codeMax
    have hcode : x ≤ s.cfg.codeMax := by have := s.ain[s.memoryIndex.toNat].isLt; omega
    have := runCode_le hb hcode hx'
    omega
  have hword : (w.runMemory.read w.memoryIndex.toNat).toNat =
      if s.recording then x' else (s.memory.read s.memoryIndex.toNat).toNat := by
    rw [hread, hindex]
    by_cases hrec : s.recording = true
    · rw [if_pos ⟨hrec, rfl⟩, if_pos hrec, BitVec.toNat_ofNat, Nat.mod_eq_of_lt hfits]
    · rw [if_neg (fun hand => hrec hand.1), if_neg hrec]
  obtain ⟨ops, hexec⟩ := hloop v (by rw [hword, hframe]; exact hq)
  have hout : w.runOuttrace v = s.outtrace ++ (if s.recording then [(w.nowUs, .flash)] else []) ++
      [(w.nowUs, .dac s.cfg.dacCmd (BitVec.ofInt 8 ((v.toNat : Int) / 16))
        (BitVec.ofInt 8 ((v.toNat : Int) % 16 * 16)))] := by
    obtain ⟨hhigh, hlow⟩ := ofInt_frameBytes v
    rw [hhigh, hlow, State.runOuttrace, State.flashed, hrecording, hframe.cfg_eq, houttrace]
    rfl
  have hadvanced : w.memoryIndex + 1 = s.memoryIndex + 1 := by rw [hindex]
  exact ⟨_, hexec, rfl, (congrArg State.lpos hframe :), hnow, hread, hout, rfl, rfl, hadvanced, rfl,
    (congrArg State.muxA hframe :), (congrArg State.muxInh0 hframe :), (congrArg State.muxInh1 hframe :), rfl,
    (congrArg State.fault hframe :)⟩

end Sys2Proof.Machine

/-! # Proofs: the quantizer (O41 to O47)

First the rounding division and the two conversions, which invert each other on semitone counts (O41, O43), then the
scale tables (O44), the words (O42), the order (O46, and from it O45) and the bounds (O47). -/

namespace Sys2Proof.Machine

/-! ## Rounding to nearest (R13) -/

/-- R13: the rounded quotient is within half a divisor of the dividend. -/
theorem rdiv_near (n : Int) {d : Nat} (hd : 0 < d) :
    2 * n - d ≤ 2 * (rdiv n d * d) ∧ 2 * (rdiv n d * d) ≤ 2 * n + d := by
  have hnonneg {m : Int} (hm : 0 ≤ m) :
      2 * m - d ≤ 2 * (rdiv m d * d) ∧ 2 * (rdiv m d * d) ≤ 2 * m + d := by
    rw [rdiv_of_nonneg m d hm]
    have hle := (fdiv_spec (m + (d / 2 : Nat)) d (by omega)).1
    have hlt := fdiv_lt (m + (d / 2 : Nat)) d (by omega)
    rw [Int.add_mul, Int.one_mul] at hlt
    omega
  rcases le_or_gt 0 n with hn | hn
  · exact hnonneg hn
  · have hneg := hnonneg (m := -n) (by omega)
    rw [rdiv_neg n d hd, Int.neg_mul] at hneg
    omega

/-- R13: less than half a divisor away from the dividend there is one multiple only. -/
theorem rdiv_eq_of_near {n k : Int} {d : Nat} (hlo : 2 * n - d < 2 * (k * d)) (hhi : 2 * (k * d) < 2 * n + d) :
    rdiv n d = k := by
  have hd : 0 < (d : Int) := by omega
  obtain ⟨hge, hle⟩ := rdiv_near n (d := d) (by omega)
  have hlt : rdiv n d < k + 1 := Int.lt_of_mul_lt_mul_right (by rw [Int.add_mul]; omega) hd.le
  have hgt : k < rdiv n d + 1 := Int.lt_of_mul_lt_mul_right (by rw [Int.add_mul]; omega) hd.le
  omega

/-- R13: rounding to nearest keeps the order. -/
theorem rdiv_mono (d : Nat) : Monotone fun n => rdiv n d := by
  intro m n hmn
  have hd : 0 ≤ (d : Int) := by omega
  have hnonneg {k : Int} (hk : 0 ≤ k) : 0 ≤ fdiv (k + (d / 2 : Nat)) d := Int.ediv_nonneg (by omega) hd
  have hle {j k : Int} (hjk : j ≤ k) : fdiv (j + (d / 2 : Nat)) d ≤ fdiv (k + (d / 2 : Nat)) d := by
    rcases hd.eq_or_lt with hzero | hpos
    · simp [fdiv, ← hzero]
    · exact Int.ediv_le_ediv hpos (by omega)
  show rdiv m d ≤ rdiv n d
  rcases le_or_gt 0 m with hm | hm <;> rcases le_or_gt 0 n with hn | hn
  · rw [rdiv_of_nonneg m d hm, rdiv_of_nonneg n d hn]
    exact hle hmn
  · omega
  · rw [rdiv_of_neg m d hm, rdiv_of_nonneg n d hn]
    have hleft := hnonneg (k := -m) (by omega)
    have hright := hnonneg hn
    omega
  · rw [rdiv_of_neg m d hm, rdiv_of_neg n d hn]
    exact Int.neg_le_neg (hle (by omega))

/-! ## The two conversions (R211, R212, R216) -/

/-- R211: a deviation above or at the midpoint, with the division written out. -/
theorem qD2S_of_nonneg (c : Cfg) {dev : Int} (h : 0 ≤ dev) :
    qD2S c dev = (dev * 12 + (c.spo / 2 : Nat)) / c.spo :=
  rdiv_of_nonneg _ _ (by omega)

/-- R211: a deviation below the midpoint, with the division written out. -/
theorem qD2S_of_neg (c : Cfg) {dev : Int} (h : dev < 0) :
    qD2S c dev = -((-dev * 12 + (c.spo / 2 : Nat)) / c.spo) := by
  rw [Int.neg_mul]
  exact rdiv_of_neg _ _ (by omega)

/-- R212: a count above or at the midpoint, with the division written out. -/
theorem qS2D_of_nonneg (c : Cfg) {semis : Int} (h : 0 ≤ semis) : qS2D c semis = (semis * c.spo + 6) / 12 :=
  rdiv_of_nonneg _ _ (Int.mul_nonneg h (by omega))

/-- R212: a count below the midpoint, with the division written out. -/
theorem qS2D_of_neg (c : Cfg) {semis : Int} (h : semis < 0) : qS2D c semis = -((-semis * c.spo + 6) / 12) := by
  rcases Nat.eq_zero_or_pos c.spo with hzero | hpos
  · simp [qS2D, hzero, rdiv, fdiv]
  · rw [Int.neg_mul]
    exact rdiv_of_neg _ _ (Int.mul_neg_of_neg_of_pos h (by omega))

/-- R211: a deviation is at most half a semitone from its count. -/
theorem qD2S_near {c : Cfg} (h : 12 ≤ c.spo) (dev : Int) :
    24 * dev - c.spo ≤ 2 * (qD2S c dev * c.spo) ∧ 2 * (qD2S c dev * c.spo) ≤ 24 * dev + c.spo := by
  have hnear := rdiv_near (dev * 12) (d := c.spo) (by omega)
  rw [qD2S]
  omega

/-- R212: a deviation converted from a count is at most half a raw step from it. -/
theorem qS2D_near (c : Cfg) (semis : Int) :
    semis * c.spo - 6 ≤ 12 * qS2D c semis ∧ 12 * qS2D c semis ≤ semis * c.spo + 6 := by
  have hnear := rdiv_near (semis * c.spo) (d := 12) (by decide)
  rw [qS2D]
  omega

/-- R216: a count converted to a deviation is read back. -/
theorem qD2S_qS2D {c : Cfg} (h : 12 ≤ c.spo) (semis : Int) : qD2S c (qS2D c semis) = semis := by
  have hnear := qS2D_near c semis
  rcases h.eq_or_lt with heq | hlt
  · rw [← heq] at hnear
    refine rdiv_eq_of_near ?_ ?_ <;> rw [← heq] <;> omega
  · exact rdiv_eq_of_near (by omega) (by omega)

theorem qD2S_mono (c : Cfg) : Monotone (qD2S c) := fun _ _ h => rdiv_mono c.spo (by omega)

theorem qS2D_mono (c : Cfg) : Monotone (qS2D c) := fun _ _ h =>
  rdiv_mono 12 (Int.mul_le_mul_of_nonneg_right h (by omega))

/-- R211: with odd `SPO` no deviation lies midway between two counts. -/
theorem ne_tie_of_odd {spo : Nat} (h : spo % 2 = 1) (dev k : Int) : 2 * (dev * 12) ≠ spo * (2 * k + 1) := by
  have hodd : Odd ((spo : Int) * (2 * k + 1)) := Int.odd_mul.2 ⟨Int.odd_iff.2 (by omega), k, rfl⟩
  intro heq
  rw [← heq, Int.odd_iff] at hodd
  omega

/-- R211: a deviation midway between two counts rounds away from zero. -/
theorem qD2S_tie {c : Cfg} (hspo : 12 ≤ c.spo) (heven : c.spo % 2 = 0) {dev k : Int} (hdev : 0 ≤ dev)
    (h : 2 * (dev * 12) = c.spo * (2 * k + 1)) : qD2S c dev = k + 1 := by
  have hsum : dev * 12 + (c.spo / 2 : Nat) = (k + 1) * c.spo := by
    have : (c.spo : Int) * (2 * k + 1) = 2 * (k * c.spo) + c.spo := by ring
    rw [Int.add_mul]
    omega
  rw [qD2S_of_nonneg c hdev, hsum]
  exact Int.mul_ediv_cancel _ (by omega)

/-- R80, R211: the word of `Q.D2S`. -/
theorem encode_qD2S (v : BitVec 16) : encode (.qD2S v) = 0x5000#16 ++ v :=
  (BitVec.append_assoc (x₁ := 0x50#8) (x₂ := 0#8) (x₃ := v)).symm

/-- Settles O41: the range for `SPO = 205` follows from the order and the values at its two ends. -/
theorem semitoneCount : Obligations.SemitoneCount := by
  refine ⟨fun c dev hspo => ?_, encode_qD2S, fun _ _ _ => ⟨rfl, rfl⟩⟩
  have hneg := qD2S_neg c dev (by omega)
  have hexamples (h205 : c.spo = 205) : qD2S c 102 = 6 ∧ qD2S c 8 = 0 ∧ qD2S c 9 = 1 ∧ qD2S c (-9) = -1 ∧
      qD2S c (-103) = -6 ∧ qD2S c 2047 = 120 ∧ qD2S c (-2048) = -120 := by
    simp only [qD2S, h205]
    decide
  refine ⟨qD2S_of_nonneg c, qD2S_of_neg c, hneg, fun k hodd => ne_tie_of_odd hodd dev k,
    fun k heven hdev htie => ?_, fun h205 hlo hhi => ?_, hexamples⟩
  · have htop := qD2S_tie hspo heven hdev htie
    exact ⟨htop, hneg.trans (congrArg _ htop)⟩
  · obtain ⟨-, -, -, -, -, hmax, hmin⟩ := hexamples h205
    exact ⟨hmin ▸ qD2S_mono c hlo, hmax ▸ qD2S_mono c hhi⟩

/-! ## Chromatic quantization (R213, R216) -/

/-- R216: a code reached from a count has this count. -/
theorem qD2S_deviation_of_eq {c : Cfg} (h : 12 ≤ c.spo) {y : Nat} {semis : Int} (hy : c.mid + qS2D c semis = y) :
    qD2S c (deviation c y) = semis := by
  have hdev : deviation c y = qS2D c semis := by
    rw [deviation]
    omega
  rw [hdev, qD2S_qS2D h]

/-- Settles O43: `qD2S_qS2D` is the stronger form, and it gives the code's count back. -/
theorem chromaticIdempotent : Obligations.ChromaticIdempotent := by
  intro c hcfg
  have hspo := spo_of_wf hcfg
  refine ⟨qD2S_qS2D hspo, fun x y hy => ?_⟩
  rw [qChrom, qD2S_deviation_of_eq hspo hy]
  exact hy

/-! ## Scale tables (R214, R218, R221) -/

section
variable {t : ScaleTable} (h : t.wf = true) {n : Nat} (hn : n < 12)
include h hn

/-- R221 (a): every note has an entry. -/
theorem entry_mem : t.entry n ∈ t := by
  simp only [ScaleTable.wf, Bool.and_eq_true, beq_iff_eq] at h
  obtain ⟨⟨⟨⟨⟨hlength, -⟩, -⟩, -⟩, -⟩, -⟩ := h
  rw [ScaleTable.entry, List.getD_eq_getElem _ _ (by omega)]
  exact List.getElem_mem _

/-- R221 (a): an entry is a note. -/
theorem entry_lt : t.entry n < 12 := by
  have hmem := entry_mem h hn
  simp only [ScaleTable.wf, Bool.and_eq_true, List.all_eq_true, decide_eq_true_eq] at h
  obtain ⟨⟨⟨⟨⟨-, hall⟩, -⟩, -⟩, -⟩, -⟩ := h
  exact hall _ hmem

/-- R221 (c): a member maps to itself. -/
theorem entry_entry : t.entry (t.entry n) = t.entry n := by
  simp only [ScaleTable.wf, Bool.and_eq_true, List.all_eq_true, beq_iff_eq] at h
  obtain ⟨⟨⟨-, hmember⟩, -⟩, -⟩ := h
  exact hmember n (List.mem_range.2 hn)

end

/-- R214: how far above its octave's root a note is snapped to. -/
def snapOffset (t : ScaleTable) (n : Nat) : Nat := if n = 11 ∧ t.entry 11 = 0 then 12 else t.entry n

/-- R214: snapping keeps the octave, but for the wrap. -/
theorem snapSemis_eq (t : ScaleTable) (semis : Int) :
    snapSemis t semis = 12 * fdiv semis 12 + snapOffset t (noteOf semis) := by
  unfold snapSemis snapOffset
  simp only
  by_cases hnote : noteOf semis = 11
  · rw [hnote]
    split_ifs <;> omega
  · rw [if_neg (by omega), if_neg (by omega)]

/-- R18: octave and note of a count are the ones it is written with. -/
theorem noteOf_octave_add (oct : Int) {n : Nat} (hn : n < 12) : noteOf (12 * oct + n) = n := by
  unfold noteOf fmod fdiv
  omega

/-- R18: `fmod` of a count by 12 is its note. -/
theorem fmod_eq_noteOf (semis : Int) : fmod semis 12 = noteOf semis :=
  (Int.toNat_of_nonneg (fmod_range semis 12 (by decide)).1).symm

/-- R218: the snapped count's note is the entry of the note. -/
theorem noteOf_snapSemis {t : ScaleTable} (h : t.wf = true) (semis : Int) :
    noteOf (snapSemis t semis) = t.entry (noteOf semis) := by
  have hnote := noteOf_lt semis
  rw [snapSemis_eq, snapOffset]
  split_ifs with hwrap
  · obtain ⟨h11, hroot⟩ := hwrap
    have hroot_above : 12 * fdiv semis 12 + (12 : Nat) = 12 * (fdiv semis 12 + 1) + (0 : Nat) := by omega
    rw [h11, hroot, hroot_above]
    exact noteOf_octave_add _ (by decide)
  · exact noteOf_octave_add _ (entry_lt h hnote)

/-- R214: a count whose note is a member stays. -/
theorem snapSemis_of_member {t : ScaleTable} {semis : Int} (h : t.entry (noteOf semis) = noteOf semis) :
    snapSemis t semis = semis := by
  have hoctave := octave_note semis
  have hoffset : snapOffset t (noteOf semis) = noteOf semis := by
    rw [snapOffset, if_neg, h]
    rintro ⟨h11, hroot⟩
    rw [h11, hroot] at h
    omega
  rw [snapSemis_eq, hoffset, hoctave]

/-- R218: snapping a count is idempotent. -/
theorem snapSemis_snapSemis {t : ScaleTable} (h : t.wf = true) (semis : Int) :
    snapSemis t (snapSemis t semis) = snapSemis t semis :=
  snapSemis_of_member (by rw [noteOf_snapSemis h, entry_entry h (noteOf_lt semis)])

/-- R221 (d): a count is moved by the distance of its note to the member. -/
theorem natAbs_snapSemis_sub (t : ScaleTable) (semis : Int) :
    (snapSemis t semis - semis).natAbs = t.snapDistance (noteOf semis) := by
  have hoctave := octave_note semis
  rw [snapSemis_eq, snapOffset, ScaleTable.snapDistance, noteDistance]
  split_ifs with hwrap
  · obtain ⟨h11, -⟩ := hwrap
    omega
  · omega

/-- R232: a count is moved by less than an octave. -/
theorem natAbs_snapSemis_sub_lt {t : ScaleTable} (h : t.wf = true) (semis : Int) :
    (snapSemis t semis - semis).natAbs < 12 := by
  have hnote := noteOf_lt semis
  have hentry := entry_lt h hnote
  rw [natAbs_snapSemis_sub, ScaleTable.snapDistance, noteDistance]
  split_ifs <;> omega

/-- Settles O44: the answered code has the snapped count, whose note `noteOf_snapSemis` finds in the table and which
`snapSemis_snapSemis` keeps. -/
theorem snapMembership : Obligations.SnapMembership := by
  intro c t x hcfg htable
  have hspo := spo_of_wf hcfg
  have ht := scaleTable_wf hcfg htable
  refine ⟨⟨_, entry_mem ht (noteOf_lt (qD2S c (deviation c x))), ?_⟩, fun y hy => ?_⟩
  · rw [qSnap, add_sub_cancel_left, qD2S_qS2D hspo, fmod_eq_noteOf, noteOf_snapSemis ht]
  · rw [qSnap, qD2S_deviation_of_eq hspo hy, snapSemis_snapSemis ht]
    exact hy

/-! ## The words (R211 to R215, R90 (e)) -/

/-- R82: the sign extension keeps the value of an operand. -/
theorem signedOperand_eq (val : BitVec 16) : signedOperand val = val.toInt :=
  BitVec.toInt_signExtend_of_le (by decide)

/-- R90 (e): a scale that has a table is legal. -/
theorem scaleOperand?_of_getElem? {c : Cfg} {scale : BitVec 4} {t : ScaleTable}
    (h : c.scaleTable[scale.toNat]? = some t) : scaleOperand? c scale = some scale.toNat := by
  obtain ⟨hlt, -⟩ := List.getElem?_eq_some_iff.1 h
  exact if_pos (decide_eq_true hlt)

/-- R90 (e): a scale past the tables is reserved. -/
theorem scaleOperand?_of_le {c : Cfg} {scale : BitVec 4} (h : c.scaleTable.length ≤ scale.toNat) :
    scaleOperand? c scale = none :=
  if_neg (by rw [legalScale, decide_eq_true_eq]; exact Nat.not_lt.2 h)

/-- R91: a function word with a value holds it. -/
theorem exists_functionOp (i : Instr) {v : Option FnValue} {x : FnValue} (h : v = some x) (s : State) :
    ∃ t, functionOp i v s = .next t ∧ t.lastValue = some x :=
  ⟨_, functionOp_eq_next.2 ⟨x, h, rfl⟩, rfl⟩

/-- R214: the snapped count as the rule writes it, root and entry. -/
theorem snapSemis_eq_root_add {t : ScaleTable} {semis : Int} {note : Nat} (h : semis % 12 = note) :
    snapSemis t semis =
      (if note = 11 ∧ t.entry 11 = 0 then 12 * (semis / 12 + 1) else 12 * (semis / 12)) + t.entry note := by
  have hnote : noteOf semis = note := by
    have hoctave := octave_note semis
    have hlt := noteOf_lt semis
    omega
  rw [snapSemis_eq, hnote, snapOffset, fdiv]
  split_ifs with hwrap
  · obtain ⟨h11, hroot⟩ := hwrap
    rw [h11, hroot]
    omega
  · rfl

/-- Settles O42: each word holds the value of its function, which the lemmas above write out. -/
theorem quantizerWords : Obligations.QuantizerWords := by
  intro s code scale mode semis chrom
  refine ⟨fun val => ⟨?_, ?_⟩, exists_functionOp (.qChrom code) rfl s,
    fun table note htable hnote => ⟨?_, ?_⟩, fun hreserved => ?_⟩
  · obtain ⟨t, hexec, hvalue⟩ := exists_functionOp (.qD2S val)
      (congrArg (fun v => some (FnValue.int (qD2S s.cfg v))) (signedOperand_eq val)) s
    exact ⟨t, hexec, fun hpos => by rw [hvalue, qD2S_of_nonneg _ hpos]; rfl,
      fun hneg => by rw [hvalue, qD2S_of_neg _ hneg]; rfl⟩
  · obtain ⟨t, hexec, hvalue⟩ := exists_functionOp (.qS2D val)
      (congrArg (fun v => some (FnValue.int (qS2D s.cfg v))) (signedOperand_eq val)) s
    exact ⟨t, hexec, fun hpos => by rw [hvalue, qS2D_of_nonneg _ hpos],
      fun hneg => by rw [hvalue, qS2D_of_neg _ hneg]⟩
  · rw [← snapSemis_eq_root_add hnote]
    refine exists_functionOp (.qSnap scale code) ?_ s
    rw [scaleOperand?_of_getElem? htable, Option.bind_some, quantize, htable]
    rfl
  · rw [← snapSemis_eq_root_add hnote]
    refine exists_functionOp (.qApply mode scale code) ?_ s
    rw [scaleOperand?_of_getElem? htable, Option.bind_some]
    cases mode with
    | unquantized | chromatic => rfl
    | scaleSnapped =>
      rw [quantize, htable]
      rfl
  · have hscale := scaleOperand?_of_le hreserved
    constructor
    · rw [exec, execQSnap, hscale]
      rfl
    · rw [exec, execQApply, hscale]
      rfl

/-! ## Order (R219 (a)) -/

/-- R219: the table keeps the order of the notes, up to the root of the next octave. -/
def Ascending (t : ScaleTable) : Prop :=
  ∀ n < 12, snapOffset t n ≤ 12 ∧ ∀ m ≤ n, snapOffset t m ≤ snapOffset t n

/-- R219, R222: the three default tables. -/
theorem ascending_of_default {t : ScaleTable} (h : t ∈ Cfg.tc0.scaleTable) : Ascending t := by
  revert t
  unfold Ascending
  decide

/-- R219: with such a table the snapped counts keep the order, within an octave and across its end. -/
theorem snapSemis_mono {t : ScaleTable} (h : Ascending t) : Monotone (snapSemis t) := by
  intro i j hij
  have hi := octave_note i
  have hj := octave_note j
  have hnotei := noteOf_lt i
  have hnotej := noteOf_lt j
  rw [snapSemis_eq, snapSemis_eq]
  rcases lt_trichotomy (fdiv i 12) (fdiv j 12) with hlt | heq | hgt
  · have := (h _ hnotei).1
    omega
  · have := (h _ hnotej).2 (noteOf i) (by omega)
    omega
  · omega

theorem deviation_mono (c : Cfg) : Monotone (deviation c) := fun x y h => by
  rw [deviation, deviation]
  omega

/-- R219: a quantizer keeps the order where its map of the counts does. -/
theorem quantizer_mono (c : Cfg) {f : Int → Int} (hf : Monotone f) :
    Monotone fun x => (c.mid : Int) + qS2D c (f (qD2S c (deviation c x))) := fun _ _ h =>
  Int.add_le_add_left (qS2D_mono c (hf (qD2S_mono c (deviation_mono c h)))) _

theorem qChrom_mono (c : Cfg) : Monotone (qChrom c) := quantizer_mono c monotone_id

theorem qSnap_mono (c : Cfg) {t : ScaleTable} (h : t ∈ Cfg.tc0.scaleTable) : Monotone (qSnap c t) :=
  quantizer_mono c (snapSemis_mono (ascending_of_default h))

/-- Settles O46: both conversions, the deviation and the default tables keep the order. -/
theorem quantizerMonotone : Obligations.QuantizerMonotone := fun c _ _ _ hxy =>
  ⟨qChrom_mono c hxy, qSnap_mono c (by decide) hxy, qSnap_mono c (by decide) hxy, qSnap_mono c (by decide) hxy⟩

/-! ## The ends of the range under TC0 (R217, R219 (b), (c)) -/

/-- R217: the function answers -2 from the code 0 up to `low`, and 4098 from the code `high` on, and a code at the two
inputs next to them. -/
def EndsAt (f : Nat → Int) (low high : Nat) : Prop :=
  f 0 = -2 ∧ f low = -2 ∧ 0 ≤ f (low + 1) ∧ f (high - 1) ≤ 4095 ∧ f high = 4098 ∧ f 4095 = 4098

/-- R217: where the order is kept, the ends decide which inputs leave the codes, and to where. -/
theorem EndsAt.leaves {f : Nat → Int} {low high x : Nat} (h : EndsAt f low high) (hf : Monotone f) (hx : x ≤ 4095) :
    (f x < 0 ↔ x ≤ low) ∧ (4095 < f x ↔ high ≤ x) ∧ (f x < 0 → f x = -2) ∧ (4095 < f x → f x = 4098) := by
  obtain ⟨hzero, hlow, habove, hbelow, hhigh, hmax⟩ := h
  have hfirst := hf (Nat.zero_le x)
  have hlast := hf hx
  have hleft : x ≤ low ∧ f x = -2 ∨ low < x ∧ 0 ≤ f x := by
    rcases Nat.lt_or_ge low x with hgt | hle
    · exact .inr ⟨hgt, habove.trans (hf hgt)⟩
    · have := hf hle
      exact .inl ⟨hle, by omega⟩
  have hright : x < high ∧ f x ≤ 4095 ∨ high ≤ x ∧ f x = 4098 := by
    rcases Nat.lt_or_ge x high with hlt | hge
    · exact .inl ⟨hlt, (hf (Nat.le_sub_one_of_lt hlt)).trans hbelow⟩
    · have := hf hge
      exact .inr ⟨hge, by omega⟩
  omega

/-- R219 (b): half a semitone is at most 9 steps under TC0. -/
theorem qChrom_tc0_near (x : Nat) : |qChrom .tc0 x - x| ≤ 9 := by
  have hcount := qD2S_near (c := .tc0) (by decide) (deviation .tc0 x)
  have hvalue := qS2D_near .tc0 (qD2S .tc0 (deviation .tc0 x))
  rw [abs_le, qChrom]
  simp only [deviation, Cfg.tc0] at hcount hvalue ⊢
  omega

/-- R219 (c), R222: a default table moves a note by at most one semitone. -/
theorem snapDistance_le_one {t : ScaleTable} (h : t ∈ Cfg.tc0.scaleTable) {n : Nat} (hn : n < 12) :
    t.snapDistance n ≤ 1 := by
  revert t n
  decide

/-- R219 (c): half a semitone and a whole one are at most 26 steps under TC0. -/
theorem qSnap_tc0_near {t : ScaleTable} (h : t ∈ Cfg.tc0.scaleTable) (x : Nat) : |qSnap .tc0 t x - x| ≤ 26 := by
  have hcount := qD2S_near (c := .tc0) (by decide) (deviation .tc0 x)
  have hvalue := qS2D_near .tc0 (snapSemis t (qD2S .tc0 (deviation .tc0 x)))
  have hmove := natAbs_snapSemis_sub t (qD2S .tc0 (deviation .tc0 x))
  have hone := snapDistance_le_one h (noteOf_lt (qD2S .tc0 (deviation .tc0 x)))
  rw [abs_le, qSnap]
  simp only [deviation, Cfg.tc0] at hcount hvalue hmove hone ⊢
  omega

/-- R217: the ends of the three default tables and of the chromatic quantizer, each by its values at six codes. -/
theorem endsAt_tc0 :
    EndsAt (qChrom .tc0) 6 4090 ∧ EndsAt (qSnap .tc0 majorTable) 23 4090 ∧
      EndsAt (qSnap .tc0 pentaTable) 23 4073 ∧ EndsAt (qSnap .tc0 minorTable) 23 4090 := by
  unfold EndsAt
  decide

/-- Settles O45: the order and the ends decide the table, `qChrom_tc0_near` and `qSnap_tc0_near` the distances. -/
theorem quantizerRange : Obligations.QuantizerRange := by
  intro x hx
  obtain ⟨hchrom, hmajor, hpenta, hminor⟩ := endsAt_tc0
  obtain ⟨hc0, hc1, hclow, hchigh⟩ := hchrom.leaves (qChrom_mono _) hx
  obtain ⟨hj0, hj1, hjlow, hjhigh⟩ := hmajor.leaves (qSnap_mono _ (by decide)) hx
  obtain ⟨hp0, hp1, hplow, hphigh⟩ := hpenta.leaves (qSnap_mono _ (by decide)) hx
  obtain ⟨hm0, hm1, hmlow, hmhigh⟩ := hminor.leaves (qSnap_mono _ (by decide)) hx
  have hnear := qChrom_tc0_near x
  refine ⟨hc0, hc1, hnear, hj0, hj1, hp0, hp1, hm0, hm1, ?_⟩
  rintro q (rfl | rfl | rfl | rfl)
  · exact ⟨hnear.trans (by decide), hclow, hchigh⟩
  · exact ⟨qSnap_tc0_near (by decide) x, hjlow, hjhigh⟩
  · exact ⟨qSnap_tc0_near (by decide) x, hplow, hphigh⟩
  · exact ⟨qSnap_tc0_near (by decide) x, hmlow, hmhigh⟩

/-! ## Bounds (R232) -/

/-- R232: no range spans more than 5 × 819 steps. -/
theorem targetSpan_le {c : Cfg} (h : c.Bounds) (r : PotRange) : targetSpan c r ≤ 4095 := by
  have hfive := h.fiveOctaves
  rw [targetSpan_eq h]
  cases r <;> simp only <;> omega

/-- R232: no count exceeds 4095. -/
theorem qD2S_le {c : Cfg} (h : 12 ≤ c.spo) {dev : Int} (hdev : |dev| ≤ 4095) : |qD2S c dev| ≤ 4095 := by
  obtain ⟨hlo, hhi⟩ := qD2S_near h dev
  rw [abs_le] at hdev ⊢
  constructor
  · by_contra hlt
    have := Int.mul_le_mul_of_nonneg_right (show qD2S c dev ≤ -4096 by omega) (Int.natCast_nonneg c.spo)
    omega
  · by_contra hgt
    have := Int.mul_le_mul_of_nonneg_right (show 4096 ≤ qD2S c dev by omega) (Int.natCast_nonneg c.spo)
    omega

/-- R232: the recombined count times `SPO`. -/
theorem snapped_mul_spo_le {c : Cfg} (h : 12 ≤ c.spo) {dev snapped : Int} (hdev : |dev| ≤ 4095)
    (hsnapped : |snapped - qD2S c dev| ≤ 12) : |snapped * c.spo| ≤ 12 * 4095 + c.spo / 2 + 12 * c.spo := by
  have hnear := qD2S_near h dev
  have hmove : |(snapped - qD2S c dev) * c.spo| ≤ 12 * c.spo := by
    rw [abs_mul, Nat.abs_cast]
    exact Int.mul_le_mul_of_nonneg_right hsnapped (by omega)
  rw [Int.sub_mul, abs_le] at hmove
  rw [abs_le] at hdev ⊢
  omega

/-- R232: a count converted to a deviation, given its product with `SPO`. -/
theorem qS2D_le {c : Cfg} {semis : Int} (h : |semis * c.spo| ≤ 12 * 4095 + c.spo / 2 + 12 * c.spo) :
    |qS2D c semis| ≤ 4095 + c.spo + c.spo / 24 + 1 := by
  have hnear := qS2D_near c semis
  rw [abs_le] at h ⊢
  omega

/-- Settles O47: the bounds one after another, as R232 derives them. -/
theorem arithmeticWidths : Obligations.ArithmeticWidths := by
  intro c x t r hcfg hx htable
  have hb := Cfg.bounds_of_wf hcfg
  have hmid := hb.mid
  have hfive := hb.fiveOctaves
  have hspo := spo_of_wf hcfg
  refine ⟨hspo, by omega, ?_⟩
  intro dev semis snapped
  have hdev : |dev| ≤ 4095 := abs_le.2 (by omega)
  have hmove : |snapped - semis| ≤ 12 := by
    have := natAbs_snapSemis_sub_lt (scaleTable_wf hcfg htable) semis
    rw [Int.abs_eq_natAbs]
    omega
  have hproduct : |snapped * c.spo| ≤ 12 * 4095 + c.spo / 2 + 12 * c.spo := snapped_mul_spo_le hspo hdev hmove
  have hchrom : |qS2D c semis| ≤ 4095 + c.spo + c.spo / 24 + 1 :=
    qS2D_le (snapped_mul_spo_le hspo hdev (by simp [semis]))
  have hsnap : |qS2D c snapped| ≤ 4095 + c.spo + c.spo / 24 + 1 := qS2D_le hproduct
  have hfits {k : Int} (hk : |k| ≤ 4095 + c.spo + c.spo / 24 + 1) : |(c.mid : Int) + k| < 2 ^ 15 := by
    rw [abs_le] at hk
    rw [abs_lt]
    omega
  have hspan : |dev| * targetSpan c r ≤ 4095 * 4095 :=
    mul_le_mul hdev (by exact_mod_cast targetSpan_le hb r) (by omega) (by decide)
  refine ⟨hdev, ?_, qD2S_le hspo hdev, hmove, by omega, by omega, hchrom, hsnap, by omega, hspan, by decide,
    hfits hchrom, hfits hsnap⟩
  rw [abs_mul, Nat.abs_ofNat]
  omega

end Sys2Proof.Machine

/-! # Proofs: the pot-range rescaler (O48, O49)

The rescaler is read as the midpoint with a scaled magnitude to the one or the other side of it. -/

namespace Sys2Proof.Machine

/-! ## The scaled magnitude of a deviation -/

/-- R240: `mag` of a deviation of magnitude `m`; `rScale_of_mid_le` and `rScale_of_le_mid` tie it to the rescaler. -/
def rescaledMag (c : Cfg) (r : PotRange) (m : Nat) : Nat := m * targetSpan c r / c.fullSpan

@[simp] theorem rescaledMag_zero (c : Cfg) (r : PotRange) : rescaledMag c r 0 = 0 := by simp [rescaledMag]

theorem rescaledMag_eq {c : Cfg} (h : c.Bounds) (r : PotRange) (m : Nat) :
    rescaledMag c r m = m * targetSpan c r / 4096 := by rw [rescaledMag, h.fullSpan]

theorem rescaledMag_mono (c : Cfg) (r : PotRange) : Monotone (rescaledMag c r) := fun _ _ h =>
  Nat.div_le_div_right (Nat.mul_le_mul_right _ h)

/-- R241: `mag ≤ abs(dev)`, because no range spans more than the full span. -/
theorem rescaledMag_le {c : Cfg} (h : c.Bounds) (r : PotRange) (m : Nat) : rescaledMag c r m ≤ m :=
  Nat.div_le_of_le_mul (by rw [Nat.mul_comm]; exact Nat.mul_le_mul_right m (targetSpan_le_fullSpan h r))

/-! ## The two sides of the midpoint -/

theorem rScale_of_mid_le {c : Cfg} {x : Nat} (h : c.mid ≤ x) (r : PotRange) :
    rScale c r x = c.mid + rescaledMag c r (x - c.mid) :=
  if_pos h

@[simp] theorem rScale_mid (c : Cfg) (r : PotRange) : rScale c r c.mid = c.mid := by
  simp [rScale_of_mid_le le_rfl]

theorem rScale_of_le_mid {c : Cfg} {x : Nat} (h : x ≤ c.mid) (r : PotRange) :
    rScale c r x = c.mid - rescaledMag c r (c.mid - x) := by
  rcases h.eq_or_lt with rfl | hlt
  · simp
  · exact if_neg (Nat.not_le.2 hlt)

/-- R240 (b): the magnitude is the same on both sides, the sign is not. -/
theorem rScale_symm {c : Cfg} (r : PotRange) {d : Nat} (h : d ≤ c.mid) :
    rScale c r (c.mid + d) - c.mid = -(rScale c r (c.mid - d) - c.mid) := by
  rw [rScale_of_mid_le (Nat.le_add_right _ _), rScale_of_le_mid (Nat.sub_le _ _), Nat.add_sub_cancel_left,
    Nat.sub_sub_self h]
  omega

/-- R241: above the midpoint the result lies between it and the code. -/
theorem rScale_between_of_mid_le {c : Cfg} (hc : c.Bounds) (r : PotRange) {x : Nat} (h : c.mid ≤ x) :
    (c.mid : Int) ≤ rScale c r x ∧ rScale c r x ≤ x := by
  have hle := rescaledMag_le hc r (x - c.mid)
  rw [rScale_of_mid_le h]
  omega

/-- R241: below the midpoint the result lies between the code and it. -/
theorem rScale_between_of_le_mid {c : Cfg} (hc : c.Bounds) (r : PotRange) {x : Nat} (h : x ≤ c.mid) :
    (x : Int) ≤ rScale c r x ∧ rScale c r x ≤ c.mid := by
  have hle := rescaledMag_le hc r (c.mid - x)
  rw [rScale_of_le_mid h]
  omega

/-- R241: on each side the magnitude keeps the order, and the midpoint separates the sides. -/
theorem rScale_mono (c : Cfg) (r : PotRange) : Monotone (rScale c r) := by
  intro x y hxy
  rcases le_total c.mid x with hx | hx
  · have hmag := rescaledMag_mono c r (Nat.sub_le_sub_right hxy c.mid)
    rw [rScale_of_mid_le hx, rScale_of_mid_le (hx.trans hxy)]
    omega
  · rcases le_total c.mid y with hy | hy
    · rw [rScale_of_le_mid hx, rScale_of_mid_le hy]
      omega
    · have hmag := rescaledMag_mono c r (Nat.sub_le_sub_left hxy c.mid)
      rw [rScale_of_le_mid hx, rScale_of_le_mid hy]
      omega

/-! ## The statements -/

/-- Settles O49: the two sides, the codes (`rScale_mem`) and the order; the ends under TC0 are evaluated. -/
theorem rescaleRange : Obligations.RescaleRange := by
  refine ⟨fun c r x hcfg hx => ?_, by decide⟩
  have hb := Cfg.bounds_of_wf hcfg
  obtain ⟨hlo, hhi⟩ := rScale_mem hb r (hb.codeMax.symm ▸ hx)
  rw [hb.codeMax] at hhi
  exact ⟨rScale_between_of_mid_le hb r, rScale_between_of_le_mid hb r, hlo, hhi, fun _ hxy _ => rScale_mono c r hxy⟩

/-- Settles O48: the word holds the rescaled code, which the lemmas of the two sides write out. -/
theorem rescaleWord : Obligations.RescaleWord := by
  intro s r code hcfg
  have hb := Cfg.bounds_of_wf hcfg
  obtain ⟨t, hexec, hvalue⟩ := exists_functionOp (.rScale r code)
    (v := some (.int (rScale s.cfg r code.toNat))) rfl s
  refine ⟨⟨t, hexec, fun hge => ?_, fun hlt => ?_⟩, rScale_mid _ _, fun _ => rScale_symm r⟩
  · rw [rScale_of_mid_le hge, rescaledMag_eq hb, targetSpan_eq hb] at hvalue
    exact hvalue
  · rw [rScale_of_le_mid hlt.le, rescaledMag_eq hb, targetSpan_eq hb] at hvalue
    exact hvalue

end Sys2Proof.Machine

/-! # Proofs: the main loop (O50 to O53)

First the polls by themselves (O50, O51), then who writes what: MAIN's operations (O52), the other operations, and the
step memory along a `LOOP` (O53). -/

namespace Sys2Proof.Machine

/-! ## The polls (O50, O51) -/

section
variable {s : State}

theorem pollClockSource_of_agree (h : s.pinLevel.extClkEn = s.externalTrigger) : pollClockSource s = s := by
  unfold pollClockSource
  cases hext : s.externalTrigger <;> simp [h, hext]

theorem pollClockSource_of_enter (hsw : s.pinLevel.extClkEn = true) (hext : s.externalTrigger = false) :
    pollClockSource s = extclkEnter s := by
  simp [pollClockSource, hsw, hext]

theorem pollClockSource_of_leave (hsw : s.pinLevel.extClkEn = false) (hext : s.externalTrigger = true) :
    pollClockSource s = extclkLeave s := by
  simp [pollClockSource, hsw, hext]

end

/-- Settles O50: the poll is recorded and then has one case for each answer of `pollClockSource`; the transitions by
themselves are what it calls. -/
theorem switchPoll : Obligations.SwitchPoll := by
  intro s hpow
  have hpoll : exec .lPollsw s = .next (lPollsw (s.noted 0x70000000#32)) :=
    engineOp_of_powered .lPollsw lPollsw s hpow
  refine ⟨fun hagree => ?_, fun hsw hext => ?_, fun hsw hext => ?_,
    engineOp_of_powered .extclkEnter extclkEnter s hpow, engineOp_of_powered .extclkLeave extclkLeave s hpow⟩
  · rw [hpoll, lPollsw, pollClockSource_of_agree (by exact hagree)]
  · rw [hpoll, lPollsw, pollClockSource_of_enter (by exact hsw) (by exact hext)]
    rfl
  · rw [hpoll, lPollsw, pollClockSource_of_leave (by exact hsw) (by exact hext)]
    rfl

/-- R254: `L.MODE` as one update. -/
theorem lMode_eq (s : State) :
    lMode s = { s with
      recording := s.recording ^^ s.modeTogglePending, modeTogglePending := false, lpos := .scale } := by
  rcases lMode_cases s with ⟨hset, he⟩ | ⟨hclear, he⟩ <;> rw [he]
  · simp [hset]
  · simp [hclear]

/-- R255: `L.SCALE` as one update. -/
theorem lScale_eq (s : State) :
    lScale s = { s with
      activeScale := if s.scaleTogglePending then nextScale s.cfg s.activeScale else s.activeScale
      scaleTogglePending := false, lpos := .range } := by
  rcases lScale_cases s with ⟨hset, he⟩ | ⟨hclear, he⟩ <;> rw [he]
  · simp [hset]
  · simp [hclear]

/-- R256: `L.RANGE` as one update. -/
theorem lRange_eq (s : State) :
    lRange s = { s with
      potRange := if s.rangeTogglePending then nextRange s.potRange else s.potRange
      rangeTogglePending := false, lpos := .step } := by
  rcases lRange_cases s with ⟨hset, he⟩ | ⟨hclear, he⟩ <;> rw [he]
  · simp [hset]
  · simp [hclear]

/-- R255: in a well-formed configuration the next scale fits its 4 bits. -/
theorem toNat_nextScale {c : Cfg} (h : c.Bounds) (scale : BitVec 4) :
    (nextScale c scale).toNat = (scale.toNat + 1) % c.nScales := by
  have hn := h.nScales
  have hlt : (scale.toNat + 1) % c.nScales < c.nScales := Nat.mod_lt _ (by omega)
  rw [nextScale, BitVec.toNat_ofNat, Nat.mod_eq_of_lt (by omega)]

/-- R256: the three ranges go round in the order of their numbers. -/
theorem number_nextRange (r : PotRange) : (nextRange r).number.toNat = (r.number.toNat + 1) % 3 := by
  cases r <;> rfl

/-- Settles O51: each poll is recorded and then is its one update; `toNat_nextScale` and `number_nextRange` have the
cycles. -/
theorem pollOperations : Obligations.PollOperations := by
  intro s hpow hcfg
  have hmode : exec .lMode s = .next (lMode (s.noted 0x71000000#32)) := engineOp_of_powered .lMode lMode s hpow
  have hscale : exec .lScale s = .next (lScale (s.noted 0x72000000#32)) := engineOp_of_powered .lScale lScale s hpow
  have hrange : exec .lRange s = .next (lRange (s.noted 0x73000000#32)) := engineOp_of_powered .lRange lRange s hpow
  refine ⟨hmode.trans (by rw [lMode_eq]), ⟨_, hscale.trans (by rw [lScale_eq]), ?_⟩,
    ⟨_, hrange.trans (by rw [lRange_eq]), ?_⟩, engineOp_of_powered .lStep lStep s hpow⟩
  · rw [apply_ite BitVec.toNat, toNat_nextScale (Cfg.bounds_of_wf hcfg)]
  · rw [apply_ite fun r : PotRange => r.number.toNat, number_nextRange]

/-! ## What MAIN's operations write (O52) -/

/-- What operation `i` of MAIN, which takes `s` to `t`, leaves alone: it sets no pending flag, it writes neither
`tempo_delay_ms` nor the press time, only `STEP.S4` writes the memory and only `STEP.S8` its index (R258, R29). -/
structure MainWrites (i : Instr) (s t : State) : Prop where
  trigger : t.triggerPending = true → s.triggerPending = true
  modeToggle : t.modeTogglePending = true → s.modeTogglePending = true
  scaleToggle : t.scaleTogglePending = true → s.scaleTogglePending = true
  rangeToggle : t.rangeTogglePending = true → s.rangeTogglePending = true
  tempo : t.tempoDelayMs = s.tempoDelayMs
  pressTime : t.modeButtonPressTime = s.modeButtonPressTime
  memory : i ≠ .stepS4 → t.memory = s.memory
  memoryIndex : i ≠ .stepS8 → t.memoryIndex = s.memoryIndex

namespace MainWrites

variable {i : Instr} {s t u : State}

theorem trans (hst : MainWrites i s t) (htu : MainWrites i t u) : MainWrites i s u where
  trigger := hst.trigger ∘ htu.trigger
  modeToggle := hst.modeToggle ∘ htu.modeToggle
  scaleToggle := hst.scaleToggle ∘ htu.scaleToggle
  rangeToggle := hst.rangeToggle ∘ htu.rangeToggle
  tempo := htu.tempo.trans hst.tempo
  pressTime := htu.pressTime.trans hst.pressTime
  memory h := (htu.memory h).trans (hst.memory h)
  memoryIndex h := (htu.memoryIndex h).trans (hst.memoryIndex h)

/-- An update that writes none of these fields. -/
theorem of_eq (htrig : t.triggerPending = s.triggerPending := by rfl)
    (hmode : t.modeTogglePending = s.modeTogglePending := by rfl)
    (hscale : t.scaleTogglePending = s.scaleTogglePending := by rfl)
    (hrange : t.rangeTogglePending = s.rangeTogglePending := by rfl)
    (htempo : t.tempoDelayMs = s.tempoDelayMs := by rfl)
    (hpress : t.modeButtonPressTime = s.modeButtonPressTime := by rfl)
    (hmem : t.memory = s.memory := by rfl) (hindex : t.memoryIndex = s.memoryIndex := by rfl) :
    MainWrites i s t :=
  ⟨htrig ▸ id, hmode ▸ id, hscale ▸ id, hrange ▸ id, htempo, hpress, fun _ => hmem, fun _ => hindex⟩

theorem record (s : State) (j : Instr) : MainWrites i s (s.record j) := by
  apply of_eq <;> simp

theorem stepS4 (s : State) : MainWrites .stepS4 s (stepS4 s) := by
  rcases stepS4_cases s with ⟨-, he⟩ | ⟨-, he⟩ <;> rw [he]
  · exact of_eq
  · rcases memWrite_cases s s.memoryIndex.toNat s.sSample with ⟨-, hw⟩ | ⟨-, hw⟩ <;> rw [hw] <;>
      exact ⟨id, id, id, id, rfl, rfl, fun hne => absurd rfl hne, fun _ => rfl⟩

theorem lPollsw (s : State) : MainWrites .lPollsw s (lPollsw s) := by
  have hpoll : MainWrites .lPollsw s (pollClockSource s) := by
    rcases pollClockSource_cases s with ⟨-, -, he⟩ | ⟨-, -, he⟩ | ⟨-, he⟩ <;> rw [he] <;> exact of_eq
  exact hpoll.trans of_eq

theorem engineEffect (h : i.agent = .main) (s : State) : MainWrites i s (engineEffect i s) := by
  cases i with
  | lMode =>
    rw [Machine.engineEffect, lMode_eq]
    exact ⟨id, nofun, id, id, rfl, rfl, fun _ => rfl, fun _ => rfl⟩
  | lScale =>
    rw [Machine.engineEffect, lScale_eq]
    exact ⟨id, id, nofun, id, rfl, rfl, fun _ => rfl, fun _ => rfl⟩
  | lRange =>
    rw [Machine.engineEffect, lRange_eq]
    exact ⟨id, id, id, nofun, rfl, rfl, fun _ => rfl, fun _ => rfl⟩
  | stepS9 => exact ⟨nofun, id, id, id, rfl, rfl, fun _ => rfl, fun _ => rfl⟩
  | stepS8 => exact ⟨id, id, id, id, rfl, rfl, fun _ => rfl, fun hne => absurd rfl hne⟩
  | stepS4 => exact stepS4 s
  | lPollsw => exact lPollsw s
  | muxSet idx =>
    rw [Machine.engineEffect, muxSet_eq]
    exact of_eq
  | stepS1 =>
    rw [Machine.engineEffect, stepS1_eq]
    exact of_eq
  | stepS2 =>
    obtain ⟨code, k, he⟩ := stepS2_eq s
    rw [Machine.engineEffect, he]
    exact of_eq
  | stepS5 =>
    obtain ⟨q, k, he⟩ := stepS5_eq s
    rw [Machine.engineEffect, he]
    exact of_eq
  | stepS6 => rcases stepS6_cases s with ⟨-, -, he⟩ | ⟨-, he⟩ <;> rw [Machine.engineEffect, he] <;> exact of_eq
  | clkReset | clkCancel | muxSettle | stepS3 | stepS7 | lStep | extclkEnter | extclkLeave => exact of_eq
  | _ => cases h

theorem perform (h : i.agent = .main) (s : State) : MainWrites i s (perform i (Machine.engineEffect i) s) :=
  (record s i).trans (engineEffect h _)

theorem exec (h : i.agent = .main) (hne : i ≠ .muxSettle) (he : exec i s = .next t) : MainWrites i s t := by
  obtain ⟨-, rfl⟩ := engineOp_eq_next.1 (exec_of_main h hne s ▸ he)
  exact perform h s

end MainWrites

/-- Settles O52: the first clauses of `MainWrites`. -/
theorem mainSetsNoFlag : Obligations.MainSetsNoFlag := by
  intro i s t hmain hne h
  have hwrites := MainWrites.exec hmain hne h
  exact ⟨hwrites.trigger, hwrites.modeToggle, hwrites.scaleToggle, hwrites.rangeToggle, hwrites.tempo,
    hwrites.pressTime⟩

/-! ## MAIN's part of the state (O53) -/

theorem CallbackFrame.dispatch {s t : State} (h : dispatch s = .next t) : CallbackFrame s t := by
  rcases dispatch_eq_next.1 h with ⟨-, rfl⟩ | ⟨-, hrun⟩
  · exact refl _
  · exact runDue hrun

/-- The fields that R258 and R299 leave to MAIN: the memory and its index, the modes, the multiplexer lines, the bus,
and MAIN's own place and latches. -/
structure MainOwned where
  memory : Memory
  memoryIndex : BitVec 4
  recording : Bool
  externalTrigger : Bool
  quantizeMode : QMode
  activeScale : BitVec 4
  potMode : Bool
  potRange : PotRange
  muxA : BitVec 3
  muxInh0 : Bool
  muxInh1 : Bool
  muxSetTime : Nat
  outtrace : List (Nat × OutEvent)
  seq : Seq
  lpos : LPos
  sSample : Sample
  sOut : BitVec 32

/-- MAIN's part of a state. -/
def State.mainOwned (s : State) : MainOwned :=
  ⟨s.memory, s.memoryIndex, s.recording, s.externalTrigger, s.quantizeMode, s.activeScale, s.potMode, s.potRange,
    s.muxA, s.muxInh0, s.muxInh1, s.muxSetTime, s.outtrace, s.seq, s.lpos, s.sSample, s.sOut⟩

theorem mainOwned_record (s : State) (i : Instr) : (s.record i).mainOwned = s.mainOwned := by
  unfold State.record
  split <;> rfl

theorem CallbackFrame.mainOwned_eq {s t : State} (h : CallbackFrame s t) : t.mainOwned = s.mainOwned := by
  rw [h]
  rfl

/-- R299: no handler writes MAIN's part. -/
theorem mainOwned_engineEffect_of_int {i : Instr} (h : i.agent = .int) (s : State) :
    (engineEffect i s).mainOwned = s.mainOwned := by
  cases i with
  | tbRecheck =>
    rw [engineEffect, tbRecheck_eq]
    rfl
  | mbFall => rcases mbFall_cases s with he | he | he <;> rw [engineEffect, he] <;> rfl
  | clkTrig | xtRise =>
    simp only [engineEffect, xtRise, clkTrig_eq]
    rfl
  | tbRise | mbRise | xmRise | clkAnt | tempoRead | trigOff => rfl
  | _ => cases h

theorem mainOwned_perform_of_int {i : Instr} (h : i.agent = .int) (s : State) :
    (engineEffect i (s.record i)).mainOwned = s.mainOwned :=
  (mainOwned_engineEffect_of_int h _).trans (mainOwned_record s i)

/-- R273: a driven pin runs at most a handler. -/
theorem mainOwned_drivePin (p : Pin) (level : BitVec 2) (v : PinSetting) (s : State) :
    (drivePin p level v s).mainOwned = s.mainOwned := by
  have hedge (old : BitVec 2) (u : State) : (runEdge p old level u).mainOwned = u.mainOwned := by
    rcases runEdge_cases p old level u with ⟨i, body, hbody, hrun⟩ | ⟨-, hrun⟩ <;> rw [hrun]
    obtain ⟨hmem, rfl⟩ := edgeHandler_eq_some hbody
    have hint : ∀ j ∈ [Instr.tbRise, .mbRise, .mbFall, .xtRise, .xmRise], j.agent = .int := by decide
    exact mainOwned_perform_of_int (hint i hmem) u
  have hrecord := mainOwned_record s (.pin p level)
  unfold drivePin
  split
  · exact (hedge _ _).trans hrecord
  · exact hrecord

/-- R258, R299: what is not MAIN's leaves MAIN's part, by the agent that performs it. -/
theorem mainOwned_exec {i : Instr} {s t : State} (hi : i ≠ .reset) (hmain : i.agent ≠ .main) (hloop : i ≠ .loop)
    (h : exec i s = .next t) : t.mainOwned = s.mainOwned := by
  cases hagent : i.agent with
  | main => exact absurd hagent hmain
  | int =>
    obtain ⟨-, rfl⟩ := engineOp_eq_next.1 (exec_of_int hagent s ▸ h)
    exact mainOwned_perform_of_int hagent s
  | function =>
    obtain ⟨v, hv⟩ := exec_of_function hagent s
    obtain ⟨x, -, rfl⟩ := functionOp_eq_next.1 (hv ▸ h)
    exact mainOwned_record s i
  | env =>
    cases i with
    | reset => exact absurd rfl hi
    | loop => exact absurd rfl hloop
    | adv d =>
      obtain ⟨-, hadv⟩ := execAdv_eq_next.1 h
      exact (CallbackFrame.advanceTo hadv).mainOwned_eq.trans (mainOwned_record s _)
    | pin p level =>
      obtain ⟨v, -, rfl⟩ := execPin_eq_next.1 h
      exact mainOwned_drivePin p level v s
    | ain chan code =>
      cases h
      exact mainOwned_record s _
    | _ => cases hagent

/-! ## The step memory along MAIN's operations (O53) -/

/-- The memory and its index are those of `s`. -/
structure KeepsStore (s t : State) : Prop where
  memory : t.memory = s.memory
  memoryIndex : t.memoryIndex = s.memoryIndex

theorem CallbackFrame.keepsStore {s t : State} (h : CallbackFrame s t) : KeepsStore s t :=
  ⟨congrArg MainOwned.memory h.mainOwned_eq, congrArg MainOwned.memoryIndex h.mainOwned_eq⟩

namespace KeepsStore

variable {s t u : State}

theorem refl (s : State) : KeepsStore s s := ⟨rfl, rfl⟩

theorem trans (hst : KeepsStore s t) (htu : KeepsStore t u) : KeepsStore s u :=
  ⟨htu.memory.trans hst.memory, htu.memoryIndex.trans hst.memoryIndex⟩

theorem record (s : State) (i : Instr) : KeepsStore s (s.record i) := ⟨record_memory s i, record_memoryIndex s i⟩

theorem settleWait (h : settleWait s = .next t) : KeepsStore s t := by
  obtain ⟨u, hadv, hrec⟩ := andThen_eq_next.1 h
  cases hrec
  exact (CallbackFrame.advanceTo hadv).keepsStore.trans (record u _)

theorem mainOp {i : Instr} (hmain : i.agent = .main) (hstore : i ≠ .stepS4) (hadvance : i ≠ .stepS8)
    (h : mainOp i (engineEffect i) s = .next t) : KeepsStore s t := by
  have hwrites := MainWrites.perform hmain s
  exact trans ⟨hwrites.memory hstore, hwrites.memoryIndex hadvance⟩ (CallbackFrame.dispatch h).keepsStore

/-- A row of MAIN operations without `STEP.S4` and `STEP.S8`. -/
theorem mainOps {ops : List (Instr × (State → State))} (heff : ∀ o ∈ ops, o.2 = engineEffect o.1)
    (hops : ∀ o ∈ ops, o.1.agent = .main ∧ o.1 ≠ .stepS4 ∧ o.1 ≠ .stepS8) (h : mainOps ops s = .next t) :
    KeepsStore s t := by
  refine mainOps_keeps (P := KeepsStore s) ops (fun o ho u v hu hv => ?_) h (refl s)
  obtain ⟨hmain, hstore, hadvance⟩ := hops o ho
  exact hu.trans (mainOp hmain hstore hadvance (heff o ho ▸ hv))

end KeepsStore

theorem memory_mainOp {i : Instr} {s t : State} (hmain : i.agent = .main) (hstore : i ≠ .stepS4)
    (h : mainOp i (engineEffect i) s = .next t) : t.memory = s.memory :=
  (CallbackFrame.dispatch h).keepsStore.memory.trans ((MainWrites.perform hmain s).memory hstore)

/-- A row of MAIN operations without `STEP.S4` keeps the memory, also where it advances the index. -/
theorem memory_mainOps {ops : List (Instr × (State → State))} (heff : ∀ o ∈ ops, o.2 = engineEffect o.1)
    (hops : ∀ o ∈ ops, o.1.agent = .main ∧ o.1 ≠ .stepS4) {s t : State} (h : mainOps ops s = .next t) :
    t.memory = s.memory := by
  refine mainOps_keeps (P := fun m => m.memory = s.memory) ops (fun o ho u v hu hv => ?_) h rfl
  obtain ⟨hmain, hstore⟩ := hops o ho
  exact (memory_mainOp hmain hstore (heff o ho ▸ hv)).trans hu

/-- R184: `STEP.S4` leaves every word but the one at the index. -/
theorem stepS4_read_other {s : State} (hwf : s.memory.wf = true) {a : Nat} (ha : a ≠ s.memoryIndex.toNat) :
    (stepS4 s).memory.read a = s.memory.read a := by
  rcases stepS4_cases s with ⟨-, he⟩ | ⟨-, he⟩ <;> rw [he]
  rcases memWrite_cases s s.memoryIndex.toNat s.sSample with ⟨-, hw⟩ | ⟨-, hw⟩ <;> rw [hw]
  · exact Memory.read_write_other _ _ _ _ hwf ha
  · rfl

theorem mainOps_append (ops more : List (Instr × (State → State))) (s : State) :
    mainOps (ops ++ more) s = andThen (mainOps ops s) (mainOps more) := by
  induction ops generalizing s with
  | nil => rfl
  | cons o rest ih =>
    obtain ⟨i, body⟩ := o
    rw [List.cons_append, mainOps_cons, mainOps_cons, andThen_assoc]
    exact congrArg _ (funext ih)

/-- The micro-steps before the store and after it (R180). -/
theorem sampleOps_split : sampleOps = sampleOps.take 2 ++ (.stepS4, stepS4) :: sampleOps.drop 3 := rfl

/-- R180, R184: the micro-steps of a run store at the index the run began with, which advances after the store. -/
theorem sampleOps_read_other {s t : State} (hwf : s.memory.wf = true) {a : Nat} (ha : a ≠ s.memoryIndex.toNat)
    (h : mainOps sampleOps s = .next t) : t.memory.read a = s.memory.read a := by
  rw [sampleOps_split, mainOps_append, andThen_eq_next] at h
  obtain ⟨u, hbefore, h⟩ := h
  obtain ⟨v, hstore, hafter⟩ := andThen_eq_next.1 (mainOps_cons _ _ _ u ▸ h)
  have hu : KeepsStore s u :=
    .mainOps (fun o ho => sampleOps_effect o (List.mem_of_mem_take ho)) (by simp [sampleOps, Instr.agent]) hbefore
  have hv : v.memory = (stepS4 (u.record .stepS4)).memory := (CallbackFrame.dispatch hstore).keepsStore.memory
  have ht : t.memory = v.memory :=
    memory_mainOps (fun o ho => sampleOps_effect o (List.mem_of_mem_drop ho)) (by simp [sampleOps, Instr.agent]) hafter
  have hrec := hu.trans (.record u .stepS4)
  rw [ht, hv, stepS4_read_other (by rwa [hrec.memory]) (by rwa [hrec.memoryIndex]), hrec.memory]

/-- R275: an iteration of the main loop leaves every word but the one at the index it began with. -/
theorem iteration_read_other {s t : State} (hwf : s.memory.wf = true) {a : Nat} (ha : a ≠ s.memoryIndex.toNat)
    (h : iteration s = .next t) : t.memory.read a = s.memory.read a := by
  obtain ⟨u, hpolls, hrun⟩ := iteration_eq_next.1 h
  have hu : KeepsStore s u := .mainOps pollOps_effect (by simp [pollOps, Instr.agent]) hpolls
  rcases hrun with ⟨-, hrun⟩ | ⟨-, rfl⟩
  · obtain ⟨v, w, haddress, hwait, hsteps⟩ := runPipeline_eq_next.1 hrun
    have hv : KeepsStore u v := .mainOp (i := .stepS1) rfl (by decide) (by decide) haddress
    have hw := (hu.trans hv).trans (.settleWait hwait)
    rw [sampleOps_read_other (by rwa [hw.memory]) (by rwa [hw.memoryIndex]) hsteps, hw.memory]
  · rw [hu.memory]

/-- R258: no operation but `RESET`, `STEP.S4` and `LOOP` writes the memory. -/
theorem memory_exec {i : Instr} {s t : State} (hreset : i ≠ .reset) (hstore : i ≠ .stepS4) (hloop : i ≠ .loop)
    (h : exec i s = .next t) : t.memory = s.memory := by
  by_cases hmain : i.agent = .main
  · by_cases hsettle : i = .muxSettle
    · subst hsettle
      exact (KeepsStore.settleWait (execMuxSettle_eq_next.1 h).2).memory
    · exact (MainWrites.exec hmain hsettle h).memory hstore
  · exact congrArg MainOwned.memory (mainOwned_exec hreset hmain hloop h)

/-- R184, R258: an operation other than `RESET` leaves every word of the memory but the one at the index. -/
theorem exec_read_other {i : Instr} {s t : State} (hreset : i ≠ .reset) (h : exec i s = .next t)
    (hwf : s.memory.wf = true) {a : Nat} (ha : a ≠ s.memoryIndex.toNat) : t.memory.read a = s.memory.read a := by
  by_cases hloop : i = .loop
  · subst hloop
    obtain ⟨-, -, -, hiter⟩ := execLoop_eq_next.1 h
    have hrec := KeepsStore.record s .loop
    rw [iteration_read_other (by rwa [hrec.memory]) (by rwa [hrec.memoryIndex]) hiter, hrec.memory]
  · by_cases hstore : i = .stepS4
    · subst hstore
      obtain ⟨-, rfl⟩ := engineOp_eq_next.1 h
      have hrec := KeepsStore.record s .stepS4
      rw [stepS4_read_other (by rwa [hrec.memory]) (by rwa [hrec.memoryIndex]), hrec.memory]
    · rw [memory_exec hreset hstore hloop h]

/-- Settles O53: `mainOwned_exec` for the operations that are not MAIN's, `memory_exec` and `exec_read_other` for the
memory. -/
theorem onlyMainWrites : Obligations.OnlyMainWrites := by
  intro i s t hreset h
  refine ⟨fun hmain hloop => ?_, fun hstore hloop => memory_exec hreset hstore hloop h,
    fun hwf a ha => exec_read_other hreset h hwf ha⟩
  simpa only [State.mainOwned, MainOwned.mk.injEq] using mainOwned_exec hreset hmain hloop h

end Sys2Proof.Machine

/-! # Proofs: the environment, the turns and the reference schedule (O5 to O8, O10, O12, O14 to O18, O59, O60)

First the callbacks and the passage of time (O15, O17, O18), then single words (O10, O12, O14), the turns and the
scripts that make them (O5 to O7), one iteration of the main loop (O16) and what follows from it for every step (O8,
O59), and the reference schedule as a run of the general relation (O60). -/

namespace Sys2Proof.Machine

/-! ## The order of the callbacks (O18) -/

/-- R276, R297: where the first of two callbacks is of a higher slot than the ones in front, it is not one of them, and
strictly earlier. -/
theorem Armed.first_of_slot_lt {α : Type} {x : Option α} {f : α → Armed} {y : Option Armed} {c : Armed} {n : Nat}
    (h : Armed.first (x.map f) y = some c) (hf : ∀ a, (f a).1.slot.number ≤ n) (hn : n < c.1.slot.number) :
    y = some c ∧ ∀ a, x = some a → c.2 < (f a).2 := by
  rcases Armed.first_eq_some h with ⟨hfront, -⟩ | ⟨hy, hlt⟩
  · obtain ⟨a, -, rfl⟩ := Option.map_eq_some_iff.1 hfront
    exact absurd hn (not_lt.2 (hf a))
  · exact ⟨hy, fun a ha => hlt _ (by rw [ha, Option.map_some])⟩

/-- R276, R297: the callback that goes next is strictly earlier than every armed slot below its own number. -/
theorem Alarms.next_lt_of_lower_slot {a : Alarms} {c : Armed} {slot : Slot} {d : Nat} (hnext : a.next = some c)
    (hd : a.deadline slot = some d) (hlower : slot.number < c.1.slot.number) : c.2 < d := by
  cases slot with
  | beat =>
    obtain ⟨b, hb, rfl⟩ := Option.map_eq_some_iff.1 hd
    exact (Armed.first_of_slot_lt hnext (fun _ => le_rfl) hlower).2 b hb
  | debounce =>
    obtain ⟨hrest, -⟩ := Armed.first_of_slot_lt hnext (fun _ => le_rfl) (Nat.zero_lt_of_lt hlower)
    exact (Armed.first_of_slot_lt hrest (fun _ => le_rfl) hlower).2 d hd
  | trigOff =>
    obtain ⟨hrest, -⟩ := Armed.first_of_slot_lt hnext (fun _ => le_rfl) (Nat.zero_lt_of_lt hlower)
    obtain ⟨hrest, -⟩ := Armed.first_of_slot_lt hrest (fun _ => le_rfl) (Nat.lt_of_succ_lt hlower)
    exact (Armed.first_of_slot_lt hrest (fun _ => le_rfl) hlower).2 d hd
  | tempo =>
    have hlast : c.1.slot.number ≤ 3 := by cases c.1.slot <;> decide
    exact absurd hlower (not_lt.2 hlast)

/-- R276: nothing is due exactly where every armed deadline lies beyond the target. -/
theorem due_eq_none_iff_deadline {s : State} {target : Nat} :
    s.due target = none ↔ ∀ (slot : Slot) (d : Nat), s.alarm.deadline slot = some d → target < d := by
  constructor
  · intro hnone slot d hd
    exact not_le.1 fun hle => due_ne_none_of_deadline hd hle hnone
  · exact fun h => due_eq_none.2 fun c hnext => h _ _ (deadline_of_next hnext)

/-- Settles O18: the callback that goes next is no later than any armed slot (`next_le_deadline`), and strictly earlier
than a slot below its own number (`next_lt_of_lower_slot`). -/
theorem callbackOrder : Obligations.CallbackOrder := by
  intro s target
  refine ⟨fun ev d hdue => ?_, due_eq_none_iff_deadline⟩
  obtain ⟨hnext, hle⟩ := due_eq_some.1 hdue
  refine ⟨deadline_of_next hnext, hle, fun slot d' hd' => ?_⟩
  obtain ⟨c, hc, hearliest⟩ := Alarms.next_le_deadline hd'
  obtain rfl : (ev, d) = c := Option.some.inj (hnext.symm.trans hc)
  rcases hearliest.lt_or_eq with hlt | heq
  · exact .inl hlt
  · exact .inr ⟨heq, not_lt.1 fun hlower => (Alarms.next_lt_of_lower_slot hnext hd' hlower).ne heq⟩

/-! ## The dispatch and the passage of time (O15, O17) -/

/-- R276: firing what is due up to now does not move the clock. -/
theorem runDue_nowUs {fuel : Nat} {s t : State} (h : runDue s.nowUs fuel s = some t) : t.nowUs = s.nowUs :=
  runDue_keeps (P := fun u => u.nowUs = s.nowUs)
    (fun u c hu hdue => by rw [fire_nowUs, hu]; exact max_eq_left (due_eq_some.1 hdue).2) h rfl

/-- R276: the dispatch takes no time. -/
theorem dispatch_nowUs {s t : State} (h : dispatch s = .next t) : t.nowUs = s.nowUs := by
  rcases dispatch_eq_next.1 h with ⟨-, rfl⟩ | ⟨-, hrun⟩
  · rfl
  · exact runDue_nowUs hrun

/-- R276: where the beat chain advances, or no alarm exists, the dispatch comes to an end. -/
theorem exists_dispatch {s : State} (hlive : s.powered = true → ChainLive s) : ∃ t, dispatch s = .next t := by
  cases hpow : s.powered with
  | false => exact ⟨s, dispatch_eq_next.2 (.inl ⟨hpow, rfl⟩)⟩
  | true =>
    obtain ⟨t, hrun⟩ := exists_runDue (hlive hpow) s.nowUs
    exact ⟨t, dispatch_eq_next.2 (.inr ⟨hpow, hrun⟩)⟩

/-- R276: the dispatch of a powered engine leaves nothing due. -/
theorem dispatch_nothingDue {s t : State} (hpow : s.powered = true) (h : dispatch s = .next t) : NothingDue t := by
  rcases dispatch_eq_next.1 h with ⟨hoff, -⟩ | ⟨-, hrun⟩
  · exact absurd (hpow.symm.trans hoff) (by decide)
  · rw [NothingDue, runDue_nowUs hrun]
    exact runDue_done hrun

/-- Settles O17: the dispatch has the frame of the callbacks, and takes no time. -/
theorem dispatchSettles : Obligations.DispatchSettles := by
  intro s hpow hlive
  refine ⟨?_, dispatch_of_none s⟩
  obtain ⟨t, hd⟩ := exists_dispatch fun _ => hlive
  refine ⟨t, hd, dispatch_nothingDue hpow hd, ?_⟩
  have hframe := CallbackFrame.dispatch hd
  unfold CallbackFrame at hframe
  rwa [dispatch_nowUs hd] at hframe

/-- Settles O15: the word is recorded, the callbacks on the way have their frame, and the clock is set to the end. -/
theorem advPassesTime : Obligations.AdvPassesTime := by
  intro s d hpow hlive
  obtain ⟨u, hrun, hexec⟩ := exists_exec_adv d hpow hlive
  have hnote : CallbackFrame s (s.record (.adv d)) := by
    rw [record_of_powered _ _ hpow]
    rfl
  have hend : CallbackFrame u { u with nowUs := s.nowUs + d.toNat } := rfl
  have hnone : u.due (s.nowUs + d.toNat) = none := runDue_done hrun
  exact ⟨_, hexec, rfl, hnone, (hnote.trans (.runDue hrun)).trans hend⟩

/-- R301: where nothing is due, nothing is due after a slot is disarmed. -/
theorem nothingDue_disarm {s : State} (h : NothingDue s) (slot : Slot) :
    NothingDue { s with alarm := s.alarm.disarm slot } := by
  refine due_eq_none_iff_deadline.2 fun other d hd => due_eq_none_iff_deadline.1 h other d ?_
  have hother : other ≠ slot := by
    rintro rfl
    cases hd.symm.trans (Alarms.deadline_disarm_same ..)
  exact (Alarms.deadline_disarm_other _ _ _ hother).symm.trans hd

/-- R276: a beat whose time has come is due first where no other slot's has. -/
theorem due_beat {s : State} {b : BeatAlarm} (hbeat : s.alarm.beat = some b) (hle : b.deadline ≤ s.nowUs)
    (hothers : ∀ slot ≠ .beat, ∀ d, s.alarm.deadline slot = some d → s.nowUs < d) :
    s.due s.nowUs = some (.beat b.phase, b.deadline) := by
  have harmed : s.alarm.deadline .beat = some b.deadline := by rw [Alarms.deadline, hbeat, Option.map_some]
  obtain ⟨c, hnext, -⟩ := Alarms.next_le_deadline harmed
  rcases beat_or_other_of_next hbeat hnext with rfl | ⟨hslot, hc⟩
  · exact due_eq_some.2 ⟨hnext, hle⟩
  · exact absurd (hothers _ hslot _ (deadline_of_next hnext)) (not_lt.2 (hc.trans hle))

/-- R276: the callback that is due fires, and then what is due after it. -/
theorem runDue_succ_of_due {target fuel : Nat} {s : State} {c : Armed} (h : s.due target = some c) :
    runDue target (fuel + 1) s = runDue target fuel (s.fire c) := by
  simp only [runDue, h]

/-- R276: a dispatch of one callback, after which nothing is due. -/
theorem dispatch_of_due {s : State} {c : Armed} (hpow : s.powered = true) (hdue : s.due s.nowUs = some c)
    (hafter : NothingDue (s.fire c)) : dispatch s = .next (s.fire c) := by
  rw [NothingDue, fire_nowUs, max_eq_left (due_eq_some.1 hdue).2] at hafter
  have hrun : runDue s.nowUs (s.nowUs + 3 + 1) s = some (s.fire c) :=
    (runDue_succ_of_due hdue).trans (runDue_of_none _ _ _ hafter)
  exact dispatch_eq_next.2 (.inr ⟨hpow, hrun⟩)

/-! ## The words of the environment (O10, O12, O14) -/

/-- Settles O10: the engine is a closed state, so `RESET` runs on it; the two latches and the counter are what it
draws. -/
theorem powerUp : Obligations.PowerUp := ⟨_, _, _, rfl⟩

/-- R80, R82, R274: the word of `AIN`. -/
theorem encode_ain (chan : Fin 17) (code : Code) :
    encode (.ain chan code) = 0x04#8 ++ BitVec.ofNat 8 chan.val ++ 0#4 ++ code := by
  have hfront : 0x04#8 ++ BitVec.ofNat 8 chan.val ++ 0#4 = 0x04#8 ++ (BitVec.ofNat 8 chan.val ++ 0#4) :=
    BitVec.append_assoc
  have hback : 0x04#8 ++ (BitVec.ofNat 8 chan.val ++ 0#4) ++ code =
      0x04#8 ++ (BitVec.ofNat 8 chan.val ++ 0#4 ++ code) :=
    BitVec.append_assoc
  exact (hback.symm.trans (congrArg (· ++ code) hfront.symm) :)

/-- R274: the code presented on a source after an `AIN`. -/
theorem ain_set (ain : Vector Code 17) (c d : Fin 17) (code : Code) :
    (ain.set c.val code)[d.val] = if d = c then code else ain[d.val] := by
  rw [Vector.getElem_set]
  simp only [Fin.ext_iff, eq_comm]

/-- Settles O14: the word is recorded as far as there is a trace, and `AdcRead` returns what is presented. -/
theorem ainWord : Obligations.AinWord := by
  intro s c code
  have hself : (s.ain.set c.val code)[c.val] = code := Vector.getElem_set_self ..
  refine ⟨_, rfl, ?_, fun d => ain_set s.ain c d code, fun hc => ?_, fun hsettled hsource => ?_⟩
  · rw [State.record, encode_ain]
    split <;> rfl
  · rw [adcRead_tempo, analogIn_of_lt _ (by decide)]
    simp only [← hc, hself]
  · rw [adcRead_settled _ hsettled, hsource, analogIn_of_lt _ c.isLt]
    exact hself

/-- R111: no handler of an edge writes a pin. -/
theorem runEdge_pins (p : Pin) (old new : BitVec 2) (s : State) :
    (runEdge p old new s).pinLevel = s.pinLevel ∧ (runEdge p old new s).pinDrive = s.pinDrive := by
  rcases runEdge_cases p old new s with ⟨i, body, hedge, he⟩ | ⟨-, he⟩ <;> rw [he]
  · obtain ⟨hi, rfl⟩ := edgeHandler_eq_some hedge
    rw [← record_pinLevel s i, ← record_pinDrive s i]
    simp only [List.mem_cons, List.not_mem_nil, or_false] at hi
    rcases hi with rfl | rfl | rfl | rfl | rfl <;> simp only [engineEffect]
    · exact ⟨rfl, rfl⟩
    · exact ⟨rfl, rfl⟩
    · rcases mbFall_cases (s.record .mbFall) with he | he | he <;> rw [he] <;> exact ⟨rfl, rfl⟩
    · rw [xtRise, clkTrig_eq]
      exact ⟨rfl, rfl⟩
    · exact ⟨rfl, rfl⟩
  · exact ⟨rfl, rfl⟩

/-- R42, R273: a driven pin is seen by a powered engine only, and the handler of its edge moves no pin. -/
theorem drivePin_pins (p : Pin) (level : BitVec 2) (v : PinSetting) (s : State) :
    (drivePin p level v s).pinDrive = s.pinDrive.put v ∧
      (drivePin p level v s).pinLevel = if s.powered then s.pinLevel.put v else s.pinLevel := by
  unfold drivePin
  split
  · exact (runEdge_pins ..).symm
  · exact ⟨rfl, record_pinLevel ..⟩

/-- R273: a pin that is driven takes its level, and every other pin keeps its own. -/
theorem level_put_eq {p : Pin} {level : BitVec 2} {v : PinSetting} (l : PinLevels) (h : pinSetting? p level = some v)
    (q : Pin) : (l.put v).level q = if q = p then level else l.level q := by
  split_ifs with hq
  · rw [hq, PinLevels.level_put l h]
  · exact PinLevels.level_put_other l h hq

/-- Settles O12: `drivePin_pins` has the two sets of levels, `level_put_eq` each pin. -/
theorem pinLevel : Obligations.PinLevel := by
  intro s p level
  rw [← pinSetting?_isSome p level]
  refine ⟨fun hlegal => ?_, fun hillegal => ?_⟩
  · obtain ⟨v, hv⟩ := Option.isSome_iff_exists.1 hlegal
    obtain ⟨hdrive, hlevel⟩ := drivePin_pins p level v s
    refine ⟨_, execPin_eq_next.2 ⟨v, hv, rfl⟩, fun q => ?_, fun hpow q => ?_, fun hpow => ?_⟩
    · rw [hdrive, level_put_eq _ hv]
    · rw [hlevel, if_pos hpow, level_put_eq _ hv]
    · rw [hlevel, hpow]
      rfl
  · rw [Option.isSome_eq_false_iff, Option.isNone_iff_eq_none] at hillegal
    simp only [exec, execPin, hillegal]

/-! ## Turns (O5, O6) -/

/-- R270: in a well-formed configuration a step takes the next turn. -/
theorem step_of_agenda {s : State} {turn : Turn} {rest : List Turn} (hcfg : s.cfg.wf = true)
    (h : s.agenda = turn :: rest) : step s = takeTurn turn { s with agenda := rest } := by
  unfold step
  rw [h]
  exact if_pos hcfg

/-- R270, R91: a script's turn performs the injectable operation of its word, and then the dispatch. -/
theorem takeTurn_script {s : State} {w : Word} {i : Instr} (hw : decode s.cfg.nScales w = .ok i)
    (hi : i.injectable = true) : takeTurn (.script w) s = andThen (exec i s) dispatch := by
  rw [takeTurn, decodeScript_eq_ok.2 ⟨hw, hi⟩, performTurn]

theorem takeTurn_direct {s : State} {w : Word} {i : Instr} (hw : decode s.cfg.nScales w = .ok i) :
    takeTurn (.direct w) s = andThen (exec i s) dispatch := by
  rw [takeTurn, hw, performTurn]

/-- R91: whichever turn a word gets, it performs the word's operation. -/
theorem takeTurn_turnOf {s : State} {w : Word} {i : Instr} (hw : decode s.cfg.nScales w = .ok i) :
    takeTurn (turnOf s.cfg.nScales w) s = andThen (exec i s) dispatch := by
  simp only [turnOf, hw]
  split_ifs with hi
  · exact takeTurn_script hw hi
  · exact takeTurn_direct hw

/-- Settles O5: the step takes the next turn, whichever kind the word has. -/
theorem stepRunsDecoded : Obligations.StepRunsDecoded := by
  intro s w rest i hcfg hw
  refine ⟨fun hag hi => ?_, fun hag => ?_, fun u nbits v hucfg hword => ?_, fun hag => ?_⟩
  · rw [step_of_agenda hcfg hag]
    exact takeTurn_script hw hi
  · rw [step_of_agenda hcfg hag]
    exact takeTurn_direct hw
  · subst hword
    rw [← hucfg] at hcfg hw
    rw [step_of_agenda (s := u.withFetchWord nbits v) hcfg rfl]
    exact takeTurn_turnOf (s := u) hw
  · rw [step, hag]

/-- R30, R86: the opcode of the operation that MAIN's place selects. -/
theorem opcode_mainSelected (s : State) :
    (mainSelected s).opcode.toNat = if s.seq = .idle then 0x70 + s.lpos.number else 0x40 + s.seq.number := by
  unfold mainSelected
  cases s.seq with
  | idle => cases s.lpos <;> rfl
  | s1 | s2 | s3 | s4 | s5 | s6 | s7 | s8 | s9 => rfl

theorem settled_iff {s : State} : s.settled = true ↔ s.muxSetTime + s.cfg.muxSettleUs ≤ s.nowUs :=
  decide_eq_true_iff

/-- R277 (c): MAIN is held at `S2` only. -/
theorem mainEnabled_iff {s : State} : mainEnabled s = true ↔ (s.seq = .s2 → s.settled = true) := by
  unfold mainEnabled
  rw [Bool.or_eq_true, bne_iff_ne]
  exact Decidable.imp_iff_not_or.symm

theorem mainStep_of_ne_s2 {s : State} (h : s.seq ≠ .s2) :
    mainStep s = andThen (exec (mainSelected s) s) dispatch := by
  rw [mainStep, if_pos (mainEnabled_iff.2 fun hs2 => absurd hs2 h), mainMove, if_neg h, andThen_next]

theorem mainStep_of_settled {s : State} (h : s.seq = .s2) (hsettled : s.settled = true) :
    mainStep s = andThen (exec .muxSettle s) fun t => andThen (exec .stepS2 t) dispatch := by
  have hsel : mainSelected s = .stepS2 := by rw [mainSelected, h]
  rw [mainStep, if_pos (mainEnabled_iff.2 fun _ => hsettled), mainMove, if_pos h, hsel, andThen_assoc]

theorem mainStep_of_held {s : State} (h : s.seq = .s2) (hheld : s.settled ≠ true) : mainStep s = .next s :=
  if_neg fun henabled => hheld (mainEnabled_iff.1 henabled h)

/-- Settles O6: the step is MAIN's, which has one case outside `S2` and two there. -/
theorem mainTurn : Obligations.MainTurn := by
  intro s rest hcfg hpow hag
  have hstep : step s = mainStep { s with agenda := rest } := (step_of_agenda hcfg hag).trans (if_pos hpow)
  rw [hstep]
  refine ⟨fun hseq => ⟨mainSelected s, opcode_mainSelected s, mainStep_of_ne_s2 hseq⟩,
    fun hseq hsettled => mainStep_of_settled hseq (settled_iff.2 hsettled),
    fun hseq hheld => mainStep_of_held hseq fun hsettled => ?_⟩
  exact absurd (settled_iff.1 hsettled) (not_le.2 hheld)

/-! ## Scripts (O7) -/

theorem needsPower_iff (i : Instr) : needsPower i = true ↔ i = .loop ∨ ∃ d, i = .adv d := by
  cases i with
  | adv d => exact ⟨fun _ => .inr ⟨d, rfl⟩, fun _ => rfl⟩
  | loop => exact ⟨fun _ => .inl rfl, fun _ => rfl⟩
  | _ => exact ⟨fun h => absurd h Bool.false_ne_true, by rintro (h | ⟨d, h⟩) <;> cases h⟩

/-- R82: `RESET` has one word. -/
theorem eq_reset_iff {n : Nat} {w : Word} {i : Instr} (hw : decode n w = .ok i) : i = .reset ↔ w = 0x01000000#32 := by
  constructor
  · rintro rfl
    exact (decode_eq_ok.1 hw).1.symm
  · rintro rfl
    have hreset : decode n 0x01000000#32 = .ok .reset := decode_eq_ok.2 ⟨rfl, rfl⟩
    exact Except.ok.inj (hw.symm.trans hreset)

/-- R278, of the `k`-th word of a script: it decodes as an injectable operation, which is no `ADV` and no `LOOP` unless
the engine is powered or a `RESET` stands before it. -/
def WordAccepted (n : Nat) (powered : Bool) (ws : List Word) (k : Nat) (w : Word) : Prop :=
  ∃ i : Instr, decode n w = .ok i ∧ i.injectable = true ∧
    (i = .loop ∨ (∃ d, i = .adv d) → powered = true ∨ ∃ j < k, ws[j]? = some 0x01000000#32)

section

variable {n k : Nat} {powered : Bool} {w v : Word} {ws : List Word}

/-- Before the first word of a script no `RESET` stands. -/
theorem wordAccepted_zero :
    WordAccepted n powered (w :: ws) 0 w ↔
      ∃ i, decodeScript n w = .ok i ∧ (powered || !needsPower i) = true := by
  refine exists_congr fun i => ?_
  rw [decodeScript_eq_ok, and_assoc, ← needsPower_iff]
  cases powered <;> simp

/-- A later word of a script is one of the rest of the script, for an engine that the first word may have powered. -/
theorem wordAccepted_succ {i : Instr} (hw : decode n w = .ok i) :
    WordAccepted n powered (w :: ws) (k + 1) v ↔ WordAccepted n (powered || i == .reset) ws k v := by
  have hreset : (∃ j < k + 1, (w :: ws)[j]? = some 0x01000000#32) ↔
      i = .reset ∨ ∃ j < k, ws[j]? = some 0x01000000#32 := by
    rw [Nat.exists_lt_succ_left, eq_reset_iff hw, List.getElem?_cons_zero, Option.some.injEq]
    rfl
  unfold WordAccepted
  simp only [hreset, Bool.or_eq_true, beq_iff_eq, or_assoc]

/-- R278: a script is well-formed exactly where each of its words is accepted. -/
theorem scriptWf_iff :
    scriptWf n powered ws = true ↔ ∀ (k : Nat) (w : Word), ws[k]? = some w → WordAccepted n powered ws k w := by
  induction ws generalizing powered with
  | nil => simp [scriptWf]
  | cons w rest ih =>
    have hcons : scriptWf n powered (w :: rest) = true ↔ ∃ i, decodeScript n w = .ok i ∧
        (powered || !needsPower i) = true ∧ scriptWf n (powered || i == .reset) rest = true := by
      rw [scriptWf]
      cases decodeScript n w <;> simp
    have hwords : (∀ (k : Nat) (v : Word), (w :: rest)[k]? = some v → WordAccepted n powered (w :: rest) k v) ↔
        WordAccepted n powered (w :: rest) 0 w ∧
          ∀ (k : Nat) (v : Word), rest[k]? = some v → WordAccepted n powered (w :: rest) (k + 1) v := by
      rw [← Nat.and_forall_add_one]
      simp
    rw [hcons, hwords, wordAccepted_zero]
    constructor
    · rintro ⟨i, hw, hpower, hrest⟩
      exact ⟨⟨i, hw, hpower⟩, fun k v hv => (wordAccepted_succ (decodeScript_eq_ok.1 hw).1).2 (ih.1 hrest k v hv)⟩
    · rintro ⟨⟨i, hw, hpower⟩, hrest⟩
      exact ⟨i, hw, hpower, ih.2 fun k v hv => (wordAccepted_succ (decodeScript_eq_ok.1 hw).1).1 (hrest k v hv)⟩

end

/-- Settles O7: `loadScript` asks `scriptWf`. -/
theorem scriptAcceptance : Obligations.ScriptAcceptance := by
  intro s ws hcfg
  refine ⟨fun haccepted => ?_, fun hrejected => ?_⟩
  · rw [loadScript, if_pos hcfg, if_pos (scriptWf_iff.2 haccepted)]
  · rw [loadScript, if_pos hcfg, if_neg fun hwf => hrejected (scriptWf_iff.1 hwf)]

/-! ## One iteration of the main loop (O16) -/

/-- R275: whether the iteration that starts here runs a step. -/
def State.runsStep (s : State) : Bool := s.triggerPending || (s.externalTrigger && !s.pinLevel.extClkEn)

/-- The state of `s` after the clock poll of `L.POLLSW` and its dispatch, with the beat alarm and the indicator that
they leave (R251 to R253). -/
def State.clockPolled (s : State) (beat : Option BeatAlarm) (led : Bool) : State :=
  { s with
    externalTrigger := s.pinLevel.extClkEn, edgeEn := { s.edgeEn with xtR := s.pinLevel.extClkEn }
    alarm := { s.alarm with beat := beat }, triggerPending := s.runsStep, statusLed := led
    potMode := s.pinLevel.potModeSw, quantizeMode := s.pinLevel.qmodeSel, lpos := .mode }

/-- The state of `s` after the five polls. -/
def State.polled (s : State) (beat : Option BeatAlarm) (led : Bool) : State :=
  { s.clockPolled beat led with
    recording := s.recording ^^ s.modeTogglePending, modeTogglePending := false
    activeScale := if s.scaleTogglePending then nextScale s.cfg s.activeScale else s.activeScale
    scaleTogglePending := false
    potRange := if s.rangeTogglePending then nextRange s.potRange else s.potRange, rangeTogglePending := false
    seq := if s.runsStep then .s1 else s.seq, lpos := .pollsw }

theorem RowLeads.append {row more : List (Instr × (State → State))} {s t u : State} (hrow : RowLeads row s t)
    (hmore : RowLeads more t u) : RowLeads (row ++ more) s u := by
  intro ops
  obtain ⟨ops', ht⟩ := hrow ops
  obtain ⟨ops'', hu⟩ := hmore ops'
  exact ⟨ops'', by rw [mainOps_append, ht, andThen_next, hu]⟩

/-! ### The clock poll and its dispatch (R251 to R253) -/

/-- R141: a Trigger phase that is due in internal-clock mode. -/
theorem fire_trigger_eq {s : State} {d : Nat} (hpow : s.powered = true) (hint : s.externalTrigger = false)
    (hd : d ≤ s.nowUs) :
    s.fire (.beat .trigger, d) = { s with
      triggerPending := true, statusLed := true
      alarm := { s.alarm with beat := some ⟨.anticipate, s.nowUs + 1000 * s.tempoDelayMs.toNat⟩ }
      optrace := s.optrace ++ [(s.nowUs, encode .clkTrig)] } := by
  rw [fire_of_powered hpow]
  simp only [Event.handler]
  rw [clkTrig_internal (by exact hint)]
  simp only [State.enterCallback, max_eq_left hd]
  rfl

/-- R143, R276: where the clock has just been restarted, the dispatch fires its Trigger phase and no more. -/
theorem dispatch_of_restart {s : State} (hpow : s.powered = true) (hint : s.externalTrigger = false)
    (htempo : 1 ≤ s.tempoDelayMs.toNat) (hbeat : s.alarm.beat = some ⟨.trigger, s.nowUs⟩)
    (hothers : ∀ slot ≠ .beat, ∀ d, s.alarm.deadline slot = some d → s.nowUs < d) :
    dispatch s = .next { s with
      triggerPending := true, statusLed := true
      alarm := { s.alarm with beat := some ⟨.anticipate, s.nowUs + 1000 * s.tempoDelayMs.toNat⟩ }
      optrace := s.optrace ++ [(s.nowUs, encode .clkTrig)] } := by
  have hfire := fire_trigger_eq hpow hint (le_refl s.nowUs)
  rw [dispatch_of_due hpow (due_beat hbeat le_rfl hothers) ?_, hfire]
  rw [hfire]
  refine due_eq_none_iff_deadline.2 fun slot d hd => ?_
  by_cases hslot : slot = .beat
  · subst hslot
    cases hd
    exact Nat.lt_add_of_pos_right (by omega)
  · exact hothers slot hslot d ((Alarms.deadline_arm_other _ (.beat .anticipate) _ slot hslot).symm.trans hd)

/-- R251: the clock poll of an engine whose switch stands where it was polled. -/
theorem lPollsw_leads_of_agree {s : State} (hpow : s.powered = true) (hdue : NothingDue s)
    (hedge : s.edgeEn.xtR = s.externalTrigger) (hsw : s.pinLevel.extClkEn = s.externalTrigger) :
    RowLeads [(.lPollsw, lPollsw)] s (s.clockPolled s.alarm.beat s.statusLed) := by
  have hruns : s.triggerPending = s.runsStep := by
    rw [State.runsStep, hsw]
    cases s.externalTrigger <;> simp
  refine .cons (s.clockPolled s.alarm.beat s.statusLed) (fun ops => ?_) hpow hdue (.nil _)
  rw [lPollsw, pollClockSource_of_agree (by exact hsw)]
  simp only [State.clockPolled, ← hruns, hsw, ← hedge]

/-- R252: the switch has gone to the external clock. -/
theorem lPollsw_leads_of_enter {s : State} (hpow : s.powered = true) (hdue : NothingDue s)
    (hsw : s.pinLevel.extClkEn = true) (hext : s.externalTrigger = false) :
    RowLeads [(.lPollsw, lPollsw)] s (s.clockPolled none s.statusLed) := by
  have hruns : s.triggerPending = s.runsStep := by simp [State.runsStep, hext]
  refine .cons (s.clockPolled none s.statusLed) (fun ops => ?_) hpow (nothingDue_disarm hdue .beat) (.nil _)
  rw [lPollsw, pollClockSource_of_enter (by exact hsw) (by exact hext)]
  simp only [State.clockPolled, ← hruns, hsw]
  rfl

/-- R143, R253: the switch has gone back to the internal clock, which starts with a Trigger phase at once. -/
theorem lPollsw_leads_of_leave {s : State} (hpow : s.powered = true) (hdue : NothingDue s)
    (htempo : 1 ≤ s.tempoDelayMs.toNat) (hsw : s.pinLevel.extClkEn = false) (hext : s.externalTrigger = true) :
    RowLeads [(.lPollsw, lPollsw)] s
      (s.clockPolled (some ⟨.anticipate, s.nowUs + 1000 * s.tempoDelayMs.toNat⟩) true) := by
  intro ops
  have hruns : s.runsStep = true := by simp [State.runsStep, hext, hsw]
  have hpoll : lPollsw { s with optrace := ops ++ [(s.nowUs, encode .lPollsw)] } =
      { s.clockPolled (some ⟨.trigger, s.nowUs⟩) s.statusLed with
        triggerPending := s.triggerPending, optrace := ops ++ [(s.nowUs, encode .lPollsw)] } := by
    rw [lPollsw, pollClockSource_of_leave (by exact hsw) (by exact hext)]
    simp only [State.clockPolled, hsw]
    rfl
  have hothers (slot : Slot) (hslot : slot ≠ .beat) (d : Nat)
      (hd : (s.alarm.arm (.beat .trigger) s.nowUs).deadline slot = some d) : s.nowUs < d :=
    due_eq_none_iff_deadline.1 hdue slot d (by rwa [Alarms.deadline_arm_other _ _ _ _ hslot] at hd)
  refine ⟨ops ++ [(s.nowUs, encode .lPollsw)] ++ [(s.nowUs, encode .clkTrig)], ?_⟩
  rw [mainOps_cons, mainOp, perform, record_of_powered _ _ (by exact hpow), hpoll,
    dispatch_of_restart (by exact hpow) (by exact hsw) (by exact htempo) rfl hothers]
  simp only [State.clockPolled, hruns]
  rfl

/-- R251 to R253: in each case the clock poll of `L.POLLSW` leaves nothing due, and the indicator as it was unless the
iteration runs a step. -/
theorem exists_lPollsw_leads {s : State} (h : MoveInv s) (hdue : NothingDue s) :
    ∃ beat led, RowLeads [(.lPollsw, lPollsw)] s (s.clockPolled beat led) ∧ NothingDue (s.clockPolled beat led) ∧
      (s.runsStep = false → led = s.statusLed) := by
  have htempo := h.chainLive.2
  rcases pollClockSource_cases s with ⟨hsw, hext, -⟩ | ⟨hsw, hext, -⟩ | ⟨hsw, -⟩
  · exact ⟨_, _, lPollsw_leads_of_enter h.powered hdue hsw hext, nothingDue_disarm hdue .beat, fun _ => rfl⟩
  · have hruns : s.runsStep = true := by simp [State.runsStep, hsw, hext]
    exact ⟨_, _, lPollsw_leads_of_leave h.powered hdue htempo hsw hext,
      nothingDue_arm hdue (.beat .anticipate) (by omega), fun hrests => absurd (hruns.symm.trans hrests) nofun⟩
  · exact ⟨_, _, lPollsw_leads_of_agree h.powered hdue h.externalEdge hsw, hdue, fun _ => rfl⟩

/-! ### The five polls (R250) -/

/-- R254 to R257: the other four polls write the toggles, and start a run where a trigger is pending. -/
theorem exists_pollOps_leads {s : State} (h : MoveInv s) (hdue : NothingDue s) :
    ∃ beat led, RowLeads pollOps s (s.polled beat led) ∧ NothingDue (s.polled beat led) ∧
      (s.runsStep = false → led = s.statusLed) := by
  obtain ⟨beat, led, hclock, hafter, hled⟩ := exists_lPollsw_leads h hdue
  have hothers : RowLeads (pollOps.drop 1) (s.clockPolled beat led) (s.polled beat led) :=
    .cons { s.clockPolled beat led with
        recording := s.recording ^^ s.modeTogglePending, modeTogglePending := false, lpos := .scale }
      (fun _ => lMode_eq _) h.powered hafter <|
    .cons { s.clockPolled beat led with
        recording := s.recording ^^ s.modeTogglePending, modeTogglePending := false
        activeScale := if s.scaleTogglePending then nextScale s.cfg s.activeScale else s.activeScale
        scaleTogglePending := false, lpos := .range }
      (fun _ => lScale_eq _) h.powered hafter <|
    .cons { s.clockPolled beat led with
        recording := s.recording ^^ s.modeTogglePending, modeTogglePending := false
        activeScale := if s.scaleTogglePending then nextScale s.cfg s.activeScale else s.activeScale
        scaleTogglePending := false
        potRange := if s.rangeTogglePending then nextRange s.potRange else s.potRange
        rangeTogglePending := false, lpos := .step }
      (fun _ => lRange_eq _) h.powered hafter <|
    .cons (s.polled beat led) (fun _ => rfl) h.powered hafter <|
    .nil _
  exact ⟨beat, led, .append hclock hothers, hafter, hled⟩

/-! ### One run of the pipeline (R180, R275) -/

/-- R186: whatever `STEP.S6` sends, it writes the output events, the fault bits and the draw counter, and no trace. -/
theorem exists_stepS6_update (s : State) :
    ∃ outtrace fault freeCount, ∀ ops, stepS6 { s with optrace := ops } =
      { s with outtrace := outtrace, fault := fault, freeCount := freeCount, seq := .s7, optrace := ops } := by
  by_cases hcode : 0 ≤ s.sOut.toInt ∧ s.sOut.toInt ≤ s.cfg.codeMax
  · refine ⟨(s.dacWrite s.sOut.toInt.toNat).outtrace, s.fault, s.freeCount, fun ops => ?_⟩
    rcases stepS6_cases { s with optrace := ops } with ⟨-, -, he⟩ | ⟨hout, -⟩
    · rw [he]
      rfl
    · exact absurd hcode hout
  · refine ⟨s.dacWriteUnspecified.outtrace, s.raiseDacRange.fault, s.drawn.freeCount, fun ops => ?_⟩
    rcases stepS6_cases { s with optrace := ops } with ⟨hlo, hhi, -⟩ | ⟨-, he⟩
    · exact absurd ⟨hlo, hhi⟩ hcode
    · rw [he]
      rfl

/-- R90, R215: with a scale that the configuration has, every mode quantizes. -/
theorem exists_quantize {c : Cfg} {mode : QMode} {scale : Nat} (h : scale < c.nScales) (x : Nat) :
    ∃ q, quantize c mode scale x = some q := by
  rcases quantize_cases c mode scale x with ⟨-, hq⟩ | ⟨-, hq⟩ | ⟨-, hq⟩
  · exact ⟨_, hq⟩
  · exact ⟨_, hq⟩
  · exact ⟨_, hq.trans (by rw [List.getElem?_eq_getElem h, Option.map_some])⟩

/-- The state of `s` after `STEP.S9` (R182 to R189), with what `STEP.S5` latches and `STEP.S6` writes. -/
def State.pipelined (s : State) (sOut : BitVec 32) (outtrace : List (Nat × OutEvent)) (fault : FaultBits)
    (freeCount : Nat) : State :=
  { s with
    adcSel := .cv, sSample := s.runSample, memory := s.runMemory, sOut := sOut, outtrace := outtrace, fault := fault
    freeCount := freeCount, trigOut := true, alarm := { s.alarm with trigOff := some (s.nowUs + 10000) }
    memoryIndex := s.memoryIndex + 1, triggerPending := false, seq := .idle }

/-- R180: the eight micro-steps after the settle wait, whatever `STEP.S6` sends. -/
theorem exists_sampleOps_leads {s : State} (hpow : s.powered = true) (hcfg : s.cfg.wf = true)
    (hscale : s.activeScale.toNat < s.cfg.nScales) (hsettled : s.settled = true) (hdue : NothingDue s) :
    ∃ sOut outtrace fault freeCount, RowLeads sampleOps s (s.pipelined sOut outtrace fault freeCount) := by
  obtain ⟨q, hq⟩ := exists_quantize (mode := s.quantizeMode) hscale (s.runMemory.read s.memoryIndex.toNat).toNat
  obtain ⟨outtrace, fault, freeCount, hsend⟩ := exists_stepS6_update
    { s with
      adcSel := .cv, sSample := s.runSample, memory := s.runMemory, outtrace := s.flashed
      sOut := BitVec.ofInt 32 q, seq := .s6 }
  have harmed : NothingDue { s with alarm := { s.alarm with trigOff := some (s.nowUs + 10000) } } :=
    nothingDue_arm hdue .trigOff (by omega)
  refine ⟨BitVec.ofInt 32 q, outtrace, fault, freeCount, ?_⟩
  exact
    .cons { s with adcSel := .cv, sSample := s.sampled, seq := .s3 }
      (fun _ => stepS2_of_settled hsettled) hpow hdue <|
    .cons { s with adcSel := .cv, sSample := s.runSample, seq := .s4 }
      (fun _ => rfl) hpow hdue <|
    .cons { s with adcSel := .cv, sSample := s.runSample, memory := s.runMemory, outtrace := s.flashed, seq := .s5 }
      (fun _ => stepS4_eq hcfg) hpow hdue <|
    .cons { s with
        adcSel := .cv, sSample := s.runSample, memory := s.runMemory, outtrace := s.flashed
        sOut := BitVec.ofInt 32 q, seq := .s6 }
      (fun _ => stepS5_of_quantize (by exact hcfg) (by exact hq)) hpow hdue <|
    .cons { s with
        adcSel := .cv, sSample := s.runSample, memory := s.runMemory, outtrace := outtrace, fault := fault
        freeCount := freeCount, sOut := BitVec.ofInt 32 q, seq := .s7 }
      hsend hpow hdue <|
    .cons { s.pipelined (BitVec.ofInt 32 q) outtrace fault freeCount with
        memoryIndex := s.memoryIndex, triggerPending := s.triggerPending, seq := .s8 }
      (fun _ => stepS7_of_wf hcfg) hpow harmed <|
    .cons { s.pipelined (BitVec.ofInt 32 q) outtrace fault freeCount with
        triggerPending := s.triggerPending, seq := .s9 }
      (fun _ => rfl) hpow harmed <|
    .cons (s.pipelined (BitVec.ofInt 32 q) outtrace fault freeCount) (fun _ => rfl) hpow harmed <|
    .nil _

/-! ### The whole iteration (R275) -/

/-- What a step of the pipeline, with the callbacks on the way, may write in an iteration that the polls have taken to
`s`; it ends at the boundary. -/
def RunFrame (s t : State) : Prop :=
  t = { s with
    memory := t.memory, memoryIndex := t.memoryIndex, triggerPending := t.triggerPending
    rangeTogglePending := t.rangeTogglePending, tempoDelayMs := t.tempoDelayMs, seq := .idle, sSample := t.sSample
    sOut := t.sOut, nowUs := t.nowUs, edgeEn := { s.edgeEn with tbR := t.edgeEn.tbR }, alarm := t.alarm
    adcSel := t.adcSel, muxA := t.muxA, muxInh0 := t.muxInh0, muxInh1 := t.muxInh1, muxSetTime := t.muxSetTime
    trigOut := t.trigOut, statusLed := t.statusLed, fault := t.fault, optrace := t.optrace, outtrace := t.outtrace
    freeCount := t.freeCount }

/-- R180, R275: a run from the polls' end at `seq = S1` comes to its end `MUX_SETTLE_US` later, at the next index. -/
theorem exists_runPipeline {s : State} (hpow : s.powered = true) (hlive : ChainLive s)
    (hscale : s.activeScale.toNat < s.cfg.nScales) (hdue : NothingDue s) (ops : List (Nat × Word)) :
    ∃ t, runPipeline { s with optrace := ops } = .next t ∧ RunFrame s t ∧ t.nowUs = s.nowUs + s.cfg.muxSettleUs ∧
      t.memoryIndex = s.memoryIndex + 1 ∧ (s.recording = false → t.memory = s.memory) := by
  have haddress := mainOp_of_nothingDue (i := .stepS1) (s := s) (t := { s.addressed with lpos := s.lpos })
    (fun _ => stepS1_eq _) hpow hdue ops
  obtain ⟨w, hwait, hframe, hnow, hnone⟩ := exists_settleWait
    (s := { s.addressed with lpos := s.lpos, optrace := ops ++ [(s.nowUs, encode .stepS1)] }) hpow hlive
  have hwcfg : w.cfg.wf = true := by rw [hframe.cfg_eq]; exact hlive.1
  have hwpow : w.powered = true := hframe.powered_eq.trans hpow
  have hwscale : w.activeScale.toNat < w.cfg.nScales := by rw [hframe]; exact hscale
  obtain ⟨sOut, outtrace, fault, freeCount, hsteps⟩ :=
    exists_sampleOps_leads hwpow hwcfg hwscale (hframe.settled hnow) hnone
  obtain ⟨ops', hsample⟩ := hsteps w.optrace
  refine ⟨_, runPipeline_eq_next.2 ⟨_, w, haddress, hwait, hsample⟩, ?_, ?_, ?_, ?_⟩
  · unfold CallbackFrame at hframe
    rw [hframe]
    rfl
  · exact hnow.trans (by simp [settleEnd, State.addressed])
  · rw [hframe]
    rfl
  · intro hrec
    rw [hframe]
    exact if_neg (by simp [State.addressed, hrec])

section
variable {s t : State} {beat : Option BeatAlarm} {led : Bool}

/-- R275: where no trigger is pending and the internal clock is not taken up again, a `LOOP` only polls. -/
theorem exists_exec_loop_of_rests (h : MoveInv s) (hdue : NothingDue s) (hseq : s.seq = .idle)
    (hlpos : s.lpos = .pollsw) (hruns : s.runsStep = false) :
    ∃ beat ops, exec .loop s = .next { s.polled beat s.statusLed with optrace := ops } := by
  obtain ⟨beat, led, hpolls, -, hled⟩ := exists_pollOps_leads h hdue
  obtain rfl : led = s.statusLed := hled hruns
  obtain ⟨ops, hpolled⟩ := hpolls (s.optrace ++ [(s.nowUs, encode .loop)])
  have hrests : (s.polled beat s.statusLed).seq ≠ .s1 := by simp [State.polled, hruns, hseq]
  refine ⟨beat, ops, execLoop_eq_next.2 ⟨h.powered, hseq, hlpos, ?_⟩⟩
  rw [record_of_powered _ _ h.powered]
  exact iteration_eq_next.2 ⟨_, hpolled, .inr ⟨hrests, rfl⟩⟩

/-- R275: where a trigger is pending, or the internal clock is taken up again, a `LOOP` polls and runs a step. -/
theorem exists_exec_loop_of_runs (h : MoveInv s) (hdue : NothingDue s) (hseq : s.seq = .idle)
    (hlpos : s.lpos = .pollsw) (hruns : s.runsStep = true) :
    ∃ beat led t, exec .loop s = .next t ∧ RunFrame (s.polled beat led) t ∧ t.nowUs = s.nowUs + s.cfg.muxSettleUs ∧
      t.memoryIndex = s.memoryIndex + 1 ∧ (t.recording = false → t.memory = s.memory) := by
  obtain ⟨beat, led, hpolls, hafter, -⟩ := exists_pollOps_leads h hdue
  obtain ⟨ops, hpolled⟩ := hpolls (s.optrace ++ [(s.nowUs, encode .loop)])
  have hstarts : (s.polled beat led).seq = .s1 := by simp [State.polled, hruns]
  have hscale : (s.polled beat led).activeScale.toNat < s.cfg.nScales := by
    change (if s.scaleTogglePending then nextScale s.cfg s.activeScale else s.activeScale).toNat < s.cfg.nScales
    split_ifs
    · exact nextScale_lt h.bounds _
    · exact h.scale
  obtain ⟨t, hrun, hframe, hnow, hindex, hmemory⟩ := exists_runPipeline (s := s.polled beat led) h.powered h.chainLive
    hscale hafter ops
  have hrecording : t.recording = (s.polled beat led).recording := (congrArg State.recording hframe :)
  refine ⟨beat, led, t, execLoop_eq_next.2 ⟨h.powered, hseq, hlpos, ?_⟩, hframe, hnow, hindex,
    fun hrec => hmemory (hrecording.symm.trans hrec)⟩
  rw [record_of_powered _ _ h.powered]
  exact iteration_eq_next.2 ⟨_, hpolled, .inl ⟨hstarts, hrun⟩⟩

/-- R251, R254 to R256, R275: what an iteration does in any case: it comes back to the boundary, the switches are
copied, the toggles have taken effect, and neither the environment nor the model's own fields change. -/
structure IterationEffect (s t : State) : Prop where
  seq : t.seq = .idle
  lpos : t.lpos = .pollsw
  externalTrigger : t.externalTrigger = s.pinLevel.extClkEn
  potMode : t.potMode = s.pinLevel.potModeSw
  quantizeMode : t.quantizeMode = s.pinLevel.qmodeSel
  recording : t.recording = (s.recording ^^ s.modeTogglePending)
  modeToggle : t.modeTogglePending = false
  activeScale : t.activeScale.toNat =
    if s.scaleTogglePending then (s.activeScale.toNat + 1) % s.cfg.nScales else s.activeScale.toNat
  scaleToggle : t.scaleTogglePending = false
  potRange : t.potRange.number.toNat =
    if s.rangeTogglePending then (s.potRange.number.toNat + 1) % 3 else s.potRange.number.toNat
  cfg : t.cfg = s.cfg
  pressTime : t.modeButtonPressTime = s.modeButtonPressTime
  pinLevel : t.pinLevel = s.pinLevel
  pinDrive : t.pinDrive = s.pinDrive
  ain : t.ain = s.ain
  powered : t.powered = s.powered
  agenda : t.agenda = s.agenda
  lastValue : t.lastValue = s.lastValue
  edgeEn : t.edgeEn = { s.edgeEn with tbR := t.edgeEn.tbR, xtR := t.externalTrigger }

theorem RunFrame.iterationEffect (hcfg : s.cfg.wf = true) (h : RunFrame (s.polled beat led) t) :
    IterationEffect s t where
  seq := (congrArg State.seq h :)
  lpos := (congrArg State.lpos h :)
  externalTrigger := (congrArg State.externalTrigger h :)
  potMode := (congrArg State.potMode h :)
  quantizeMode := (congrArg State.quantizeMode h :)
  recording := (congrArg State.recording h :)
  modeToggle := (congrArg State.modeTogglePending h :)
  activeScale := by
    rw [h, ← toNat_nextScale (Cfg.bounds_of_wf hcfg), ← apply_ite BitVec.toNat]
    rfl
  scaleToggle := (congrArg State.scaleTogglePending h :)
  potRange := by
    rw [h, ← number_nextRange, ← apply_ite fun r : PotRange => r.number.toNat]
    rfl
  cfg := (congrArg State.cfg h :)
  pressTime := (congrArg State.modeButtonPressTime h :)
  pinLevel := (congrArg State.pinLevel h :)
  pinDrive := (congrArg State.pinDrive h :)
  ain := (congrArg State.ain h :)
  powered := (congrArg State.powered h :)
  agenda := (congrArg State.agenda h :)
  lastValue := (congrArg State.lastValue h :)
  edgeEn := by
    rw [h]
    rfl

/-- The polls alone are an iteration too. -/
theorem runFrame_polled (hseq : s.seq = .idle) (hruns : s.runsStep = false) (ops : List (Nat × Word)) :
    RunFrame (s.polled beat led) { s.polled beat led with optrace := ops } := by
  have hidle : (s.polled beat led).seq = .idle := by simp [State.polled, hruns, hseq]
  unfold RunFrame
  rw [← hidle]

/-- What the polls change where the iteration runs no step. -/
theorem polled_of_rests (hseq : s.seq = .idle) (hlpos : s.lpos = .pollsw) (hruns : s.runsStep = false) :
    s.polled beat s.statusLed = { s with
      recording := (s.polled beat s.statusLed).recording, externalTrigger := s.pinLevel.extClkEn
      quantizeMode := s.pinLevel.qmodeSel, activeScale := (s.polled beat s.statusLed).activeScale
      potMode := s.pinLevel.potModeSw, potRange := (s.polled beat s.statusLed).potRange
      modeTogglePending := false, scaleTogglePending := false, rangeTogglePending := false
      edgeEn := { s.edgeEn with xtR := s.pinLevel.extClkEn }, alarm := { s.alarm with beat := beat } } := by
  have htrigger : s.triggerPending = s.runsStep := by
    have hboth := hruns
    rw [State.runsStep, Bool.or_eq_false_iff] at hboth
    rw [hboth.1, hruns]
  simp [State.polled, State.clockPolled, htrigger, hruns, hseq, hlpos]

/-- R275: what an iteration does according to whether it runs a step: only then time passes, the index advances and a
word may be stored, and where none runs little else changes. -/
structure StepEffect (s t : State) : Prop where
  nowUs : t.nowUs = s.nowUs + if s.runsStep then s.cfg.muxSettleUs else 0
  memoryIndex : t.memoryIndex = s.memoryIndex + if s.runsStep then 1 else 0
  memory : t.memory ≠ s.memory → s.runsStep = true ∧ t.recording = true
  rests : s.runsStep = false → t = { s with
    recording := t.recording, externalTrigger := t.externalTrigger, quantizeMode := t.quantizeMode
    activeScale := t.activeScale, potMode := t.potMode, potRange := t.potRange
    modeTogglePending := false, scaleTogglePending := false, rangeTogglePending := false
    edgeEn := { s.edgeEn with xtR := t.externalTrigger }
    alarm := { s.alarm with beat := t.alarm.beat }, optrace := t.optrace }

/-- R275: at its boundary a `LOOP` completes an iteration, with a step or without. -/
theorem exists_exec_loop_effect (h : MoveInv s) (hdue : NothingDue s) (hseq : s.seq = .idle)
    (hlpos : s.lpos = .pollsw) : ∃ t, exec .loop s = .next t ∧ IterationEffect s t ∧ StepEffect s t := by
  cases hruns : s.runsStep with
  | false =>
    obtain ⟨beat, ops, hexec⟩ := exists_exec_loop_of_rests h hdue hseq hlpos hruns
    refine ⟨_, hexec, (runFrame_polled hseq hruns ops).iterationEffect h.configWf, ?_⟩
    exact {
      nowUs := by rw [hruns]; rfl
      memoryIndex := by rw [hruns]; exact (BitVec.add_zero _).symm
      memory := absurd rfl
      rests := fun _ => by rw [polled_of_rests hseq hlpos hruns] }
  | true =>
    obtain ⟨beat, led, t, hexec, hframe, hnow, hindex, hmemory⟩ := exists_exec_loop_of_runs h hdue hseq hlpos hruns
    refine ⟨t, hexec, hframe.iterationEffect h.configWf, ?_⟩
    exact {
      nowUs := by rw [hruns]; exact hnow
      memoryIndex := by rw [hruns]; exact hindex
      memory := fun hstored => ⟨hruns, by simpa using mt hmemory hstored⟩
      rests := fun hrests => by rw [hruns] at hrests; cases hrests }

end

/-- Settles O16: `exists_exec_loop_effect` has the iteration, O53's `exec_read_other` the words it leaves. -/
theorem loopIteration : Obligations.LoopIteration := by
  intro s hpow hcfg hinv
  refine ⟨fun hoff => ?_, fun hseq hlpos => ?_⟩
  · simp only [exec, execLoop, if_pos hpow, if_neg hoff]
  · obtain ⟨t, hexec, he, hstep⟩ :=
      exists_exec_loop_effect (hinv.moveInv hcfg hpow) hinv.nothingDue hseq hlpos
    have hread (a : Nat) (ha : a ≠ s.memoryIndex.toNat) : t.memory.read a = s.memory.read a :=
      exec_read_other (by decide) hexec hinv.memoryWf ha
    exact ⟨t, hexec, he.seq, he.lpos, ⟨hstep.nowUs, hstep.memoryIndex, hstep.memory, hread, hstep.rests⟩,
      he.externalTrigger, he.potMode, he.quantizeMode, he.recording, he.modeToggle, he.activeScale, he.scaleToggle,
      he.potRange, he.cfg, he.pressTime, he.pinLevel, he.pinDrive, he.ain, he.powered, he.agenda, he.lastValue,
      he.edgeEn⟩

/-! ## The boundary between the words of a script (O8) -/

/-- R44, R332: the boot ends at the boundary. -/
theorem boot_place (s : State) :
    (boot ((resetValues s).record .reset)).seq = .idle ∧ (boot ((resetValues s).record .reset)).lpos = .pollsw := by
  rw [boot, muxSet_eq, bootClock_eq (by rfl)]
  exact ⟨record_seq _ _, record_lpos _ _⟩

/-- R278: every word of a script comes back to the boundary: `RESET` boots there, `LOOP` completes its iteration, and no
other word moves MAIN's place. -/
theorem Inv.exec_place {i : Instr} {s t : State} (h : Inv s) (hi : i.injectable = true) (hseq : s.seq = .idle)
    (hlpos : s.lpos = .pollsw) (he : exec i s = .next t) : t.seq = .idle ∧ t.lpos = .pollsw := by
  by_cases hreset : i = .reset
  · subst hreset
    have hplace := dispatch_samePlace he
    obtain ⟨hbootSeq, hbootLpos⟩ := boot_place s
    exact ⟨hplace.seq.trans hbootSeq, hplace.lpos.trans hbootLpos⟩
  by_cases hloop : i = .loop
  · subst hloop
    have hpow := (execLoop_eq_next.1 he).1
    have hengine := h.engine hpow
    obtain ⟨u, hexec, heffect, -⟩ :=
      exists_exec_loop_effect (hengine.moveInv h.configWf hpow) hengine.nothingDue hseq hlpos
    cases he.symm.trans hexec
    exact ⟨heffect.seq, heffect.lpos⟩
  · have hmain : i.agent ≠ .main := by
      rcases agent_of_injectable hi with hagent | hagent <;> rw [hagent] <;> exact nofun
    have howned := mainOwned_exec hreset hmain hloop he
    exact ⟨(congrArg MainOwned.seq howned).trans hseq, (congrArg MainOwned.lpos howned).trans hlpos⟩

/-- R278: no word of a script writes the agenda. -/
theorem agenda_exec {i : Instr} {s t : State} (hcfg : s.cfg.wf = true) (he : exec i s = .next t) :
    t.agenda = s.agenda := by
  by_cases hreset : i = .reset
  · subst hreset
    exact (execReset_moveInv hcfg he).2.2
  · exact (Continues.exec hreset he).agenda

/-- Settles O8: the turn is a script's word, which keeps the place and the rest of the agenda, and so does the
dispatch. -/
theorem scriptKeepsBoundary : Obligations.ScriptKeepsBoundary := by
  intro s t h hboundary hstep
  obtain ⟨hseq, hlpos, hscript⟩ := hboundary
  cases hag : s.agenda with
  | nil =>
    rw [step, hag] at hstep
    cases hstep
    exact ⟨hseq, hlpos, hscript⟩
  | cons turn rest =>
    rw [hag, List.all_cons, Bool.and_eq_true] at hscript
    obtain ⟨hturn, hrest⟩ := hscript
    have hpop := (h.popTurn hag).2
    rw [step_of_agenda h.configWf hag] at hstep
    cases turn with
    | script w =>
      obtain ⟨i, m, hw, hexec, hd⟩ := performTurn_eq_next.1 hstep
      obtain ⟨hmseq, hmlpos⟩ := hpop.exec_place (decodeScript_eq_ok.1 hw).2 hseq hlpos hexec
      have hplace := dispatch_samePlace hd
      have hagenda : t.agenda = rest := (Continues.dispatch hd).agenda.trans (agenda_exec hpop.configWf hexec)
      exact ⟨hplace.seq.trans hmseq, hplace.lpos.trans hmlpos, hagenda ▸ hrest⟩
    | main | direct => cases hturn

/-! ## No step is stuck (O59) -/

/-- A fault of two operations is one of the first, or one of the second. -/
theorem andThen_ne_fault {o : Out} {f : State → Out} {r : Fault} (ho : o ≠ .fault r)
    (hf : ∀ s, o = .next s → f s ≠ .fault r) : andThen o f ≠ .fault r := by
  cases o with
  | next s => exact hf s rfl
  | fault r' => exact ho
  | refused r' => exact nofun

/-- R276: the dispatch after an operation that kept the invariant comes to an end. -/
theorem exists_dispatch_of_moveInv {s : State} (h : s.powered = true → MoveInv s) : ∃ t, dispatch s = .next t :=
  exists_dispatch fun hpow => (h hpow).chainLive

/-- R291, R276: no word of a script ends in a fault. -/
theorem Inv.exec_ne_fault {i : Instr} {s : State} (h : Inv s) (hi : i.injectable = true) (r : Fault) :
    exec i s ≠ .fault r := by
  have hmove (hpow : s.powered = true) : MoveInv s := (h.engine hpow).moveInv h.configWf hpow
  rcases agent_of_injectable hi with hagent | hagent
  · cases i with
    | reset =>
      obtain ⟨t, ht⟩ := exists_dispatch_of_moveInv fun _ => boot_moveInv h.configWf
      rw [exec, execReset, ht]
      exact nofun
    | adv d =>
      cases hpow : s.powered with
      | false => simp [exec, execAdv, hpow]
      | true =>
        obtain ⟨u, -, hexec⟩ := exists_exec_adv d hpow (hmove hpow).chainLive
        rw [hexec]
        exact nofun
    | pin p level =>
      rw [exec, execPin]
      split <;> exact nofun
    | ain chan code => exact nofun
    | loop =>
      rw [exec, execLoop]
      split_ifs with hpow hplace
      · obtain ⟨t, hexec, -⟩ :=
          exists_exec_loop_effect (hmove hpow) (h.engine hpow).nothingDue hplace.1 hplace.2
        obtain ⟨-, -, -, hiter⟩ := execLoop_eq_next.1 hexec
        rw [hiter]
        exact nofun
      · exact nofun
      · exact nofun
    | _ => cases hagent
  · obtain ⟨v, hv⟩ := exec_of_function hagent s
    rw [hv]
    cases v <;> exact nofun

/-- A word of a script leaves a powered engine its invariant, `RESET` from any state. -/
theorem Inv.exec_moveInv {i : Instr} {s t : State} (h : Inv s) (hi : i.injectable = true) (he : exec i s = .next t)
    (hpow : t.powered = true) : MoveInv t := by
  by_cases hreset : i = .reset
  · subst hreset
    exact (execReset_moveInv h.configWf he).1
  · have hspow : s.powered = true := (Continues.exec hreset he).powered ▸ hpow
    exact ((h.engine hspow).moveInv h.configWf hspow).exec hi hreset he

/-- R277 (c): MAIN's move is performed in every state with the invariant; at `S2` the settle wait comes to its end. -/
theorem MoveInv.exists_mainMove {s : State} (h : MoveInv s) : ∃ t, Machine.mainMove s = .next t := by
  have hwait : ∃ u, (if s.seq = .s2 then Machine.exec .muxSettle s else Host.Outcome.next s) = .next u ∧
      u.powered = true := by
    split_ifs
    · obtain ⟨u, hsettle, hframe, -⟩ := exists_settleWait h.powered h.chainLive
      exact ⟨u, execMuxSettle_eq_next.2 ⟨h.powered, hsettle⟩, hframe.powered_eq.trans h.powered⟩
    · exact ⟨s, rfl, h.powered⟩
  obtain ⟨u, hu, hpow⟩ := hwait
  have hop := exec_mainSelected s u
  rw [engineOp, if_pos hpow] at hop
  exact ⟨_, andThen_eq_next.2 ⟨u, hu, hop⟩⟩

/-- R277: a turn of MAIN answers a next state, held or not. -/
theorem MoveInv.exists_mainStep {s : State} (h : MoveInv s) : ∃ t, mainStep s = .next t := by
  unfold mainStep
  split_ifs
  · obtain ⟨m, hm⟩ := h.exists_mainMove
    obtain ⟨t, ht⟩ := exists_dispatch_of_moveInv fun _ => h.mainMove hm
    exact ⟨t, andThen_eq_next.2 ⟨m, hm, ht⟩⟩
  · exact ⟨s, rfl⟩

/-- R291: a turn of a script does not fault, in its word or in the dispatch after it. -/
theorem Inv.takeTurn_script_ne_fault {s : State} (h : Inv s) (w : Word) (r : Fault) :
    Machine.takeTurn (.script w) s ≠ .fault r := by
  rw [Machine.takeTurn]
  cases hw : decodeScript s.cfg.nScales w with
  | error e => exact nofun
  | ok i =>
    have hi := (decodeScript_eq_ok.1 hw).2
    refine andThen_ne_fault (h.exec_ne_fault hi r) fun m hm => ?_
    obtain ⟨t, ht⟩ := exists_dispatch_of_moveInv (h.exec_moveInv hi hm)
    rw [ht]
    exact nofun

theorem Inv.exists_takeTurn_main {s : State} (h : Inv s) (hpow : s.powered = true) :
    ∃ t, Machine.takeTurn .main s = .next t := by
  obtain ⟨t, ht⟩ := ((h.engine hpow).moveInv h.configWf hpow).exists_mainStep
  exact ⟨t, takeTurn_main_eq_next.2 ⟨hpow, ht⟩⟩

theorem Inv.takeTurn_main_ne_fault {s : State} (h : Inv s) (r : Fault) : Machine.takeTurn .main s ≠ .fault r := by
  cases hpow : s.powered with
  | false => simp [Machine.takeTurn, hpow]
  | true =>
    obtain ⟨t, ht⟩ := h.exists_takeTurn_main hpow
    rw [ht]
    exact nofun

/-- Settles O59: a turn of a script or of MAIN does not fault, and MAIN's answers a next state where it is powered. -/
theorem stepNeverStuck : Obligations.StepNeverStuck := by
  intro s h
  refine ⟨fun r => ?_, fun rest hpow hag => ?_⟩
  · cases hag : s.agenda with
    | nil =>
      rw [step, hag]
      exact nofun
    | cons turn rest =>
      obtain ⟨hspec, hpop⟩ := h.popTurn hag
      rw [step_of_agenda h.configWf hag]
      cases turn with
      | script w => exact hpop.takeTurn_script_ne_fault w r
      | main => exact hpop.takeTurn_main_ne_fault r
      | direct w => cases hspec
  · rw [step_of_agenda h.configWf hag]
    exact (h.popTurn hag).2.exists_takeTurn_main hpow

/-! ## The reference schedule as a run of the general relation (O60)

`ADV` and the settle wait let time pass from one deadline to the next; each of these spans is a move of time, whose
dispatch fires what is due at its end.  The rest of a `LOOP` is moves of MAIN. -/

/-- R302, R303: a callback sets the clock to its deadline, so it fires alike where time has passed up to there first. -/
theorem fire_setClock {s : State} {c : Armed} (hle : s.nowUs ≤ c.2) : { s with nowUs := c.2 }.fire c = s.fire c := by
  have henter : { s with nowUs := c.2 }.enterCallback c = s.enterCallback c := by
    obtain ⟨ev, d⟩ := c
    cases ev <;> simp only [State.enterCallback, max_self, max_eq_right hle]
  rw [State.fire, henter, State.fire]

/-- Without fuel nothing fires. -/
theorem runDue_zero {target : Nat} {s t : State} : runDue target 0 s = some t ↔ s.due target = none ∧ s = t := by
  cases hdue : s.due target <;> simp [runDue, hdue]

/-- R276: what is due up to an earlier time fires first. -/
theorem runDue_split {early target n m : Nat} {s t u : State} (hle : early ≤ target)
    (hearly : runDue early n s = some u) (hall : runDue target m s = some t) : runDue target m u = some t := by
  induction n generalizing s m with
  | zero =>
    obtain ⟨-, rfl⟩ := runDue_zero.1 hearly
    exact hall
  | succ n ih =>
    cases hdue : s.due early with
    | none =>
      rw [runDue_of_none _ _ _ hdue] at hearly
      cases hearly
      exact hall
    | some c =>
      obtain ⟨hnext, hc⟩ := due_eq_some.1 hdue
      have htarget : s.due target = some c := due_eq_some.2 ⟨hnext, hc.trans hle⟩
      rw [runDue_succ_of_due hdue] at hearly
      cases m with
      | zero => exact absurd (htarget.symm.trans (runDue_zero.1 hall).1) nofun
      | succ m =>
        rw [runDue_succ_of_due htarget] at hall
        exact runDue_more (ih hearly hall) m.le_succ

/-- R276: firing what is due keeps the beat chain alive. -/
theorem ChainLive.runDue {target fuel : Nat} {s t : State} (h : ChainLive s) (hrun : runDue target fuel s = some t) :
    ChainLive t :=
  runDue_keeps (P := ChainLive) (fun _ c hu _ => hu.fire c) hrun h

/-- R277 (b): time passes up to `target`, and no deadline lies before it. -/
theorem genMove_time {target : Nat} {s t : State} (hpow : s.powered = true) (hnow : s.nowUs ≤ target)
    (hclear : ∀ slot d, s.alarm.deadline slot = some d → target ≤ d)
    (hd : dispatch { s with nowUs := target } = .next t) : GenMove s t := by
  have htarget : s.nowUs + (target - s.nowUs) = target := Nat.add_sub_of_le hnow
  refine .time (target - s.nowUs) hpow (fun slot d harmed hinside => ?_) (by rw [htarget]; exact hd)
  have hlater := hclear slot d harmed
  omega

/-- R276, R277 (b): from one callback to the next: time passes up to its deadline, where it fires with all that is due
there. -/
theorem exists_genMove_of_due {target fuel : Nat} {s t : State} {c : Armed} (hpow : s.powered = true)
    (hlive : ChainLive s) (hdue : NothingDue s) (hc : s.due target = some c)
    (hrun : runDue target fuel (s.fire c) = some t) :
    ∃ u, GenMove s u ∧ u.powered = true ∧ ChainLive u ∧ NothingDue u ∧ u.nowUs ≤ target ∧
      runDue target fuel u = some t := by
  obtain ⟨hnext, hle⟩ := due_eq_some.1 hc
  have hlater : s.nowUs < c.2 := due_eq_none.1 hdue c hnext
  have hpassed : ChainLive { s with nowUs := c.2 } := hlive
  obtain ⟨u, hfires⟩ := exists_runDue hpassed c.2
  have hd : dispatch { s with nowUs := c.2 } = .next u := dispatch_eq_next.2 (.inr ⟨hpow, hfires⟩)
  have hfirst : ∀ slot d, s.alarm.deadline slot = some d → c.2 ≤ d := fun slot d harmed => by
    obtain ⟨e, he, hearliest⟩ := Alarms.next_le_deadline harmed
    cases hnext.symm.trans he
    exact hearliest
  have hatDeadline : { s with nowUs := c.2 }.due c.2 = some c := due_eq_some.2 ⟨hnext, le_rfl⟩
  have hrest : runDue c.2 (c.2 + 3) (s.fire c) = some u := by
    rw [← fire_setClock hlater.le, ← runDue_succ_of_due hatDeadline]
    exact hfires
  exact ⟨u, genMove_time hpow hlater.le hfirst hd, (Continues.dispatch hd).powered.trans hpow,
    hpassed.runDue hfires, dispatch_nothingDue (s := { s with nowUs := c.2 }) hpow hd, (dispatch_nowUs hd).trans_le hle,
    runDue_split hle hrest hrun⟩

/-- R277 (b): time passes where nothing falls due. -/
theorem genRun_of_due_eq_none {target : Nat} {s : State} (hpow : s.powered = true) (hnow : s.nowUs ≤ target)
    (hnone : s.due target = none) : GenRun s { s with nowUs := target } :=
  .single (genMove_time hpow hnow (fun slot d harmed => (due_eq_none_iff_deadline.1 hnone slot d harmed).le)
    (dispatch_of_none _ hnone))

/-- R272, R277 (b): the passage of time is a run of moves of time, one for each instant with a callback and one for the
rest. -/
theorem genRun_of_runDue {target fuel : Nat} {s t : State} (hpow : s.powered = true) (hlive : ChainLive s)
    (hdue : NothingDue s) (hnow : s.nowUs ≤ target) (hrun : runDue target fuel s = some t) :
    GenRun s { t with nowUs := target } := by
  induction fuel generalizing s with
  | zero =>
    obtain ⟨hnone, rfl⟩ := runDue_zero.1 hrun
    exact genRun_of_due_eq_none hpow hnow hnone
  | succ n ih =>
    cases hc : s.due target with
    | none =>
      rw [runDue_of_none _ _ _ hc] at hrun
      cases hrun
      exact genRun_of_due_eq_none hpow hnow hc
    | some c =>
      rw [runDue_succ_of_due hc] at hrun
      obtain ⟨u, hmove, hupow, hulive, hudue, hunow, hurun⟩ := exists_genMove_of_due hpow hlive hdue hc hrun
      exact .head hmove (ih hupow hulive hudue hunow hurun)

/-- R272: time that passes up to a target is a run of the general relation. -/
theorem genRun_of_advanceTo {target : Nat} {s t : State} (hpow : s.powered = true) (hlive : ChainLive s)
    (hdue : NothingDue s) (hnow : s.nowUs ≤ target) (h : advanceTo target s = .next t) : GenRun s t := by
  obtain ⟨u, hrun, rfl⟩ := advanceTo_eq_next.1 h
  exact genRun_of_runDue hpow hlive hdue hnow hrun

/-- R277 (c): only at `S2` is `STEP.S2` selected. -/
theorem seq_ne_s2 {s : State} {i : Instr} (hsel : mainSelected s = i) (hi : i ≠ .stepS2) : s.seq ≠ .s2 := by
  intro hs2
  exact hi (hsel.symm.trans (by rw [mainSelected, hs2]))

/-- R277 (c): outside the settle wait, MAIN's move is the operation of an iteration at the same place. -/
theorem mainStep_eq_mainOp {s : State} {i : Instr} (hpow : s.powered = true) (hsel : mainSelected s = i)
    (hi : i ≠ .stepS2) : mainStep s = mainOp i (engineEffect i) s := by
  rw [mainStep_of_ne_s2 (seq_ne_s2 hsel hi), exec_mainSelected, hsel, engineOp, if_pos hpow, andThen_next, mainOp]

/-- R277 (c): an operation of an iteration that MAIN's place selects is a move of MAIN. -/
theorem genMove_of_mainOp {s t : State} {i : Instr} (hpow : s.powered = true) (hsel : mainSelected s = i)
    (hi : i ≠ .stepS2) (h : mainOp i (engineEffect i) s = .next t) : GenMove s t := by
  rw [← mainStep_eq_mainOp hpow hsel hi] at h
  exact .main hpow (mainEnabled_iff.2 fun hs2 => absurd hs2 (seq_ne_s2 hsel hi)) h

/-- R277 (c): at `S2` with the lines settled and nothing due, MAIN's move is the note of the settle wait and
`STEP.S2`. -/
theorem genMove_of_stepS2 {s t : State} (hpow : s.powered = true) (hseq : s.seq = .s2) (hsettled : s.settled = true)
    (hdue : NothingDue s) (h : mainOp .stepS2 stepS2 (s.record .muxSettle) = .next t) : GenMove s t := by
  refine .main hpow (mainEnabled_iff.2 fun _ => hsettled) ?_
  have hwait : exec .muxSettle s = .next (s.record .muxSettle) :=
    execMuxSettle_eq_next.2 ⟨hpow, settleWait_of_settled s hsettled hdue⟩
  have hstep : exec .stepS2 (s.record .muxSettle) = .next (perform .stepS2 stepS2 (s.record .muxSettle)) :=
    engineOp_eq_next.2 ⟨by rw [record_powered, hpow], rfl⟩
  rw [mainStep_of_settled hseq hsettled, hwait, andThen_next, hstep, andThen_next]
  exact h

/-- R275, R277 (c): a row of operations that MAIN's place selects one after another is a run of moves of MAIN. -/
theorem genRun_of_mainOps {ops : List (Instr × (State → State))} {s t : State} (hpow : s.powered = true)
    (hops : ∀ o ∈ ops, o.2 = engineEffect o.1) (hsample : .stepS2 ∉ ops.map Prod.fst)
    (hrow : (ops.map Prod.fst).IsChain Follows) (hhead : ∀ o ∈ ops.head?, mainSelected s = o.1)
    (h : mainOps ops s = .next t) : GenRun s t := by
  induction ops generalizing s with
  | nil =>
    cases h
    exact .refl
  | cons o rest ih =>
    obtain ⟨i, body⟩ := o
    obtain rfl : body = engineEffect i := hops (i, body) List.mem_cons_self
    have hi : i ≠ .stepS2 := (List.ne_of_not_mem_cons hsample).symm
    rw [mainOps_cons, andThen_eq_next] at h
    obtain ⟨u, hop, hrest⟩ := h
    have hsel : mainSelected s = i := hhead _ rfl
    refine .head (genMove_of_mainOp hpow hsel hi hop) (ih ((Continues.mainOp hop).powered.trans hpow)
      (fun o ho => hops o (List.mem_cons_of_mem _ ho)) (List.not_mem_of_not_mem_cons hsample) hrow.tail ?_ hrest)
    intro o ho
    cases rest with
    | nil => cases ho
    | cons next rest =>
      cases ho
      have hfollows : Follows i o.1 := (List.isChain_cons_cons.1 hrow).1
      exact hfollows _ _ ((mainSelected_record s i).trans hsel) (dispatch_samePlace hop)

/-- R276: after an operation of MAIN and its dispatch nothing is due. -/
theorem mainOp_nothingDue {s t : State} {i : Instr} (hpow : s.powered = true)
    (h : mainOp i (engineEffect i) s = .next t) : NothingDue t :=
  dispatch_nothingDue ((Continues.perform i s).powered.trans hpow) h

/-- R171: at the end of the settle wait the lines have settled and nothing is due; MAIN's place has not moved. -/
theorem advanceTo_settleEnd {s t : State} (hpow : s.powered = true) (h : advanceTo (settleEnd s) s = .next t) :
    t.powered = true ∧ t.seq = s.seq ∧ t.settled = true ∧ NothingDue t := by
  have hframe := CallbackFrame.advanceTo h
  obtain ⟨u, hrun, rfl⟩ := advanceTo_eq_next.1 h
  have hnone : u.due (settleEnd s) = none := runDue_done hrun
  exact ⟨hframe.powered_eq.trans hpow, (congrArg State.seq hframe :), hframe.settled rfl, hnone⟩

/-- R180, R277: a run of the pipeline is `STEP.S1`, the settle wait as moves of time, and the other micro-steps. -/
theorem genRun_of_runPipeline {s t : State} (hs : MoveInv s) (hseq : s.seq = .s1) (h : runPipeline s = .next t) :
    GenRun s t := by
  obtain ⟨u, v, haddress, hwait, hsteps⟩ := runPipeline_eq_next.1 h
  have hsel : mainSelected s = .stepS1 := by rw [mainSelected, hseq]
  obtain ⟨hu, huplace⟩ := hs.mainOp hsel haddress
  have hudue := mainOp_nothingDue (i := .stepS1) hs.powered haddress
  obtain ⟨w, hadv, hv⟩ := andThen_eq_next.1 hwait
  cases hv
  obtain ⟨x, hsample, hrest⟩ := andThen_eq_next.1 hsteps
  obtain ⟨hwpow, hwseq, hsettled, hwdue⟩ := advanceTo_settleEnd hu.powered hadv
  have hws2 : w.seq = .s2 := hwseq.trans huplace.seq
  have hwsel : mainSelected (w.record .muxSettle) = .stepS2 := by rw [mainSelected_record, mainSelected, hws2]
  have hxpow : x.powered = true := by
    rw [(Continues.mainOp (i := .stepS2) hsample).powered, record_powered, hwpow]
  have hxsel : mainSelected x = .stepS3 :=
    (List.isChain_cons_cons.1 sampleOps_follow).1 _ _ ((mainSelected_record _ _).trans hwsel)
      (dispatch_samePlace hsample)
  have hstart : GenMove s u := genMove_of_mainOp (i := .stepS1) hs.powered hsel (by decide) haddress
  have hsettle : GenRun u w := genRun_of_advanceTo hu.powered hu.chainLive hudue (le_max_left _ _) hadv
  have hsampled : GenMove w x := genMove_of_stepS2 hwpow hws2 hsettled hwdue hsample
  have hends : GenRun x t := genRun_of_mainOps hxpow
    (fun o ho => sampleOps_effect o (List.mem_of_mem_drop (i := 1) ho)) (by simp [sampleOps]) sampleOps_follow.tail
    (by rintro o ⟨⟩; exact hxsel) hrest
  exact .head hstart (hsettle.trans (.head hsampled hends))

/-- R275, R277: an iteration is a run of moves of MAIN, and of time where it runs a step. -/
theorem genRun_of_iteration {s t : State} (hs : MoveInv s) (hseq : s.seq = .idle) (hlpos : s.lpos = .pollsw)
    (h : iteration s = .next t) : GenRun s t := by
  obtain ⟨u, hpolls, hrun⟩ := iteration_eq_next.1 h
  have hhead : ∀ o ∈ pollOps.head?, mainSelected s = o.1 := by
    rintro o ⟨⟩
    rw [mainSelected, hseq, hlpos]
  have hu : MoveInv u := hs.mainOps pollOps_effect pollOps_follow hhead hpolls
  have hpolled : GenRun s u :=
    genRun_of_mainOps hs.powered pollOps_effect (by simp [pollOps]) pollOps_follow hhead hpolls
  rcases hrun with ⟨hs1, hrun⟩ | ⟨-, rfl⟩
  · exact hpolled.trans (genRun_of_runPipeline hu hs1 hrun)
  · exact hpolled

/-- Settles O60: after the note, an `ADV` is the passage of time and a `LOOP` an iteration. -/
theorem scheduleIsGeneralRun : Obligations.ScheduleIsGeneralRun := by
  intro i s t hpow hcfg hinv hi h
  have hs := hinv.moveInv hcfg hpow
  rcases hi with rfl | ⟨d, rfl⟩
  · obtain ⟨-, hseq, hlpos, hiter⟩ := execLoop_eq_next.1 h
    exact .head (.note .loop rfl) (genRun_of_iteration (hs.record .loop) ((record_seq _ _).trans hseq)
      ((record_lpos _ _).trans hlpos) hiter)
  · obtain ⟨-, hadv⟩ := execAdv_eq_next.1 h
    have hr := hs.record (.adv d)
    have hdue : NothingDue (s.record (.adv d)) := by
      rw [record_of_powered _ _ hpow]
      exact hinv.nothingDue
    exact .head (.note (.adv d) rfl) (genRun_of_advanceTo hr.powered hr.chainLive hdue (by simp) hadv)

end Sys2Proof.Machine

/-! # Proofs: faults and callbacks (O19, O20, O54)

First the entry of a callback (O19) and its cancellation (O20), then the fault bits: each operation runs alike whatever
bits are set before it, and at most sets `F_DACRANGE` (O54). -/

namespace Sys2Proof.Machine

/-! ## The entry of a callback (O19) -/

/-- R298, R302, R303: a callback that fires at its deadline is entered there. -/
theorem enterCallback_of_le {s : State} {d : Nat} (hle : s.nowUs ≤ d) (ev : Event) :
    s.enterCallback (ev, d) = { s with
      nowUs := d
      alarm := if ev = .tempo then s.alarm.arm .tempo (d + 1000 * s.cfg.tempoReadMs) else s.alarm.disarm ev.slot } := by
  rw [enterCallback_frame, enterCallback_nowUs, enterCallback_alarm, max_eq_right hle]

/-- R36: a callback runs an operation of INT. -/
theorem agent_handlerOp (ev : Event) : ev.handlerOp.agent = .int := by
  cases ev with
  | beat p => cases p <;> rfl
  | debounce | trigOff | tempo => rfl

/-- R36, R294: a powered engine's callback is its handler operation, performed in the entered state. -/
theorem next_fire {s : State} (hpow : s.powered = true) (ev : Event) (d : Nat) :
    .next (s.fire (ev, d)) = exec ev.handlerOp (s.enterCallback (ev, d)) := by
  have hentered : (s.enterCallback (ev, d)).powered = true := by rw [enterCallback_frame, hpow]
  rw [exec_of_int (agent_handlerOp ev), engineOp, if_pos hentered, State.fire, handler_eq]

/-- Settles O19: `next_fire` in the state that `enterCallback_of_le` writes out for each event. -/
theorem callbackEntry : Obligations.CallbackEntry := by
  intro s d hpow hcfg hle
  have hfire (ev : Event) := enterCallback_of_le hle ev ▸ next_fire hpow ev d
  refine ⟨hfire (.beat .trigger), hfire (.beat .anticipate), hfire .debounce, hfire .trigOff, ?_⟩
  have htempo := hfire .tempo
  rwa [(Cfg.bounds_of_wf hcfg).tempoReadMs] at htempo

/-! ## Cancelling a callback (O20) -/

/-- R301: where the slot is not armed, there is nothing to disarm. -/
theorem Alarms.disarm_of_unarmed {a : Alarms} {slot : Slot} (h : a.deadline slot = none) : a.disarm slot = a := by
  obtain ⟨beat, debounce, trigOff, tempo⟩ := a
  cases slot with
  | beat =>
    obtain rfl : beat = none := Option.map_eq_none_iff.1 h
    rfl
  | debounce | trigOff | tempo =>
    cases h
    rfl

/-- R301: disarming another slot leaves the beat, its phase included. -/
theorem Alarms.disarm_beat_of_ne {a : Alarms} {slot : Slot} (h : slot ≠ .beat) : (a.disarm slot).beat = a.beat := by
  cases slot with
  | beat => exact absurd rfl h
  | debounce | trigOff | tempo => rfl

/-- Settles O20: of the slots only the cancelled one changes, and it has no deadline at which it could be due. -/
theorem cancelDisarms : Obligations.CancelDisarms := by
  intro s slot
  refine ⟨rfl, cancel_deadline_same s slot, cancel_deadline_other s slot, Alarms.disarm_beat_of_ne, fun hunarmed => ?_,
    fun target ev d hdue hslot => ?_⟩
  · rw [State.cancel, Alarms.disarm_of_unarmed hunarmed]
  · have harmed : (s.cancel slot).alarm.deadline ev.slot = some d := deadline_of_next (due_eq_some.1 hdue).1
    rw [hslot, cancel_deadline_same] at harmed
    cases harmed

/-! ## The fault bits (O54)

An operation reads no fault bit and clears none, and the one bit it can set is `F_DACRANGE`. -/

/-- The state with other fault bits. -/
abbrev State.withFault (s : State) (f : FaultBits) : State := { s with fault := f }

/-- The fault bits after an operation that sets `F_DACRANGE` where `raises` holds (R291). -/
def FaultBits.raised (f : FaultBits) (raises : Bool) : FaultBits := { f with dacRange := raises || f.dacRange }

theorem FaultBits.raised_raised (f : FaultBits) (r q : Bool) : (f.raised r).raised q = f.raised (q || r) := by
  rw [FaultBits.raised, FaultBits.raised, FaultBits.raised, Bool.or_assoc]

/-! ### The effects of INT and MAIN -/

theorem record_withFault (s : State) (f : FaultBits) (i : Instr) :
    (s.withFault f).record i = (s.record i).withFault f := by
  simp only [State.record]
  split <;> rfl

theorem mbFall_withFault (s : State) (f : FaultBits) : mbFall (s.withFault f) = (mbFall s).withFault f := by
  have hset (h : Hold) : (s.withFault f).setHoldFlag h = (s.setHoldFlag h).withFault f := by cases h <;> rfl
  exact hset _

theorem pollClockSource_withFault (s : State) (f : FaultBits) :
    pollClockSource (s.withFault f) = (pollClockSource s).withFault f := by
  rcases pollClockSource_cases s with ⟨hsw, hext, he⟩ | ⟨hsw, hext, he⟩ | ⟨hagree, he⟩ <;> rw [he]
  · exact pollClockSource_of_enter hsw hext
  · exact pollClockSource_of_leave hsw hext
  · exact pollClockSource_of_agree hagree

theorem lPollsw_withFault (s : State) (f : FaultBits) : lPollsw (s.withFault f) = (lPollsw s).withFault f := by
  rw [lPollsw, pollClockSource_withFault]
  rfl

/-- R66, U7: a `CV` read before the settle time has passed is a draw. -/
theorem adcRead_unsettled {s : State} (h : s.settled ≠ true) :
    adcRead s .cv = (s.freeValue.setWidth 12, { s with adcSel := .cv }.drawn) :=
  if_neg h

/-- R66: the sample that `STEP.S2` latches, read or drawn, does not depend on the fault bits. -/
theorem stepS2_withFault (s : State) (f : FaultBits) : stepS2 (s.withFault f) = (stepS2 s).withFault f := by
  by_cases hsettled : s.settled = true
  · rw [stepS2_of_settled hsettled, stepS2_of_settled (by exact hsettled)]
    rfl
  · rw [stepS2, adcRead_unsettled (by exact hsettled), stepS2, adcRead_unsettled hsettled]
    rfl

/-- R292: `STEP.S5` reads inside the memory, so it raises nothing. -/
theorem stepS5_withFault {s : State} (hcfg : s.cfg.wf = true) (f : FaultBits) :
    stepS5 (s.withFault f) = (stepS5 s).withFault f := by
  have hout (v : Sample) :
      quantizeOut (s.withFault f) v = ((quantizeOut s v).1, (quantizeOut s v).2.withFault f) := by
    simp only [quantizeOut]
    split <;> rfl
  rw [stepS5_eq_quantizeOut (by exact hcfg), hout, stepS5_eq_quantizeOut hcfg]

/-- R186: `STEP.S6` sets `F_DACRANGE` where the value is no code, whatever bits were set. -/
theorem exists_stepS6_withFault (s : State) :
    ∃ raises, ∀ f, stepS6 (s.withFault f) = (stepS6 s).withFault (f.raised raises) := by
  rcases stepS6_cases s with ⟨hlo, hhi, he⟩ | ⟨hout, he⟩
  · refine ⟨false, fun f => ?_⟩
    rcases stepS6_cases (s.withFault f) with ⟨-, -, hf⟩ | ⟨hnot, -⟩
    · rw [hf, he]
      rfl
    · exact absurd ⟨hlo, hhi⟩ hnot
  · refine ⟨true, fun f => ?_⟩
    rcases stepS6_cases (s.withFault f) with ⟨hlo, hhi, -⟩ | ⟨-, hf⟩
    · exact absurd ⟨hlo, hhi⟩ hout
    · rw [hf, he]
      rfl

/-- R291, R292: of the effects of INT and MAIN only that of `STEP.S6` touches the fault bits. -/
theorem engineEffect_withFault {i : Instr} {s : State} (hi : i ≠ .stepS6) (hcfg : s.cfg.wf = true) (f : FaultBits) :
    engineEffect i (s.withFault f) = (engineEffect i s).withFault f := by
  cases i with
  | stepS6 => exact absurd rfl hi
  | stepS4 => rw [engineEffect, stepS4_eq hcfg, stepS4_eq (by exact hcfg)]
  | stepS5 => exact stepS5_withFault hcfg f
  | stepS2 => exact stepS2_withFault s f
  | lPollsw => exact lPollsw_withFault s f
  | mbFall => exact mbFall_withFault s f
  | tbRecheck => rw [engineEffect, tbRecheck_eq, tbRecheck_eq]
  | clkTrig | xtRise => simp only [engineEffect, xtRise, clkTrig_eq]
  | muxSet idx => rw [engineEffect, muxSet_eq, muxSet_eq]
  | stepS1 => rw [engineEffect, stepS1_eq, stepS1_eq]
  | lMode => rw [engineEffect, lMode_eq, lMode_eq]
  | lScale => rw [engineEffect, lScale_eq, lScale_eq]
  | lRange => rw [engineEffect, lRange_eq, lRange_eq]
  | _ => rfl

theorem perform_withFault {i : Instr} {s : State} (hi : i ≠ .stepS6) (hcfg : s.cfg.wf = true) (f : FaultBits) :
    perform i (engineEffect i) (s.withFault f) = (perform i (engineEffect i) s).withFault f := by
  rw [perform, record_withFault, engineEffect_withFault hi (by rwa [record_cfg])]
  rfl

/-- R291: an operation of INT or MAIN sets `F_DACRANGE` only as `STEP.S6`, whatever bits were set. -/
theorem exists_perform_withFault (i : Instr) {s : State} (hcfg : s.cfg.wf = true) :
    ∃ raises, (raises = true → i = .stepS6) ∧ ∀ f,
      perform i (engineEffect i) (s.withFault f) = (perform i (engineEffect i) s).withFault (f.raised raises) := by
  by_cases hi : i = .stepS6
  · subst hi
    obtain ⟨raises, hraises⟩ := exists_stepS6_withFault (s.record .stepS6)
    exact ⟨raises, fun _ => rfl, fun f => (congrArg stepS6 (record_withFault s f .stepS6)).trans (hraises f)⟩
  · exact ⟨false, nofun, perform_withFault hi hcfg⟩

/-! ### The callbacks -/

theorem fire_withFault {s : State} (hcfg : s.cfg.wf = true) (f : FaultBits) (c : Armed) :
    (s.withFault f).fire c = (s.fire c).withFault f := by
  obtain ⟨ev, d⟩ := c
  have hentry : (s.withFault f).enterCallback (ev, d) = (s.enterCallback (ev, d)).withFault f := by cases ev <;> rfl
  have hop : ev.handlerOp ≠ .stepS6 := fun h => nomatch (agent_handlerOp ev).symm.trans (congrArg Instr.agent h)
  rw [State.fire, handler_eq, hentry, perform_withFault hop (by rwa [enterCallback_frame]), State.fire, handler_eq]

theorem runDue_withFault {target fuel : Nat} {s : State} (hcfg : s.cfg.wf = true) (f : FaultBits) :
    runDue target fuel (s.withFault f) = (runDue target fuel s).map (·.withFault f) := by
  have hdue (u : State) : (u.withFault f).due target = u.due target := rfl
  induction fuel generalizing s with
  | zero =>
    simp only [runDue, hdue]
    split <;> rfl
  | succ n ih =>
    simp only [runDue, hdue]
    split
    · rfl
    · rw [fire_withFault hcfg, ih (by rwa [fire_cfg])]

/-! ### Runs alike whatever bits are set -/

/-- Whatever fault bits are set before it, `op` takes `s` to `t`; it sets `F_DACRANGE` where `raises` holds, and leaves
the bits otherwise (R291, R292). -/
def RunsAlike (raises : Bool) (op : State → Out) (s t : State) : Prop :=
  ∀ f : FaultBits, op (s.withFault f) = .next (t.withFault (f.raised raises))

namespace RunsAlike

variable {s t : State}

/-- What `op` then does to the bits of `s` itself. -/
theorem fault_eq {raises : Bool} {op : State → Out} (halike : RunsAlike raises op s t) (h : op s = .next t) :
    t.fault = s.fault.raised raises :=
  congrArg State.fault (Host.Outcome.next.inj (h.symm.trans (halike s.fault)))

/-- Two operations one after the other. -/
theorem andThen {r q : Bool} {first second : State → Out} {u : State} (hfirst : RunsAlike r first s u)
    (hsecond : RunsAlike q second u t) : RunsAlike (q || r) (fun v => andThen (first v) second) s t := by
  intro f
  rw [← FaultBits.raised_raised]
  exact andThen_eq_next.2 ⟨_, hfirst f, hsecond (f.raised r)⟩

theorem engineOp {i : Instr} (hcfg : s.cfg.wf = true) (h : engineOp i (engineEffect i) s = .next t) :
    ∃ raises, (raises = true → i = .stepS6) ∧ RunsAlike raises (engineOp i (engineEffect i)) s t := by
  obtain ⟨hpow, rfl⟩ := engineOp_eq_next.1 h
  obtain ⟨raises, hstep, hbits⟩ := exists_perform_withFault i hcfg
  exact ⟨raises, hstep, fun f => engineOp_eq_next.2 ⟨hpow, (hbits f).symm⟩⟩

theorem functionOp {i : Instr} {v : Option FnValue} (h : functionOp i v s = .next t) :
    RunsAlike false (functionOp i v) s t := by
  obtain ⟨x, hx, rfl⟩ := functionOp_eq_next.1 h
  exact fun f => functionOp_eq_next.2 ⟨x, hx, by rw [record_withFault s f]; rfl⟩

theorem dispatch (hcfg : s.cfg.wf = true) (h : dispatch s = .next t) : RunsAlike false dispatch s t := by
  intro f
  rcases dispatch_eq_next.1 h with ⟨hoff, rfl⟩ | ⟨hpow, hrun⟩
  · exact dispatch_eq_next.2 (.inl ⟨hoff, rfl⟩)
  · exact dispatch_eq_next.2 (.inr ⟨hpow, by rw [runDue_withFault hcfg, hrun]; rfl⟩)

theorem advanceTo {target : Nat} (hcfg : s.cfg.wf = true) (h : advanceTo target s = .next t) :
    RunsAlike false (advanceTo target) s t := by
  obtain ⟨u, hrun, rfl⟩ := advanceTo_eq_next.1 h
  exact fun f => advanceTo_eq_next.2 ⟨u.withFault f, by rw [runDue_withFault hcfg, hrun]; rfl, rfl⟩

theorem settleWait (hcfg : s.cfg.wf = true) (h : settleWait s = .next t) : RunsAlike false settleWait s t := by
  obtain ⟨u, hadv, hrec⟩ := andThen_eq_next.1 h
  cases hrec
  intro f
  exact andThen_eq_next.2 ⟨u.withFault f, advanceTo hcfg hadv f, congrArg _ (record_withFault u f .muxSettle)⟩

theorem mainOp {i : Instr} (hcfg : s.cfg.wf = true) (h : mainOp i (engineEffect i) s = .next t) :
    ∃ raises, RunsAlike raises (mainOp i (engineEffect i)) s t := by
  obtain ⟨raises, -, hbits⟩ := exists_perform_withFault i hcfg
  have hdispatch := dispatch (by rwa [(Continues.perform i s).cfg]) h
  exact ⟨raises, fun f => (congrArg Machine.dispatch (hbits f)).trans (hdispatch (f.raised raises))⟩

theorem mainOps {ops : List (Instr × (State → State))} (heff : ∀ o ∈ ops, o.2 = engineEffect o.1)
    (hcfg : s.cfg.wf = true) (h : mainOps ops s = .next t) : ∃ raises, RunsAlike raises (mainOps ops) s t := by
  induction ops generalizing s with
  | nil =>
    cases h
    exact ⟨false, fun _ => rfl⟩
  | cons o rest ih =>
    obtain ⟨i, body⟩ := o
    obtain rfl : body = engineEffect i := heff _ List.mem_cons_self
    obtain ⟨u, hop, hrest⟩ := andThen_eq_next.1 (mainOps_cons _ _ _ s ▸ h)
    obtain ⟨r, hr⟩ := mainOp hcfg hop
    obtain ⟨q, hq⟩ := ih (fun o ho => heff o (List.mem_cons_of_mem _ ho)) (by rwa [(Continues.mainOp hop).cfg]) hrest
    exact ⟨q || r, hr.andThen hq⟩

theorem runPipeline (hcfg : s.cfg.wf = true) (h : runPipeline s = .next t) :
    ∃ raises, RunsAlike raises runPipeline s t := by
  obtain ⟨u, v, haddress, hwait, hsteps⟩ := runPipeline_eq_next.1 h
  have hu : u.cfg.wf = true := by rwa [(Continues.mainOp (i := .stepS1) haddress).cfg]
  have hv : v.cfg.wf = true := by rwa [(Continues.settleWait hwait).cfg]
  obtain ⟨r, hr⟩ := mainOp (i := .stepS1) hcfg haddress
  obtain ⟨q, hq⟩ := mainOps sampleOps_effect hv hsteps
  exact ⟨_, hr.andThen ((settleWait hu hwait).andThen hq)⟩

/-- R275: whether a run begins does not depend on the bits. -/
theorem iteration (hcfg : s.cfg.wf = true) (h : iteration s = .next t) :
    ∃ raises, RunsAlike raises iteration s t := by
  obtain ⟨u, hpolls, hrun⟩ := iteration_eq_next.1 h
  have hu : u.cfg.wf = true := by rwa [(Continues.mainOps pollOps_effect hpolls).cfg]
  obtain ⟨r, hr⟩ := mainOps pollOps_effect hcfg hpolls
  rcases hrun with ⟨hs1, hrun⟩ | ⟨hrests, rfl⟩
  · obtain ⟨q, hq⟩ := runPipeline hu hrun
    exact ⟨q || r, hr.andThen fun f => (if_pos hs1).trans (hq f)⟩
  · exact ⟨r, hr.andThen (q := false) fun f => if_neg hrests⟩

end RunsAlike

/-! ### The words -/

/-- R111, R292: no handler of an edge is `STEP.S6`. -/
theorem runEdge_withFault {p : Pin} {old new : BitVec 2} {s : State} (hcfg : s.cfg.wf = true) (f : FaultBits) :
    runEdge p old new (s.withFault f) = (runEdge p old new s).withFault f := by
  simp only [runEdge]
  split
  · rename_i i body hedge
    obtain ⟨hmem, rfl⟩ := edgeHandler_eq_some hedge
    exact perform_withFault (by rintro rfl; simp at hmem) hcfg f
  · rfl

theorem drivePin_withFault {p : Pin} {level : BitVec 2} {v : PinSetting} {s : State} (hcfg : s.cfg.wf = true)
    (f : FaultBits) : drivePin p level v (s.withFault f) = (drivePin p level v s).withFault f := by
  simp only [drivePin, record_withFault]
  split
  · exact runEdge_withFault
      (s := { s.record (.pin p level) with pinDrive := s.pinDrive.put v, pinLevel := s.pinLevel.put v })
      (by rwa [record_cfg]) f
  · rfl

/-- R91: the value of a pure-function word does not depend on the fault bits. -/
theorem exists_exec_of_function_withFault {i : Instr} (h : i.agent = .function) (s : State) :
    ∃ v, ∀ f : FaultBits, exec i (s.withFault f) = functionOp i v (s.withFault f) := by
  cases i with
  | tempoMap | dacFrame | qD2S | qS2D | qChrom | qSnap | qApply | rScale =>
    simp only [exec, execTempoMap, execDacFrame, execQD2S, execQS2D, execQChrom, execQSnap, execQApply, execRScale]
    exact ⟨_, fun _ => rfl⟩
  | _ => cases h

/-- R291: every operation but `RESET`, by the agent that performs it. -/
theorem exists_exec_runsAlike {i : Instr} {s t : State} (hi : i ≠ .reset) (hcfg : s.cfg.wf = true)
    (h : exec i s = .next t) :
    ∃ raises, (raises = true → i = .stepS6 ∨ i = .loop) ∧ RunsAlike raises (exec i) s t := by
  have hengine (heq : ∀ u, exec i u = engineOp i (engineEffect i) u) :
      ∃ raises, (raises = true → i = .stepS6 ∨ i = .loop) ∧ RunsAlike raises (exec i) s t := by
    obtain ⟨raises, hstep, hr⟩ := RunsAlike.engineOp hcfg (heq s ▸ h)
    exact ⟨raises, fun hraises => .inl (hstep hraises), fun f => (heq _).trans (hr f)⟩
  cases hagent : i.agent with
  | int => exact hengine (exec_of_int hagent)
  | main =>
    by_cases hsettle : i = .muxSettle
    · subst hsettle
      obtain ⟨hpow, hwait⟩ := execMuxSettle_eq_next.1 h
      exact ⟨false, nofun, fun f => execMuxSettle_eq_next.2 ⟨hpow, RunsAlike.settleWait hcfg hwait f⟩⟩
    · exact hengine (exec_of_main hagent hsettle)
  | function =>
    refine ⟨false, nofun, ?_⟩
    obtain ⟨v, hv⟩ := exists_exec_of_function_withFault hagent s
    exact fun f => (hv f).trans (RunsAlike.functionOp ((hv s.fault).symm.trans h) f)
  | env =>
    cases i with
    | reset => exact absurd rfl hi
    | adv d =>
      obtain ⟨hpow, hadv⟩ := execAdv_eq_next.1 h
      refine ⟨false, nofun, fun f => execAdv_eq_next.2 ⟨hpow, ?_⟩⟩
      rw [record_withFault]
      exact RunsAlike.advanceTo (by rwa [record_cfg]) hadv f
    | pin p level =>
      obtain ⟨v, hv, rfl⟩ := execPin_eq_next.1 h
      exact ⟨false, nofun, fun f => execPin_eq_next.2 ⟨v, hv, (drivePin_withFault hcfg f).symm⟩⟩
    | ain chan code =>
      cases h
      refine ⟨false, nofun, fun f => ?_⟩
      rw [exec, execAin, record_withFault]
      rfl
    | loop =>
      obtain ⟨hpow, hseq, hlpos, hiter⟩ := execLoop_eq_next.1 h
      obtain ⟨raises, hr⟩ := RunsAlike.iteration (by rwa [record_cfg]) hiter
      refine ⟨raises, fun _ => .inr rfl, fun f => execLoop_eq_next.2 ⟨hpow, hseq, hlpos, ?_⟩⟩
      rw [record_withFault]
      exact hr f
    | _ => cases hagent

/-- R44, R291: `RESET` starts from the reset values, whatever bits were set. -/
theorem execReset_withFault (s : State) (f : FaultBits) : execReset (s.withFault f) = execReset s := rfl

/-- Settles O54: `exists_exec_runsAlike`, which says at the bits that `s` has what they become; `RESET` reads none. -/
theorem faultsSticky : Obligations.FaultsSticky := by
  intro i s t hcfg h
  by_cases hi : i = .reset
  · subst hi
    exact ⟨fun hne => absurd rfl hne, fun hne => absurd rfl hne, fun f => ⟨t.fault, (execReset_withFault s f).trans h⟩⟩
  · obtain ⟨raises, hwho, halike⟩ := exists_exec_runsAlike hi hcfg h
    have hbits := halike.fault_eq h
    refine ⟨fun _ => ?_, fun _ hstep hloop => ?_, fun f => ⟨f.raised raises, halike f⟩⟩
    · rw [hbits]
      exact ⟨rfl, fun hset => Bool.or_eq_true_iff.2 (.inr hset)⟩
    · cases raises with
      | false => exact hbits
      | true => exact absurd (hwho rfl) (by simp [hstep, hloop])

end Sys2Proof.Machine

/-! # Proofs: reset and power (O9, O11, O57)

First the engine before its first `RESET` (O11), then the state that `RESET` leaves (O9) and the invariant there
(O57). -/

namespace Sys2Proof.Machine

/-! ## Before the first `RESET` (O11) -/

/-- R331: an unpowered engine performs no operation of INT or MAIN. -/
theorem engineOp_of_unpowered (i : Instr) (body : State → State) {s : State} (h : s.powered = false) :
    engineOp i body s = .refused .unpowered :=
  if_neg (by rw [h]; decide)

/-- R331, R278: without power the operations of the engine's own agents, and the stimuli that let it act, are refused. -/
theorem exec_of_unpowered {i : Instr} {s : State} (h : s.powered = false)
    (hi : i.agent = .int ∨ i.agent = .main ∨ i = .loop ∨ ∃ d, i = .adv d) : exec i s = .refused .unpowered := by
  have hoff : ¬ s.powered = true := by rw [h]; decide
  rcases hi with hint | hmain | rfl | ⟨d, rfl⟩
  · rw [exec_of_int hint, engineOp_of_unpowered _ _ h]
  · by_cases hsettle : i = .muxSettle
    · subst hsettle
      exact if_neg hoff
    · rw [exec_of_main hmain hsettle, engineOp_of_unpowered _ _ h]
  · exact if_neg hoff
  · exact if_neg hoff

/-- Settles O11: `drivePin_unpowered` has the pin, `exec_of_unpowered` the refusals; an `AIN` leaves no trace here. -/
theorem unpowered : Obligations.Unpowered := by
  intro s hoff
  refine ⟨fun p level hlegal => ?_, fun c code => ?_, fun i => exec_of_unpowered hoff⟩
  · obtain ⟨v, hv⟩ := Option.isSome_iff_exists.1 ((pinSetting?_isSome p level).trans hlegal)
    exact ⟨s.pinDrive.put v, execPin_eq_next.2 ⟨v, hv, (drivePin_unpowered p level v s hoff).symm⟩,
      level_put_eq s.pinDrive hv⟩
  · rw [exec, execAin, record_of_unpowered _ _ hoff]

/-! ## The state after `RESET` (O9) -/

/-- The reset values with what the boot makes of them (R332 steps 2 to 6), before the dispatch. -/
def State.booted (s : State) : State :=
  { resetValues s with
    externalTrigger := s.pinDrive.extClkEn, potMode := s.pinDrive.potModeSw, quantizeMode := s.pinDrive.qmodeSel
    edgeEn := ⟨true, true, true, s.pinDrive.extClkEn, true⟩
    alarm := ⟨if s.pinDrive.extClkEn then none else some ⟨.trigger, 0⟩, none, none, some 100000⟩
    optrace := [(0, 0x01000000#32)] }

/-- R332: the boot with every step written out; the period of the tempo read is 100 ms (R9). -/
theorem boot_resetValues {s : State} (hcfg : s.cfg.wf = true) : boot ((resetValues s).record .reset) = s.booted := by
  have hperiod : (100000 : Nat) = 0 + 1000 * s.cfg.tempoReadMs := by rw [(Cfg.bounds_of_wf hcfg).tempoReadMs]
  rw [record_of_powered _ _ rfl, boot, muxSet_eq, bootClock_eq rfl, State.booted, hperiod]
  rfl

/-- The state of `s` after the whole `RESET`: in internal-clock mode its dispatch has performed the beat at 0. -/
def State.afterReset (s : State) : State :=
  { s.booted with
    triggerPending := !s.pinDrive.extClkEn, statusLed := !s.pinDrive.extClkEn
    alarm :=
      ⟨if s.pinDrive.extClkEn then none else some ⟨.anticipate, 1000 * (s.cfg.slowMs / 2)⟩, none, none, some 100000⟩
    optrace := (0, 0x01000000#32) :: if s.pinDrive.extClkEn then [] else [(0, 0x20000000#32)] }

/-- R334: at instant 0 the boot has armed the tempo read for later, so the beat alone can be due. -/
theorem booted_later (s : State) :
    ∀ slot ≠ .beat, ∀ d, s.booted.alarm.deadline slot = some d → s.booted.nowUs < d := by
  intro slot hslot d hd
  cases slot with
  | beat => exact absurd rfl hslot
  | debounce | trigOff => cases hd
  | tempo =>
    cases hd
    exact Nat.succ_pos _

/-- R332, R334: the dispatch at the end of `RESET` performs the first beat where the internal clock runs, and nothing
where the external one does. -/
theorem exec_reset {s : State} (hcfg : s.cfg.wf = true) : exec .reset s = .next s.afterReset := by
  have hboot := boot_resetValues hcfg
  have hlater := booted_later s
  rw [exec, execReset, hboot]
  cases hclk : s.pinDrive.extClkEn with
  | false =>
    have hlive : ChainLive s.booted := (hboot ▸ boot_moveInv hcfg).chainLive
    have hslow := (Cfg.bounds_of_wf hcfg).slowMs
    have hdelay : s.booted.tempoDelayMs.toNat = s.cfg.slowMs / 2 := Nat.mod_eq_of_lt (by omega)
    have hword : encode .clkTrig = 0x20000000#32 := rfl
    have hbeat : s.booted.alarm.beat = some ⟨.trigger, s.booted.nowUs⟩ := by
      simp [State.booted, hclk, resetValues]
    rw [dispatch_of_restart rfl hclk hlive.2 hbeat hlater, hdelay]
    simp [State.afterReset, State.booted, hclk, resetValues, hword]
  | true =>
    have hnone : NothingDue s.booted := due_eq_none_iff_deadline.2 fun slot d hd => by
      by_cases hslot : slot = .beat
      · subst hslot
        simp [State.booted, hclk, Alarms.deadline] at hd
      · exact hlater slot hslot d hd
    rw [dispatch_of_none _ hnone]
    simp [State.afterReset, State.booted, hclk, resetValues]

/-- R271: `RESET` ends with the invariant of the powered engine, and nothing is due. -/
theorem exec_reset_moveInv {s t : State} (hcfg : s.cfg.wf = true) (he : exec .reset s = .next t) :
    MoveInv t ∧ NothingDue t :=
  (boot_moveInv hcfg).dispatch he

/-! ### The first iteration -/

/-- R39, R181: a run of the pipeline begins with its recorded `STEP.S1`. -/
theorem runPipeline_records_stepS1 {s t : State} (hpow : s.powered = true) (h : runPipeline s = .next t) :
    (s.nowUs, 0x41000000#32) ∈ t.optrace := by
  obtain ⟨u, v, haddress, hwait, hsample⟩ := runPipeline_eq_next.1 h
  have hlater : Continues (perform .stepS1 stepS1 s) t :=
    ((Continues.dispatch haddress).trans (.settleWait hwait)).trans (.mainOps sampleOps_effect hsample)
  refine hlater.optrace.subset ?_
  rw [perform, stepS1_eq, record_of_powered _ _ hpow]
  exact List.mem_append_right _ (List.mem_singleton.2 rfl)

/-- R275: the `LOOP` that runs a step performs `STEP.S1` at its own instant. -/
theorem exec_loop_records_stepS1 {s t : State} (h : MoveInv s) (hdue : NothingDue s) (hruns : s.runsStep = true)
    (he : exec .loop s = .next t) : (s.nowUs, 0x41000000#32) ∈ t.optrace := by
  obtain ⟨-, -, -, hiter⟩ := execLoop_eq_next.1 he
  obtain ⟨u, hpolls, hrun⟩ := iteration_eq_next.1 hiter
  obtain ⟨beat, led, hleads, -⟩ := exists_pollOps_leads h hdue
  obtain ⟨ops, hpolled⟩ := hleads (s.optrace ++ [(s.nowUs, encode .loop)])
  rw [record_of_powered _ _ h.powered, hpolled] at hpolls
  cases hpolls
  rcases hrun with ⟨-, hrun⟩ | ⟨hrests, -⟩
  · exact runPipeline_records_stepS1 (s := { s.polled beat led with optrace := ops }) h.powered hrun
  · exact absurd (if_pos hruns) hrests

/-- Settles O9: `exec_reset` has the state; the trigger of the beat at 0 is pending, so the first `LOOP` runs a step. -/
theorem resetState : Obligations.ResetState := by
  intro s hcfg
  have hreset := exec_reset hcfg
  obtain ⟨hinv, hdue⟩ := exec_reset_moveInv hcfg hreset
  refine ⟨s.afterReset.sSample, s.afterReset.sOut, s.afterReset.freeCount, s.afterReset, hreset,
    hinv.bounds.codeMax ▸ hinv.sample, rfl, fun hclk => ?_⟩
  have hruns : s.afterReset.runsStep = true := by simp [State.runsStep, State.afterReset, hclk]
  obtain ⟨beat, led, u, hloop, -, -, hindex, -⟩ := exists_exec_loop_of_runs hinv hdue rfl rfl hruns
  exact ⟨u, hloop, hindex, exec_loop_records_stepS1 hinv hdue hruns hloop⟩

/-! ## The invariant after reset (O57) -/

/-- Settles O57: `State.reset` is what `RESET` leaves of the unpowered engine (O10) but for the drawn latches and the
draw counter, and of these the invariant speaks of `s_sample` only. -/
theorem resetInv : Obligations.ResetInv := by
  obtain ⟨x, y, k, hreset⟩ := powerUp
  obtain ⟨hinv, hdue⟩ := exec_reset_moveInv rfl hreset
  have hengine : EngineInv State.reset := { hinv.engineInv hdue with sample := Nat.zero_le _ }
  exact ⟨hinv.configWf, rfl, fun _ => hengine⟩

end Sys2Proof.Machine
